-- ==== Sys2Proof/Word.lean ====
section
/-! DEFINITION. Word: the plain value types of EPC-CORE: the register widths of `10_state.md` R36 to R38 and the
string type of `00_scope.md` R14. -/

namespace Sys2Proof

/-- The op byte of a command and a header byte: u8 (R90, R40). -/
abbrev Byte := BitVec 8

/-- The STATUS word (R36). -/
abbrev Word32 := BitVec 32

/-- ERRA, ERRB, the V operand and the payload of a UINT result: u64 (R37, R38, R95). -/
abbrev Word64 := BitVec 64

/-- A string is a finite sequence of characters, a character is a natural-number code point (R14, D27). -/
abbrev Str := List Nat

/-- The code points of a literal text, for the tokens of the ROM and for tests. -/
def str (s : String) : Str := s.toList.map Char.toNat

end Sys2Proof
end

