-- ==== Sys2Proof/Syntax.lean ====
section
/-! DEFINITION. Syntax: the command record the host delivers (`30_encoding.md` R90), its operand types
(`10_state.md` R46, R47) and the instructions, one constructor per row of spec/opcode_table.json (R93). -/

namespace Sys2Proof

/-- The three tag schemes in scope (R3). -/
inductive Scheme where
  | sgtin96
  | sgtin198
  | sscc96
  deriving DecidableEq, Repr

/-- The kind of a URI value (R47): pure identity or tag. -/
inductive UriKind where
  | id
  | tag
  deriving DecidableEq, Repr

/-- A URI value (R47); two are equal when kind, token and parts are equal. -/
structure UriValue where
  kind : UriKind
  schemeToken : Str
  parts : List Str
  deriving DecidableEq, Repr

/-- A tag value (R46). `itemField` is indicator + item reference, `extSerial` is extension + serial reference. -/
inductive TagValue where
  | sgtin96 (filter partition : Nat) (companyPrefix itemField serial : Str)
  | sgtin198 (filter partition : Nat) (companyPrefix itemField serial : Str)
  | sscc96 (filter partition : Nat) (companyPrefix extSerial : Str)
  deriving DecidableEq, Repr

/-- A command record (R90): the op byte and every operand field. A command uses the fields its format names (R91)
and the engine ignores the others. `V` is below 2^64 by type (R95); `F` and `N` are mathematical integers (D10). -/
structure Cmd where
  op : Byte
  F : Int
  N : Int
  V : Word64
  P : Nat
  S1 : Str
  S2 : Str
  U : UriValue
  T : TagValue
  deriving DecidableEq, Repr

/-- The command formats of R91, one per operand shape; each names the operand fields its commands use. -/
inductive CmdFormat where
  | none
  | n
  | s
  | fn
  | vfn
  | f
  | fpss
  | sfn
  | u
  | t
  deriving DecidableEq, Repr

/-- The 31 commands of R93, each with the operand fields of its format (R91). -/
inductive Instr where
  -- family 1, BitBuffer
  | bbAlloc (n : Int)
  | bbFromHex (s1 : Str)
  | bbToHex
  | bbReadUint (f n : Int)
  | bbWriteUint (v : Word64) (f n : Int)
  | bbReadByte (f n : Int)
  | bbWriteByte (v : Word64) (f n : Int)
  -- family 2, PartitionCodec
  | pcDecodeSgtin (f : Int)
  | pcDecodeSscc (f : Int)
  | pcEncodeSgtin (f : Int) (p : Nat) (s1 s2 : Str)
  | pcEncodeSscc (f : Int) (p : Nat) (s1 s2 : Str)
  | pcLen2part (s1 : Str)
  -- family 3, SevenBitStringCodec
  | s7Decode (f n : Int)
  | s7Encode (s1 : Str) (f n : Int)
  -- family 4, TagSchemeRegistry
  | regDispatchBinary (s1 : Str)
  | regDispatchUri (u : UriValue)
  -- family 5, TagCodec SGTIN-96
  | sgtin96Decode (s1 : Str)
  | sgtin96Encode (t : TagValue)
  | sgtin96ToUri (t : TagValue)
  | sgtin96FromUri (u : UriValue)
  | sgtin96ToId (t : TagValue)
  -- family 6, TagCodec SGTIN-198
  | sgtin198Decode (s1 : Str)
  | sgtin198Encode (t : TagValue)
  | sgtin198ToUri (t : TagValue)
  | sgtin198FromUri (u : UriValue)
  | sgtin198ToId (t : TagValue)
  -- family 7, TagCodec SSCC-96
  | sscc96Decode (s1 : Str)
  | sscc96Encode (t : TagValue)
  | sscc96ToUri (t : TagValue)
  | sscc96FromUri (u : UriValue)
  | sscc96ToId (t : TagValue)
  deriving DecidableEq, Repr

/-- The scheme whose constructor a tag value is of (R46). -/
def TagValue.scheme : TagValue → Scheme
  | .sgtin96 .. => .sgtin96
  | .sgtin198 .. => .sgtin198
  | .sscc96 .. => .sscc96

end Sys2Proof
end

