-- ==== Sys2Proof/WellFormed.lean ====
section
/-! DEFINITION. WellFormed: which instructions carry operands of the type their op names (`30_encoding.md` R95).
An ill-formed one is no error of the model: its meaning raises IllegalCommand(OPERAND_TYPE) as R95 says. The bound
V < 2^64 needs no check: it holds by the type of V (R95). -/

namespace Sys2Proof

/-- The scheme a FMT_T command requires of its T operand (R95); `none` for every other format. -/
def Instr.tagOperand : Instr → Option (Scheme × TagValue)
  | .bbAlloc _ => none
  | .bbFromHex _ => none
  | .bbToHex => none
  | .bbReadUint _ _ => none
  | .bbWriteUint _ _ _ => none
  | .bbReadByte _ _ => none
  | .bbWriteByte _ _ _ => none
  | .pcDecodeSgtin _ => none
  | .pcDecodeSscc _ => none
  | .pcEncodeSgtin _ _ _ _ => none
  | .pcEncodeSscc _ _ _ _ => none
  | .pcLen2part _ => none
  | .s7Decode _ _ => none
  | .s7Encode _ _ _ => none
  | .regDispatchBinary _ => none
  | .regDispatchUri _ => none
  | .sgtin96Decode _ => none
  | .sgtin96Encode t => some (.sgtin96, t)
  | .sgtin96ToUri t => some (.sgtin96, t)
  | .sgtin96FromUri _ => none
  | .sgtin96ToId t => some (.sgtin96, t)
  | .sgtin198Decode _ => none
  | .sgtin198Encode t => some (.sgtin198, t)
  | .sgtin198ToUri t => some (.sgtin198, t)
  | .sgtin198FromUri _ => none
  | .sgtin198ToId t => some (.sgtin198, t)
  | .sscc96Decode _ => none
  | .sscc96Encode t => some (.sscc96, t)
  | .sscc96ToUri t => some (.sscc96, t)
  | .sscc96FromUri _ => none
  | .sscc96ToId t => some (.sscc96, t)

/-- The operand type check of R95: a T operand is of the constructor the op names. -/
def Instr.wellFormed (i : Instr) : Bool :=
  match i.tagOperand with
  | none => true
  | some (want, t) => t.scheme == want

end Sys2Proof
end

