-- ==== Sys2Proof/Decode.lean ====
section
/-! DEFINITION. Decode: from a command record to an instruction and back (`30_encoding.md` Part A). A command is one
record and is decoded from its op byte alone (R97); operands are taken whole from their fields, with no extension,
scaling or masking (R96); the fields a format does not name are ignored (R90, U10). -/

namespace Sys2Proof

/-- Why a command record names no instruction. -/
inductive DecodeError where
  /-- An op value outside the opcode map (R94). Safe: step raises IllegalCommand(UNASSIGNED_OP) for it, as R94 says. -/
  | unassignedOp (op : Byte)
  deriving DecidableEq, Repr

/-- The opcode map of R93 with the operand fields of R91; every other op value is unassigned (R94). -/
def decode (c : Cmd) : Except DecodeError Instr :=
  match c.op.toNat with
  | 0x10 => .ok (.bbAlloc c.N)
  | 0x11 => .ok (.bbFromHex c.S1)
  | 0x12 => .ok (.bbToHex)
  | 0x13 => .ok (.bbReadUint c.F c.N)
  | 0x14 => .ok (.bbWriteUint c.V c.F c.N)
  | 0x15 => .ok (.bbReadByte c.F c.N)
  | 0x16 => .ok (.bbWriteByte c.V c.F c.N)
  | 0x20 => .ok (.pcDecodeSgtin c.F)
  | 0x21 => .ok (.pcDecodeSscc c.F)
  | 0x22 => .ok (.pcEncodeSgtin c.F c.P c.S1 c.S2)
  | 0x23 => .ok (.pcEncodeSscc c.F c.P c.S1 c.S2)
  | 0x24 => .ok (.pcLen2part c.S1)
  | 0x30 => .ok (.s7Decode c.F c.N)
  | 0x31 => .ok (.s7Encode c.S1 c.F c.N)
  | 0x40 => .ok (.regDispatchBinary c.S1)
  | 0x41 => .ok (.regDispatchUri c.U)
  | 0x50 => .ok (.sgtin96Decode c.S1)
  | 0x51 => .ok (.sgtin96Encode c.T)
  | 0x52 => .ok (.sgtin96ToUri c.T)
  | 0x53 => .ok (.sgtin96FromUri c.U)
  | 0x54 => .ok (.sgtin96ToId c.T)
  | 0x60 => .ok (.sgtin198Decode c.S1)
  | 0x61 => .ok (.sgtin198Encode c.T)
  | 0x62 => .ok (.sgtin198ToUri c.T)
  | 0x63 => .ok (.sgtin198FromUri c.U)
  | 0x64 => .ok (.sgtin198ToId c.T)
  | 0x70 => .ok (.sscc96Decode c.S1)
  | 0x71 => .ok (.sscc96Encode c.T)
  | 0x72 => .ok (.sscc96ToUri c.T)
  | 0x73 => .ok (.sscc96FromUri c.U)
  | 0x74 => .ok (.sscc96ToId c.T)
  | _ => .error (.unassignedOp c.op)

/-- The URI operand with nothing in it, for the fields a command does not use. -/
def zeroUri : UriValue := { kind := .id, schemeToken := [], parts := [] }

/-- The record of zeros: op 0 and every operand field zero or empty. -/
def zeroCmd : Cmd :=
  { op := 0#8, F := 0, N := 0, V := 0#64, P := 0, S1 := [], S2 := [], U := zeroUri, T := .sgtin96 0 0 [] [] [] }

/-- The record of an instruction: the op value of R93, the operands in the fields of R91, every unused field zero. -/
def encode : Instr → Cmd
  | .bbAlloc n => { zeroCmd with op := 0x10#8, N := n }
  | .bbFromHex s1 => { zeroCmd with op := 0x11#8, S1 := s1 }
  | .bbToHex => { zeroCmd with op := 0x12#8 }
  | .bbReadUint f n => { zeroCmd with op := 0x13#8, F := f, N := n }
  | .bbWriteUint v f n => { zeroCmd with op := 0x14#8, V := v, F := f, N := n }
  | .bbReadByte f n => { zeroCmd with op := 0x15#8, F := f, N := n }
  | .bbWriteByte v f n => { zeroCmd with op := 0x16#8, V := v, F := f, N := n }
  | .pcDecodeSgtin f => { zeroCmd with op := 0x20#8, F := f }
  | .pcDecodeSscc f => { zeroCmd with op := 0x21#8, F := f }
  | .pcEncodeSgtin f p s1 s2 => { zeroCmd with op := 0x22#8, F := f, P := p, S1 := s1, S2 := s2 }
  | .pcEncodeSscc f p s1 s2 => { zeroCmd with op := 0x23#8, F := f, P := p, S1 := s1, S2 := s2 }
  | .pcLen2part s1 => { zeroCmd with op := 0x24#8, S1 := s1 }
  | .s7Decode f n => { zeroCmd with op := 0x30#8, F := f, N := n }
  | .s7Encode s1 f n => { zeroCmd with op := 0x31#8, S1 := s1, F := f, N := n }
  | .regDispatchBinary s1 => { zeroCmd with op := 0x40#8, S1 := s1 }
  | .regDispatchUri u => { zeroCmd with op := 0x41#8, U := u }
  | .sgtin96Decode s1 => { zeroCmd with op := 0x50#8, S1 := s1 }
  | .sgtin96Encode t => { zeroCmd with op := 0x51#8, T := t }
  | .sgtin96ToUri t => { zeroCmd with op := 0x52#8, T := t }
  | .sgtin96FromUri u => { zeroCmd with op := 0x53#8, U := u }
  | .sgtin96ToId t => { zeroCmd with op := 0x54#8, T := t }
  | .sgtin198Decode s1 => { zeroCmd with op := 0x60#8, S1 := s1 }
  | .sgtin198Encode t => { zeroCmd with op := 0x61#8, T := t }
  | .sgtin198ToUri t => { zeroCmd with op := 0x62#8, T := t }
  | .sgtin198FromUri u => { zeroCmd with op := 0x63#8, U := u }
  | .sgtin198ToId t => { zeroCmd with op := 0x64#8, T := t }
  | .sscc96Decode s1 => { zeroCmd with op := 0x70#8, S1 := s1 }
  | .sscc96Encode t => { zeroCmd with op := 0x71#8, T := t }
  | .sscc96ToUri t => { zeroCmd with op := 0x72#8, T := t }
  | .sscc96FromUri u => { zeroCmd with op := 0x73#8, U := u }
  | .sscc96ToId t => { zeroCmd with op := 0x74#8, T := t }

/-- The format of each assigned op value (R93); none for the 225 illegal values (R94). -/
def opFormat (op : Byte) : Option CmdFormat :=
  match op.toNat with
  | 0x12 => some .none
  | 0x10 => some .n
  | 0x11 | 0x24 | 0x40 | 0x50 | 0x60 | 0x70 => some .s
  | 0x13 | 0x15 | 0x30 => some .fn
  | 0x14 | 0x16 => some .vfn
  | 0x20 | 0x21 => some .f
  | 0x22 | 0x23 => some .fpss
  | 0x31 => some .sfn
  | 0x41 | 0x53 | 0x63 | 0x73 => some .u
  | 0x51 | 0x52 | 0x54 | 0x61 | 0x62 | 0x64 | 0x71 | 0x72 | 0x74 => some .t
  | _ => none

/-- The record with the fields its format names (R91) and zeros in the fields the engine ignores (R90). -/
def keepFields (fmt : CmdFormat) (c : Cmd) : Cmd :=
  match fmt with
  | .none => { zeroCmd with op := c.op }
  | .n => { zeroCmd with op := c.op, N := c.N }
  | .s => { zeroCmd with op := c.op, S1 := c.S1 }
  | .fn => { zeroCmd with op := c.op, F := c.F, N := c.N }
  | .vfn => { zeroCmd with op := c.op, V := c.V, F := c.F, N := c.N }
  | .f => { zeroCmd with op := c.op, F := c.F }
  | .fpss => { zeroCmd with op := c.op, F := c.F, P := c.P, S1 := c.S1, S2 := c.S2 }
  | .sfn => { zeroCmd with op := c.op, S1 := c.S1, F := c.F, N := c.N }
  | .u => { zeroCmd with op := c.op, U := c.U }
  | .t => { zeroCmd with op := c.op, T := c.T }

/-- The tag operand of zeros that an op byte's family takes: the constructor R95 names for the op. -/
def zeroTag (op : Byte) : TagValue :=
  match (op >>> 4).toNat with
  | 6 => .sgtin198 0 0 [] [] []
  | 7 => .sscc96 0 0 [] []
  | _ => .sgtin96 0 0 [] [] []

/-- The command record whose op byte is `w` and whose operands are all zero. A row of spec/opcode_table.json has
eight bits, the op byte: the operands have no bits in it, they are fields of the record (R90, R96). -/
def tableCmd (w : Nat) : Cmd :=
  { zeroCmd with op := BitVec.ofNat 8 w, T := zeroTag (BitVec.ofNat 8 w) }

/-- The instruction the decoder reads from the op byte `w` with operands of zeros. -/
def decodeTableWord (nbits w : Nat) : Option Instr :=
  if nbits = 8 ∧ w < 256 then
    match decode (tableCmd w) with
    | .ok i => some i
    | .error _ => none
  else none

end Sys2Proof
end

