-- ==== Sys2Proof/Machine/Text.lean ====
section
/-! DEFINITION. Text: the string helpers of `00_scope.md` R15. Characters are code points: 48 is '0', 57 '9', 65 'A',
70 'F', 97 'a', 102 'f', 37 '%'. -/

namespace Sys2Proof.Machine

/-- `isHex(c)` (R15): `0-9`, `A-F` or `a-f`. -/
def isHex (c : Nat) : Bool :=
  (decide (48 ≤ c) && decide (c ≤ 57)) || (decide (65 ≤ c) && decide (c ≤ 70)) || (decide (97 ≤ c) && decide (c ≤ 102))

/-- `hexval(c)` (R15), for a hex digit. -/
def hexval (c : Nat) : Nat :=
  if c ≤ 57 then c - 48 else if c ≤ 70 then c - 65 + 10 else c - 97 + 10

/-- `hexchar(v)` (R15), for 0 ≤ v ≤ 15: `0-9` then `A-F`. -/
def hexchar (v : Nat) : Nat := if v < 10 then 48 + v else 65 + (v - 10)

/-- `isDigit(c)` (R15). -/
def isDigit (c : Nat) : Bool := decide (48 ≤ c) && decide (c ≤ 57)

/-- The decimal digits of `n` before `acc`, with as many digits as the fuel allows. -/
def decFrom : Nat → Nat → Str → Str
  | 0, _, acc => acc
  | fuel + 1, n, acc => if n < 10 then (48 + n) :: acc else decFrom fuel (n / 10) ((48 + n % 10) :: acc)

/-- `dec(n)` (R15): the shortest decimal rendering; `dec(0) = "0"`. -/
def dec (n : Nat) : Str := decFrom (n + 1) n []

/-- `pad(s, d)` (R15): zeros in front up to `d` characters; it never removes any. -/
def pad (s : Str) (d : Nat) : Str := List.replicate (d - s.length) 48 ++ s

/-- `stripZ(s)` (R15): without its leading zeros. -/
def stripZ : Str → Str
  | [] => []
  | c :: cs => if c = 48 then stripZ cs else c :: cs

/-- The number a string of digits spells: `Σ_i (s[i] - '0') · 10^(len(s)-1-i)` (R15). -/
def decValue : Str → Nat
  | [] => 0
  | c :: cs => (c - 48) * 10 ^ cs.length + decValue cs

/-- `parseDec(s)` (R15): none for the empty string or a character that is no digit. -/
def parseDec (s : Str) : Option Nat :=
  if s.isEmpty then none else if s.all isDigit then some (decValue s) else none

/-- The first character at or after index `k` that is no hex digit, with its index (the scan of R143 and R261). -/
def firstNonHex (k : Nat) : Str → Option (Nat × Nat)
  | [] => none
  | c :: cs => if isHex c then firstNonHex (k + 1) cs else some (k, c)

end Sys2Proof.Machine
end

