-- ==== Sys2Proof/Machine/Bits.lean ====
section
/-! DEFINITION. Bits: fields of a sequence of bits, most significant bit first (`00_scope.md` R10, R13;
`20_memory.md` R62, R63), and its hex text (`40_bitbuffer.md` R143, R146). -/

namespace Sys2Proof.Machine

/-- `uint` of a run of bits (R10): the first is the most significant. -/
def bitsToNat : List Bool → Nat
  | [] => 0
  | b :: bs => b.toNat * 2 ^ bs.length + bitsToNat bs

/-- The low `n` bits of `v`, most significant first (R13: position i takes bit n − 1 − i). -/
def natToBits : Nat → Nat → List Bool
  | 0, _ => []
  | n + 1, v => v.testBit n :: natToBits n v

/-- `MemRead(f, n)` (R13): `uint(BB[f..f+n))`. -/
def readBits (bits : List Bool) (f n : Nat) : Nat := bitsToNat ((bits.drop f).take n)

/-- `MemWrite(f, n, v)` (R13): positions `f .. f+n-1` take the bits of `v`, every other position keeps its own. -/
def writeBits (bits : List Bool) (f n v : Nat) : List Bool :=
  bits.take f ++ natToBits n v ++ bits.drop (f + n)

/-- The bits of a hex text (R143): character k gives positions 4k to 4k+3. -/
def hexBits : Str → List Bool
  | [] => []
  | c :: cs => natToBits 4 (hexval c) ++ hexBits cs

/-- The zero bits that bring a length up to the next multiple of 16 (R146). -/
def hexPadding (len : Nat) : Nat := (16 - len % 16) % 16

/-- The hex text of whole nibbles (R146). -/
def nibblesToHex : List Bool → Str
  | b0 :: b1 :: b2 :: b3 :: rest =>
    hexchar (8 * b0.toNat + 4 * b1.toNat + 2 * b2.toNat + b3.toNat) :: nibblesToHex rest
  | _ => []

/-- `toHex` (R146): the bits, then zeros up to a multiple of 16, four to a character. -/
def hexText (bits : List Bool) : Str :=
  nibblesToHex (bits ++ List.replicate (hexPadding bits.length) false)

end Sys2Proof.Machine
end

