-- ==== Sys2Proof/Config.lean ====
section
/-! DEFINITION. Config: the one parameter the spec leaves to the implementation (`BB_MAX_BITS`), and the free
values: what the spec calls unspecified. The partition tables and scheme descriptors, which a test could show
wrong, stand in Machine/Rom.lean. -/

namespace Sys2Proof

/-- The parameter of `00_scope.md` R9: OPEN, a model argument. It is chosen for the machine and no command changes it. -/
structure Config where
  /-- `BB_MAX_BITS`, the largest BitBuffer length; `none` is the spec's default, no limit (R9, D9). -/
  bbMaxBits : Option Nat
  deriving DecidableEq, Repr

/-- The default of R9: no limit. -/
def Config.default : Config := { bbMaxBits := none }

/-- The bits of a buffer whose contents the spec leaves unspecified: `BB` after it is invalidated (R35, U5) and
`SB` after a command that used it (R45, U6). Free: nothing constrains it. DESIGN CHOICE, log entry 3. -/
opaque Config.freeBits : Nat → List Bool

/-- The valid bit of `SB` after a command that used it (R45, U6). Free. DESIGN CHOICE, log entry 3. -/
opaque Config.freeValid : Nat → Bool

/-- What the host reads from register 4 while `BB.valid = 0` (R50: "returns an unspecified value"). Free.
DESIGN CHOICE, log entry 4. -/
opaque Config.freeLen : Nat → Nat

end Sys2Proof
end

