-- ==== Sys2Proof/Machine/State.lean ====
section
/-! DEFINITION. State: everything EPC-CORE holds (`10_state.md` R32, R33 to R38, R45), and the host's side of the
command interface (R30, R31). The read-only configuration ROM (R40 to R44) is constant data in Machine/Rom.lean. -/

namespace Sys2Proof.Machine

/-- A BitBuffer (R33): its bits, position 0 first, and whether it holds a buffer that commands may read (R35).
The length is the number of bits, so a buffer has exactly one form and equal buffers are equal data. -/
structure BitBuffer where
  bits : List Bool
  valid : Bool
  deriving DecidableEq, Repr

/-- `BB.len` (R33). -/
def BitBuffer.len (b : BitBuffer) : Nat := b.bits.length

/-- The result register's tagged values (R38). -/
inductive Res where
  | none
  | uint (v : Word64)
  | str (s : Str)
  | part (p : Nat) (s1 s2 : Str)
  | tag (t : TagValue)
  | uri (u : UriValue)
  deriving DecidableEq, Repr

/-- The registers of the host's read port (R50), in the order of their numbers 0 to 5. -/
inductive PortReg where
  | status
  | erra
  | errb
  | res
  | bbLen
  | bbValid
  deriving DecidableEq, Repr

/-- What a read of the host's port returns, in the register's own width (R50). -/
inductive PortValue where
  | word32 (w : Word32)
  | word64 (w : Word64)
  | result (r : Res)
  | len (n : Nat)
  | bit (b : Bool)
  deriving DecidableEq, Repr

/-- What the host can do to the engine: issue a command (R30, R90), assert reset (R370), or read a register (R50).
A reset may cut off a command in progress (R371). -/
inductive HostEvent where
  | command (c : Cmd)
  | reset (cutOff : Option Cmd)
  | read (r : PortReg)
  deriving DecidableEq, Repr

/-- The reasons the machine stops: none. Every failure the spec describes ends its command with a next state, and
every command terminates (R330, R342), so no meaning and no step ever faults. Safe. -/
inductive Fault where
  deriving DecidableEq, Repr

/-- The reasons an instruction has no meaning here. -/
inductive Refusal where
  /-- Raised only by an arm of exec whose instruction is not modelled yet; every arm has its meaning, so no step
  raises it. Safe: the machine stops where the hardware goes on. -/
  | notModelled (mnemonic : String)
  deriving DecidableEq, Repr

/-- The state of one EPC-CORE instance and of the host that drives it. -/
structure State where
  /-- `BB`, the BitBuffer (R33 to R35). -/
  bb : BitBuffer
  /-- `STATUS` (R36). -/
  status : Word32
  /-- `ERRA` (R37). -/
  erra : Word64
  /-- `ERRB` (R37). -/
  errb : Word64
  /-- `RES` (R38). -/
  res : Res
  /-- `SB`, the scratch buffer (R45). -/
  sb : BitBuffer
  /-- The parameter `BB_MAX_BITS` (R9), fixed for the machine: no step changes it. -/
  cfg : Config
  /-- The host's events that are still to come, the next first (R30, R31). The host's side, not the engine's. -/
  input : List HostEvent
  /-- What the host's register reads have returned, oldest first (R50). The host's side, not the engine's. -/
  reads : List PortValue
  /-- The model's own counter: which free value comes next (log entry 3). -/
  free : Nat
  deriving DecidableEq, Repr

/-- The machine right after reset (R51, R370): no buffer, STATUS, ERRA and ERRB zero, RES NONE. The contents of `BB`
and `SB`, which the spec leaves unspecified, are empty here (DESIGN CHOICE, log entry 1). The host has issued nothing. -/
def State.reset : State :=
  { bb := { bits := [], valid := false }
    status := 0#32
    erra := 0#64
    errb := 0#64
    res := .none
    sb := { bits := [], valid := false }
    cfg := Config.default
    input := []
    reads := []
    free := 0 }

/-- The memory's invariant: a valid buffer is no longer than `BB_MAX_BITS` (R34). The form of a buffer needs no more:
one list entry for each position, so equal contents are equal data. -/
def Memory.wf (cfg : Config) (b : BitBuffer) : Bool :=
  match cfg.bbMaxBits with
  | none => true
  | some m => !b.valid || decide (b.len ≤ m)

end Sys2Proof.Machine
end

