-- ==== Sys2Proof/Machine/Flags.lean ====
section
/-! DEFINITION. Flags: the STATUS word (`10_state.md` R36), the error classes and causes (`60_exceptions.md` R331) and
the recording of information values (R332). EPC-CORE has no condition codes and no arithmetic flags (R39). -/

namespace Sys2Proof.Machine

/-- The error classes (R18, R331). -/
inductive ErrClass where
  | formatError
  | rangeError
  | notSupportedError
  | illegalCommand
  deriving DecidableEq, Repr

/-- The CLASS code of each class (R36, R331); 0 is OK and 5 to 7 are never written. -/
def ErrClass.code : ErrClass → BitVec 3
  | .formatError => 1#3
  | .rangeError => 2#3
  | .notSupportedError => 3#3
  | .illegalCommand => 4#3

/-- The causes (R331), in the table's order. -/
inductive Cause where
  | hexChar
  | length
  | header
  | unknownHeader
  | partition
  | fieldTooWide
  | notDecimal
  | badEscape
  | uriKind
  | uriScheme
  | uriParts
  | prefixLength
  | filter
  | serial
  | shortText
  | field2Length
  | noBuffer
  | bitCount
  | negOffset
  | outOfBounds
  | valueOverflow
  | capacity
  | notMultipleOf7
  | unknownScheme
  | unassignedOp
  | operandType
  deriving DecidableEq, Repr

/-- The class of each cause (R331). -/
def Cause.cls : Cause → ErrClass
  | .hexChar | .length | .header | .unknownHeader | .partition | .fieldTooWide | .notDecimal | .badEscape
  | .uriKind | .uriScheme | .uriParts | .prefixLength | .filter | .serial | .shortText | .field2Length => .formatError
  | .noBuffer | .bitCount | .negOffset | .outOfBounds | .valueOverflow | .capacity | .notMultipleOf7 => .rangeError
  | .unknownScheme => .notSupportedError
  | .unassignedOp | .operandType => .illegalCommand

/-- The CAUSE code of each cause within its class (R331). -/
def Cause.code : Cause → Byte
  | .hexChar => 0x01#8
  | .length => 0x02#8
  | .header => 0x03#8
  | .unknownHeader => 0x04#8
  | .partition => 0x05#8
  | .fieldTooWide => 0x06#8
  | .notDecimal => 0x07#8
  | .badEscape => 0x08#8
  | .uriKind => 0x09#8
  | .uriScheme => 0x0A#8
  | .uriParts => 0x0B#8
  | .prefixLength => 0x0C#8
  | .filter => 0x0D#8
  | .serial => 0x0E#8
  | .shortText => 0x0F#8
  | .field2Length => 0x10#8
  | .noBuffer => 0x01#8
  | .bitCount => 0x02#8
  | .negOffset => 0x03#8
  | .outOfBounds => 0x04#8
  | .valueOverflow => 0x05#8
  | .capacity => 0x06#8
  | .notMultipleOf7 => 0x07#8
  | .unknownScheme => 0x01#8
  | .unassignedOp => 0x01#8
  | .operandType => 0x02#8

/-- An exception: `raise <Class>(<cause>, a, b)` (R13, R330). The class follows from the cause (R331). -/
structure Exc where
  cause : Cause
  a : Nat
  b : Nat
  deriving DecidableEq, Repr

/-- The STATUS word of R36: ERR_SEEN at bit 31, CAUSE at 15..8, CLASS at 2..0, every reserved bit 0. -/
def statusWord (errSeen : Bool) (cause : Byte) (cls : BitVec 3) : Word32 :=
  ((BitVec.ofBool errSeen).setWidth 32 <<< 31) ||| (cause.setWidth 32 <<< 8) ||| cls.setWidth 32

/-- STATUS.CLASS (R36). -/
def statusClass (w : Word32) : BitVec 3 := w.extractLsb' 0 3

/-- STATUS.CAUSE (R36). -/
def statusCause (w : Word32) : Byte := w.extractLsb' 8 8

/-- STATUS.ERR_SEEN (R36). -/
def statusErrSeen (w : Word32) : Bool := w.getLsbD 31

/-- `rec(x)` (R332): x below 2^64, and 2^64 − 1 otherwise. -/
def recInfo (x : Nat) : Word64 := if x < 2 ^ 64 then BitVec.ofNat 64 x else BitVec.allOnes 64

/-- The number of a register at the host's read port (R50). -/
def PortReg.number : PortReg → Nat
  | .status => 0
  | .erra => 1
  | .errb => 2
  | .res => 3
  | .bbLen => 4
  | .bbValid => 5

end Sys2Proof.Machine
end

