-- ==== Sys2Proof/Machine/Rom.lean ====
section
/-! DEFINITION. Rom: the read-only configuration ROM (`10_state.md` R40 to R44) and the registry's dispatch tables
made from it (`43_registry.md` R241). Constants: no command, reset or error changes them (R44, R245, R373). -/

namespace Sys2Proof.Machine

/-- One row of a partition table (R41). -/
structure PartRow where
  bits1 : Nat
  digits1 : Nat
  bits2 : Nat
  digits2 : Nat
  deriving DecidableEq, Repr

/-- `PT_SGTIN` (R41), indexed by partition. PRESUMED by the spec: general knowledge (I1), log entry 6. -/
def ptSgtin : List PartRow :=
  [⟨40, 12, 4, 1⟩, ⟨37, 11, 7, 2⟩, ⟨34, 10, 10, 3⟩, ⟨30, 9, 14, 4⟩, ⟨27, 8, 17, 5⟩, ⟨24, 7, 20, 6⟩, ⟨20, 6, 24, 7⟩]

/-- `PT_SSCC` (R42), indexed by partition. PRESUMED by the spec: general knowledge (I2), log entry 6. -/
def ptSscc : List PartRow :=
  [⟨40, 12, 18, 5⟩, ⟨37, 11, 21, 6⟩, ⟨34, 10, 24, 7⟩, ⟨30, 9, 28, 8⟩, ⟨27, 8, 31, 9⟩, ⟨24, 7, 34, 10⟩, ⟨20, 6, 38, 11⟩]

/-- `LEN2PART` (R43): company-prefix length to partition. -/
def len2part : Nat → Option Nat
  | 12 => some 0
  | 11 => some 1
  | 10 => some 2
  | 9 => some 3
  | 8 => some 4
  | 7 => some 5
  | 6 => some 6
  | _ => none

/-- A scheme descriptor (R40): header u8, total bits u16, the two tokens, the partition table, the hex length. -/
structure SchemeDesc where
  binaryHeader : Byte
  totalBits : BitVec 16
  tagToken : Str
  idToken : Str
  table : List PartRow
  hexLength : Nat
  deriving DecidableEq, Repr

/-- The descriptor of each scheme (R40). -/
def schemeDesc : Scheme → SchemeDesc
  | .sgtin96 => ⟨0x30#8, 96#16, str "sgtin-96", str "sgtin", ptSgtin, 24⟩
  | .sgtin198 => ⟨0x36#8, 198#16, str "sgtin-198", str "sgtin", ptSgtin, 52⟩
  | .sscc96 => ⟨0x31#8, 96#16, str "sscc-96", str "sscc", ptSscc, 24⟩

/-- The partition table of a scheme (R40). -/
def schemeTable (sch : Scheme) : List PartRow := (schemeDesc sch).table

/-- `HeaderLookup` (R241): the scheme of a header byte. -/
def headerLookup (h : Nat) : Option Scheme :=
  [Scheme.sgtin96, .sscc96, .sgtin198].find? fun sch => (schemeDesc sch).binaryHeader.toNat == h

/-- `TokenLookup` (R241): the scheme of a tag token, compared character for character. -/
def tokenLookup (tok : Str) : Option Scheme :=
  [Scheme.sgtin96, .sgtin198, .sscc96].find? fun sch => (schemeDesc sch).tagToken == tok

end Sys2Proof.Machine
end

