-- ==== Sys2Proof/Machine/Ops.lean ====
section
/-! DEFINITION. Ops: the named operations over the state. Ending a command with a result or with an exception
(`60_exceptions.md` R330, R340), the checked accesses to a buffer (`40_bitbuffer.md` R141, R150), the partition
procedures (`41_partition.md` R181, R184, R185), the septet procedures (`42_sevenbit.md` R211 to R215), the free
values, and the host's port and reset input (`10_state.md` R50, `70_reset_and_hazards.md` R370). -/

namespace Sys2Proof.Machine

/-! ## How a command ends -/

/-- TAKING AN EXCEPTION (R330): CLASS and CAUSE of the cause, ERR_SEEN ← 1, the information values, RES ← NONE.
Control goes nowhere: there is no handler, no vector and no saved pc (R339). -/
def State.raise (e : Exc) (s : State) : State :=
  { s with
    status := statusWord true e.cause.code e.cause.cls.code
    erra := recInfo e.a
    errb := recInfo e.b
    res := .none }

/-- A command that succeeds (R36, R37, R38): CLASS ← 0, CAUSE ← 0, ERR_SEEN unchanged, ERRA ← 0, ERRB ← 0, RES ← r.
There is no return from an exception: the next command overwrites what `raise` wrote, but for ERR_SEEN (R340). -/
def State.succeed (r : Res) (s : State) : State :=
  { s with
    status := statusWord (statusErrSeen s.status) 0#8 0#3
    erra := 0#64
    errb := 0#64
    res := r }

/-- A command that changes no buffer: its result, or its exception. -/
def State.conclude (r : Except Exc Res) (s : State) : State :=
  match r with
  | .ok v => s.succeed v
  | .error e => s.raise e

/-- `BB` takes these bits and is valid. -/
def State.withBuffer (bits : List Bool) (s : State) : State :=
  { s with bb := { bits := bits, valid := true } }

/-- `BB.valid ← 0` (R35, R186, R216). What the buffer then holds is unspecified: a free value (U5, log entry 3). -/
def State.poison (s : State) : State :=
  { s with bb := { bits := Config.freeBits s.free, valid := false }, free := s.free + 1 }

/-- A command has used `SB` (R45): what it then holds is unspecified, a free value (U6, log entry 3). -/
def State.useScratch (s : State) : State :=
  { s with sb := { bits := Config.freeBits s.free, valid := Config.freeValid s.free }, free := s.free + 1 }

/-! ## The largest buffer (R9) -/

/-- Whether a buffer of `n` bits is within `BB_MAX_BITS` (R9). -/
def withinCapacity (cfg : Config) (n : Nat) : Bool :=
  match cfg.bbMaxBits with
  | none => true
  | some m => decide (n ≤ m)

/-- `BB_MAX_BITS` as an information value: no limit is above every value of 64 bits, so `rec` saturates it (R332). -/
def capacityInfo (cfg : Config) : Nat :=
  match cfg.bbMaxBits with
  | none => 2 ^ 64
  | some m => m

/-! ## Checked access to a buffer -/

/-- `CheckAccess(f, n, nmin, nmax)` (R141): the exception it raises, if any. -/
def checkAccess (b : BitBuffer) (f n : Int) (nmin nmax : Nat) : Option Exc :=
  if b.valid = false then some ⟨.noBuffer, 0, 0⟩
  else if n < nmin ∨ (nmax : Int) < n then some ⟨.bitCount, nmin, nmax⟩
  else if f < 0 then some ⟨.negOffset, 0, 0⟩
  else if (b.len : Int) < f + n then some ⟨.outOfBounds, (f + n).toNat, b.len⟩
  else none

/-- `CheckValue(v, n)` (R150): the exception it raises, if any. -/
def checkValue (v n : Nat) : Option Exc :=
  if 2 ^ n ≤ v then some ⟨.valueOverflow, v, n⟩ else none

/-- A checked read of a field (R141, then `MemRead` of R13). -/
def readField (b : BitBuffer) (f n : Int) (nmin nmax : Nat) : Except Exc Nat :=
  match checkAccess b f n nmin nmax with
  | some e => .error e
  | none => .ok (readBits b.bits f.toNat n.toNat)

/-- A checked write of a field (R141, R150, then `MemWrite` of R13): the bits of the buffer after it. -/
def writeField (b : BitBuffer) (f n : Int) (nmin nmax v : Nat) : Except Exc (List Bool) :=
  match checkAccess b f n nmin nmax with
  | some e => .error e
  | none =>
    match checkValue v n.toNat with
    | some e => .error e
    | none => .ok (writeBits b.bits f.toNat n.toNat v)

/-! ## The partition procedures -/

/-- `PartDecode(f, PT)` (R181): the partition and the two padded decimal strings. -/
def partDecode (b : BitBuffer) (f : Int) (table : List PartRow) : Except Exc (Nat × Str × Str) :=
  match readField b f 3 1 64 with
  | .error e => .error e
  | .ok p =>
    match table[p]? with
    | none => .error ⟨.partition, p, 0⟩
    | some row =>
      match readField b (f + 3) row.bits1 1 64 with
      | .error e => .error e
      | .ok n1 =>
        match readField b (f + 3 + row.bits1) row.bits2 1 64 with
        | .error e => .error e
        | .ok n2 => .ok (p, pad (dec n1) row.digits1, pad (dec n2) row.digits2)

/-- `PartEncodeCheck` (R184) after its NO_BUFFER step, which R262 skips: the row and the two numbers. -/
def partEncodeCheck (table : List PartRow) (p : Nat) (s1 s2 : Str) : Except Exc (PartRow × Nat × Nat) :=
  match table[p]? with
  | none => .error ⟨.partition, p, 0⟩
  | some row =>
    if row.digits1 < (stripZ s1).length then .error ⟨.fieldTooWide, 1, (stripZ s1).length⟩
    else if row.digits2 < (stripZ s2).length then .error ⟨.fieldTooWide, 2, (stripZ s2).length⟩
    else
      match parseDec s1 with
      | none => .error ⟨.notDecimal, 1, 0⟩
      | some n1 =>
        match parseDec s2 with
        | none => .error ⟨.notDecimal, 2, 0⟩
        | some n2 => .ok (row, n1, n2)

/-- `PartEncodeWrite(f, e, p, n1, n2)` (R185): three checked writes, contiguous; the bits of the buffer after them. -/
def partEncodeWrite (b : BitBuffer) (f : Int) (row : PartRow) (p n1 n2 : Nat) : Except Exc (List Bool) :=
  match writeField b f 3 1 64 p with
  | .error e => .error e
  | .ok bits =>
    match writeField { b with bits := bits } (f + 3) row.bits1 1 64 n1 with
    | .error e => .error e
    | .ok bits' => writeField { b with bits := bits' } (f + 3 + row.bits1) row.bits2 1 64 n2

/-! ## The septet procedures -/

/-- `CheckSeptetField(f, n)` (R211): the exception it raises, if any. -/
def checkSeptetField (b : BitBuffer) (f n : Int) : Option Exc :=
  if b.valid = false then some ⟨.noBuffer, 0, 0⟩
  else if n < 0 then some ⟨.bitCount, 0, 0⟩
  else if n % 7 ≠ 0 then some ⟨.notMultipleOf7, (n % 7).toNat, 0⟩
  else if f < 0 then some ⟨.negOffset, 0, 0⟩
  else if (b.len : Int) < f + n then some ⟨.outOfBounds, (f + n).toNat, b.len⟩
  else none

/-- The `k` septets of a field at position `f` (R210). -/
def septets (bits : List Bool) (f : Nat) : Nat → List Nat
  | 0 => []
  | k + 1 => readBits bits f 7 :: septets bits (f + 7) k

/-- The loop of `S7Decode` (R212) over the septets that are left, the first of them septet `i` of the field. -/
def decodeSeptets (i : Nat) : List Nat → Except Exc Str
  | [] => .ok []
  | c :: rest =>
    if c = 0 then .ok []
    else if c = 0x25 then
      match rest with
      | h1 :: h2 :: rest' =>
        if isHex h1 && isHex h2 then
          match decodeSeptets (i + 3) rest' with
          | .ok out => .ok ((16 * hexval h1 + hexval h2) :: out)
          | .error e => .error e
        else .error ⟨.badEscape, i, 1⟩
      | _ => .error ⟨.badEscape, i, 0⟩
    else
      match decodeSeptets (i + 1) rest with
      | .ok out => .ok (c :: out)
      | .error e => .error e

/-- `S7Decode(f, n)` (R212). -/
def s7Decode (b : BitBuffer) (f n : Int) : Except Exc Str :=
  match checkSeptetField b f n with
  | some e => .error e
  | none => decodeSeptets 0 (septets b.bits f.toNat (n.toNat / 7))

/-- The next character to encode and the input after it: an input escape `%XX` is one character (R214). -/
def nextChar (c : Nat) (rest : Str) : Nat × Str :=
  match rest with
  | h1 :: h2 :: rest' =>
    if c = 0x25 ∧ isHex h1 = true ∧ isHex h2 = true then (16 * hexval h1 + hexval h2, rest') else (c, rest)
  | _ => (c, rest)

/-- The write loop of `S7Encode` (R215) with `k` septets left, the next at position `f`. -/
def writeSeptets (bits : List Bool) (f : Nat) : Nat → Str → Except Exc (List Bool)
  | 0, _ => .ok bits
  | _ + 1, [] => .ok bits
  | k + 1, c :: rest =>
    match checkValue (nextChar c rest).1 7 with
    | some e => .error e
    | none => writeSeptets (writeBits bits f 7 (nextChar c rest).1) (f + 7) k (nextChar c rest).2

/-! ## The host's port and the reset input -/

/-- What a read of a register returns (R50); register 4 while `BB.valid = 0` returns an unspecified value. -/
def State.portValue (s : State) : PortReg → PortValue
  | .status => .word32 s.status
  | .erra => .word64 s.erra
  | .errb => .word64 s.errb
  | .res => .result s.res
  | .bbLen => .len (if s.bb.valid then s.bb.len else Config.freeLen s.free)
  | .bbValid => .bit s.bb.valid

/-- The host reads a register (R50): it receives the value, the engine does not change. -/
def State.portRead (r : PortReg) (s : State) : State :=
  { s with reads := s.reads ++ [s.portValue r], free := s.free + 1 }

/-- The reset input (R370): every piece of the engine's state to its reset value, whether or not a command was in
progress (R371). The parameter, the host's side and the model's counter stay. -/
def State.assertReset (s : State) : State :=
  { State.reset with cfg := s.cfg, input := s.input, reads := s.reads, free := s.free }

/-- The exception of a command record that names no instruction (R94). -/
def decodeExc : DecodeError → Exc
  | .unassignedOp op => ⟨.unassignedOp, op.toNat, 0⟩

/-- The host's next event, and the state without it; `none` when the host has issued nothing (R30, R372). -/
def fetch (s : State) : Option (HostEvent × State) :=
  match s.input with
  | [] => none
  | ev :: rest => some (ev, { s with input := rest })

end Sys2Proof.Machine
end

