-- ==== Sys2Proof/Machine/Operands.lean ====
section
/-! DEFINITION. Operands: the one operand check made before a command's own (`30_encoding.md` R95), and the fields and
accessors of a tag operand (`10_state.md` R46, R48). Every other operand is taken whole from its field (R96). -/

namespace Sys2Proof.Machine

/-- The operand type check of R95 for a FMT_T command: `run` if T is of the constructor the op names, otherwise
IllegalCommand(OPERAND_TYPE, op, 0) before any other check. -/
def withTagOperand (want : Scheme) (op : Byte) (t : TagValue) (run : State → State) (s : State) : State :=
  if t.scheme = want then run s else s.raise ⟨.operandType, op.toNat, 0⟩

/-- `t.filter` (R46). -/
def tagFilter : TagValue → Nat
  | .sgtin96 f _ _ _ _ => f
  | .sgtin198 f _ _ _ _ => f
  | .sscc96 f _ _ _ => f

/-- `t.partition` (R46). -/
def tagPartition : TagValue → Nat
  | .sgtin96 _ p _ _ _ => p
  | .sgtin198 _ p _ _ _ => p
  | .sscc96 _ p _ _ => p

/-- `t.companyPrefix` (R46). -/
def tagCompanyPrefix : TagValue → Str
  | .sgtin96 _ _ cp _ _ => cp
  | .sgtin198 _ _ cp _ _ => cp
  | .sscc96 _ _ cp _ => cp

/-- `field2(t)`: `itemField` of an SGTIN value, `extSerial` of an SSCC value (R49). -/
def tagField2 : TagValue → Str
  | .sgtin96 _ _ _ f2 _ => f2
  | .sgtin198 _ _ _ f2 _ => f2
  | .sscc96 _ _ _ f2 => f2

/-- The serial part of a tag value: one string for the SGTIN schemes, none for SSCC-96 (R263, R265). -/
def tagSerialParts : TagValue → List Str
  | .sgtin96 _ _ _ _ sn => [sn]
  | .sgtin198 _ _ _ _ sn => [sn]
  | .sscc96 _ _ _ _ => []

/-- The indicator (SGTIN) or extension (SSCC) digit: the first character of field 2 (R48). -/
def tagIndicator (t : TagValue) : Str := (tagField2 t).take 1

/-- The item reference (SGTIN) or serial reference (SSCC): field 2 after its first character (R48). -/
def tagReference (t : TagValue) : Str := (tagField2 t).drop 1

end Sys2Proof.Machine
end

