-- ==== Sys2Proof/Machine/BitBuffer.lean ====
section
/-! DEFINITION. BitBuffer: the meanings of family 1, the BitBuffer commands (`40_bitbuffer.md`). -/

namespace Sys2Proof.Machine

/-- The end of a command that replaces the bits of `BB` or raises and leaves `BB` as it was (R140). -/
def State.finishWrite (r : Except Exc (List Bool)) (s : State) : State :=
  match r with
  | .ok bits => (s.withBuffer bits).succeed .none
  | .error e => s.raise e

/-- The state after BB.READ_UINT and BB.READ_BYTE, which differ in the widest access (R148, R152). -/
def runRead (f n : Int) (nmax : Nat) (s : State) : State :=
  s.conclude ((readField s.bb f n 1 nmax).map fun v => Res.uint (BitVec.ofNat 64 v))

/-- The state after BB.WRITE_UINT and BB.WRITE_BYTE, which differ in the widest access (R151, R153). -/
def runWrite (v : Word64) (f n : Int) (nmax : Nat) (s : State) : State :=
  s.finishWrite (writeField s.bb f n 1 nmax v.toNat)

/-- BB.ALLOC (R142): a zero buffer of N bits. -/
def execBbAlloc (n : Int) (s : State) : Host.Outcome State Fault Refusal :=
  .next
    (if n < 0 then s.raise ⟨.bitCount, 0, capacityInfo s.cfg⟩
     else if withinCapacity s.cfg n.toNat = false then s.raise ⟨.capacity, n.toNat, capacityInfo s.cfg⟩
     else (s.withBuffer (List.replicate n.toNat false)).succeed .none)

/-- BB.FROM_HEX (R143): the buffer of a hex text. -/
def execBbFromHex (s1 : Str) (s : State) : Host.Outcome State Fault Refusal :=
  .next
    (match firstNonHex 0 s1 with
     | some (k, c) => s.raise ⟨.hexChar, k, c⟩
     | none =>
       if withinCapacity s.cfg (4 * s1.length) = false then
         s.raise ⟨.capacity, 4 * s1.length, capacityInfo s.cfg⟩
       else (s.withBuffer (hexBits s1)).succeed .none)

/-- BB.TO_HEX (R146): the hex text of the buffer. -/
def execBbToHex (s : State) : Host.Outcome State Fault Refusal :=
  .next
    (if s.bb.valid = false then s.raise ⟨.noBuffer, 0, 0⟩
     else s.succeed (.str (hexText s.bb.bits)))

/-- BB.READ_UINT (R148): a field of 1 to 64 bits. -/
def execBbReadUint (f n : Int) (s : State) : Host.Outcome State Fault Refusal :=
  .next (runRead f n 64 s)

/-- BB.WRITE_UINT (R151): writes a field of 1 to 64 bits. -/
def execBbWriteUint (v : Word64) (f n : Int) (s : State) : Host.Outcome State Fault Refusal :=
  .next (runWrite v f n 64 s)

/-- BB.READ_BYTE (R152): a field of 1 to 8 bits. -/
def execBbReadByte (f n : Int) (s : State) : Host.Outcome State Fault Refusal :=
  .next (runRead f n 8 s)

/-- BB.WRITE_BYTE (R153): writes a field of 1 to 8 bits. -/
def execBbWriteByte (v : Word64) (f n : Int) (s : State) : Host.Outcome State Fault Refusal :=
  .next (runWrite v f n 8 s)

end Sys2Proof.Machine
end

