-- ==== Sys2Proof/Machine/Partition.lean ====
section
/-! DEFINITION. Partition: the meanings of family 2, the PartitionCodec commands (`41_partition.md`). The op code
selects the table: `PT_SGTIN` or `PT_SSCC`. -/

namespace Sys2Proof.Machine

/-- The state after PC.DECODE with a table (R182, R183). -/
def runPartDecode (table : List PartRow) (f : Int) (s : State) : State :=
  s.conclude ((partDecode s.bb f table).map fun r => Res.part r.1 r.2.1 r.2.2)

/-- The state after PC.ENCODE with a table (R187, R188). An exception of the operand checks leaves `BB` as it was; one
of the write phase invalidates it (R186). -/
def runPartEncode (table : List PartRow) (f : Int) (p : Nat) (s1 s2 : Str) (s : State) : State :=
  if s.bb.valid = false then s.raise ⟨.noBuffer, 0, 0⟩
  else
    match partEncodeCheck table p s1 s2 with
    | .error e => s.raise e
    | .ok (row, n1, n2) =>
      match partEncodeWrite s.bb f row p n1 n2 with
      | .error e => s.poison.raise e
      | .ok bits => (s.withBuffer bits).succeed .none

/-- PC.DECODE.SGTIN (R182). -/
def execPcDecodeSgtin (f : Int) (s : State) : Host.Outcome State Fault Refusal :=
  .next (runPartDecode ptSgtin f s)

/-- PC.DECODE.SSCC (R183). -/
def execPcDecodeSscc (f : Int) (s : State) : Host.Outcome State Fault Refusal :=
  .next (runPartDecode ptSscc f s)

/-- PC.ENCODE.SGTIN (R187). -/
def execPcEncodeSgtin (f : Int) (p : Nat) (s1 s2 : Str) (s : State) : Host.Outcome State Fault Refusal :=
  .next (runPartEncode ptSgtin f p s1 s2 s)

/-- PC.ENCODE.SSCC (R188). -/
def execPcEncodeSscc (f : Int) (p : Nat) (s1 s2 : Str) (s : State) : Host.Outcome State Fault Refusal :=
  .next (runPartEncode ptSscc f p s1 s2 s)

/-- PC.LEN2PART (R189): the partition of a company prefix, from its length alone. -/
def execPcLen2part (s1 : Str) (s : State) : Host.Outcome State Fault Refusal :=
  .next
    (match len2part s1.length with
     | none => s.raise ⟨.prefixLength, s1.length, 0⟩
     | some p => s.succeed (.uint (BitVec.ofNat 64 p)))

end Sys2Proof.Machine
end

