-- ==== Sys2Proof/Machine/TagCodec.lean ====
section
/-! DEFINITION. TagCodec: the shared procedures of the tag commands (`44_tagcodec.md` R260 to R266) and the predicate
WF (`10_state.md` R49). Decode and encode work in the scratch buffer `SB`. -/

namespace Sys2Proof.Machine

/-- The buffer `TagDecode` puts into `SB` (R261): the text has the scheme's length and only hex digits. -/
def tagLoad (sch : Scheme) (text : Str) : Except Exc BitBuffer :=
  if text.length ≠ (schemeDesc sch).hexLength then
    .error ⟨.length, text.length, (schemeDesc sch).hexLength⟩
  else
    match firstNonHex 0 text with
    | some (k, c) => .error ⟨.hexChar, k, c⟩
    | none => .ok { bits := hexBits text, valid := true }

/-- The rest of `TagDecode` on `SB` (R261), with the serial decode of the scheme (R270, R280, R290). -/
def tagRead (sch : Scheme) (sb : BitBuffer) : Except Exc TagValue :=
  if readBits sb.bits 0 8 ≠ (schemeDesc sch).binaryHeader.toNat then
    .error ⟨.header, readBits sb.bits 0 8, (schemeDesc sch).binaryHeader.toNat⟩
  else
    match partDecode sb 11 (schemeTable sch) with
    | .error e => .error e
    | .ok (p, cp, f2) =>
      match sch with
      | .sgtin96 => .ok (.sgtin96 (readBits sb.bits 8 3) p cp f2 (dec (readBits sb.bits 58 38)))
      | .sgtin198 =>
        match s7Decode sb 58 140 with
        | .error e => .error e
        | .ok serial => .ok (.sgtin198 (readBits sb.bits 8 3) p cp f2 serial)
      | .sscc96 => .ok (.sscc96 (readBits sb.bits 8 3) p cp f2)

/-- `TagDecode(S, text)` (R261) as a state change: `BB` is not touched, `SB` is used once the text is loaded. -/
def runTagDecode (sch : Scheme) (text : Str) (s : State) : State :=
  match tagLoad sch text with
  | .error e => s.raise e
  | .ok sb => s.useScratch.conclude ((tagRead sch sb).map Res.tag)

/-- The SGTIN-96 serial check (R266): the number of a canonical decimal below 2^38. -/
def serialCheck (serial : Str) : Except Exc Nat :=
  match parseDec serial with
  | none => .error ⟨.serial, 0, 0⟩
  | some n => if 2 ^ 38 ≤ n ∨ serial ≠ dec n then .error ⟨.serial, 0, 0⟩ else .ok n

/-- What the checks of `TagEncode` find out for its writes: the partition, its row and the numbers of the fields. -/
structure TagFields where
  partition : Nat
  row : PartRow
  n1 : Nat
  n2 : Nat
  serial : Nat
  deriving DecidableEq, Repr

/-- The checks of `TagEncode` (R262), in order; the stored partition is not read (D25). The serial number is that of
an SGTIN-96 value; the other schemes have no serial check. -/
def tagCheck (sch : Scheme) (t : TagValue) : Except Exc TagFields :=
  if 7 < tagFilter t then .error ⟨.filter, 0, 0⟩
  else
    match len2part (tagCompanyPrefix t).length with
    | none => .error ⟨.prefixLength, (tagCompanyPrefix t).length, 0⟩
    | some p =>
      match partEncodeCheck (schemeTable sch) p (tagCompanyPrefix t) (tagField2 t) with
      | .error e => .error e
      | .ok (row, n1, n2) =>
        match t with
        | .sgtin96 _ _ _ _ serial =>
          match serialCheck serial with
          | .error e => .error e
          | .ok n => .ok ⟨p, row, n1, n2, n⟩
        | .sgtin198 .. => .ok ⟨p, row, n1, n2, 0⟩
        | .sscc96 .. => .ok ⟨p, row, n1, n2, 0⟩

/-- The writes of `TagEncode` into a zero `SB` (R262), with the serial write of the scheme (R271, R281, R291). -/
def tagWrite (sch : Scheme) (t : TagValue) (x : TagFields) : Except Exc (List Bool) :=
  let zero := List.replicate (schemeDesc sch).totalBits.toNat false
  let header := writeBits zero 0 8 (schemeDesc sch).binaryHeader.toNat
  let filter := writeBits header 8 3 (tagFilter t)
  match partEncodeWrite { bits := filter, valid := true } 11 x.row x.partition x.n1 x.n2 with
  | .error e => .error e
  | .ok bits =>
    match t with
    | .sgtin96 .. => .ok (writeBits bits 58 38 x.serial)
    | .sgtin198 _ _ _ _ serial => writeSeptets bits 58 20 serial
    | .sscc96 .. => .ok bits

/-- `TagEncode(S, t)` (R262) as a state change: `BB` takes `SB` only on success, otherwise it keeps its contents. -/
def runTagEncode (sch : Scheme) (t : TagValue) (s : State) : State :=
  match tagCheck sch t with
  | .error e => s.raise e
  | .ok x =>
    match tagWrite sch t x with
    | .error e => s.useScratch.raise e
    | .ok bits => (s.useScratch.withBuffer bits).succeed .none

/-- `ToUri(S, t)` (R263). -/
def toUri (sch : Scheme) (t : TagValue) : UriValue :=
  { kind := .tag
    schemeToken := (schemeDesc sch).tagToken
    parts := [dec (tagFilter t), tagCompanyPrefix t, tagField2 t] ++ tagSerialParts t }

/-- `ToId(S, t)` (R265): without the filter, the partition and the bit width in the token. -/
def toId (sch : Scheme) (t : TagValue) : UriValue :=
  { kind := .id
    schemeToken := (schemeDesc sch).idToken
    parts := [tagCompanyPrefix t, tagField2 t] ++ tagSerialParts t }

/-- The digit of a filter part (R264): one character `0` to `7`. -/
def filterDigit : Str → Option Nat
  | [c] => if 48 ≤ c ∧ c ≤ 55 then some (c - 48) else none
  | _ => none

/-- The number of URI parts of a scheme (R264). -/
def uriPartCount : Scheme → Nat
  | .sgtin96 => 4
  | .sgtin198 => 4
  | .sscc96 => 3

/-- The last step of `FromUri` (R264): the value of the scheme, with the serial check of SGTIN-96 (R266). -/
def uriTag (sch : Scheme) (filter p : Nat) (cp f2 serial : Str) : Except Exc TagValue :=
  match sch with
  | .sgtin96 =>
    match serialCheck serial with
    | .error e => .error e
    | .ok _ => .ok (.sgtin96 filter p cp f2 serial)
  | .sgtin198 => .ok (.sgtin198 filter p cp f2 serial)
  | .sscc96 => .ok (.sscc96 filter p cp f2)

/-- The checks of `FromUri` on the parts (R264), after the kind, the token and the part count. -/
def uriFields (sch : Scheme) (f cp f2 serial : Str) : Except Exc TagValue :=
  match filterDigit f with
  | none => .error ⟨.filter, 0, 0⟩
  | some filter =>
    match len2part cp.length with
    | none => .error ⟨.prefixLength, cp.length, 0⟩
    | some p =>
      if cp.all isDigit = false then .error ⟨.notDecimal, 1, 0⟩
      else
        match (schemeTable sch)[p]? with
        | none => .error ⟨.partition, p, 0⟩
        | some row =>
          if f2.length ≠ row.digits2 then .error ⟨.field2Length, f2.length, row.digits2⟩
          else if f2.all isDigit = false then .error ⟨.notDecimal, 2, 0⟩
          else uriTag sch filter p cp f2 serial

/-- `FromUri(S, u)` (R264). -/
def fromUri (sch : Scheme) (u : UriValue) : Except Exc TagValue :=
  if u.kind ≠ .tag then .error ⟨.uriKind, 0, 1⟩
  else if u.schemeToken ≠ (schemeDesc sch).tagToken then .error ⟨.uriScheme, 0, 0⟩
  else if u.parts.length ≠ uriPartCount sch then .error ⟨.uriParts, u.parts.length, uriPartCount sch⟩
  else uriFields sch (u.parts.getD 0 []) (u.parts.getD 1 []) (u.parts.getD 2 []) (u.parts.getD 3 [])

/-- The serial clauses of WF (R49). -/
def serialWF : TagValue → Bool
  | .sgtin96 _ _ _ _ serial =>
    match parseDec serial with
    | some n => decide (n < 2 ^ 38) && serial == dec n
    | none => false
  | .sgtin198 _ _ _ _ serial =>
    decide (serial.length ≤ 20) && serial.all fun c => decide (1 ≤ c) && decide (c ≤ 127) && c != 0x25
  | .sscc96 .. => true

/-- `WF(t)` (R49): the domain of the round-trip laws. -/
def tagWF (t : TagValue) : Bool :=
  decide (tagFilter t ≤ 7) &&
  (len2part (tagCompanyPrefix t).length == some (tagPartition t)) &&
  (tagCompanyPrefix t).all isDigit &&
  (match (schemeTable t.scheme)[tagPartition t]? with
   | some row => (tagField2 t).length == row.digits2
   | none => false) &&
  (tagField2 t).all isDigit &&
  serialWF t

end Sys2Proof.Machine
end

