-- ==== Sys2Proof/Machine/Registry.lean ====
section
/-! DEFINITION. Registry: the meanings of family 4, the TagSchemeRegistry commands (`43_registry.md`). -/

namespace Sys2Proof.Machine

/-- REG.DISPATCH_BINARY (R242): the scheme of the first byte decodes the whole text. -/
def execRegDispatchBinary (s1 : Str) (s : State) : Host.Outcome State Fault Refusal :=
  .next
    (match s1 with
     | c0 :: c1 :: _ =>
       if isHex c0 = false then s.raise ⟨.hexChar, 0, c0⟩
       else if isHex c1 = false then s.raise ⟨.hexChar, 1, c1⟩
       else
         match headerLookup (16 * hexval c0 + hexval c1) with
         | none => s.raise ⟨.unknownHeader, 16 * hexval c0 + hexval c1, 0⟩
         | some sch => runTagDecode sch s1 s
     | _ => s.raise ⟨.shortText, s1.length, 2⟩)

/-- REG.DISPATCH_URI (R244): the scheme of the token reads the tag URI. -/
def execRegDispatchUri (u : UriValue) (s : State) : Host.Outcome State Fault Refusal :=
  .next
    (if u.kind ≠ .tag then s.raise ⟨.uriKind, 0, 1⟩
     else
       match tokenLookup u.schemeToken with
       | none => s.raise ⟨.unknownScheme, 0, 0⟩
       | some sch => s.conclude ((fromUri sch u).map Res.tag))

end Sys2Proof.Machine
end

