-- ==== Sys2Proof/Machine/SevenBit.lean ====
section
/-! DEFINITION. SevenBit: the meanings of family 3, the SevenBitStringCodec commands (`42_sevenbit.md`). -/

namespace Sys2Proof.Machine

/-- S7.DECODE (R213): the string of a septet field. -/
def execS7Decode (f n : Int) (s : State) : Host.Outcome State Fault Refusal :=
  .next (s.conclude ((s7Decode s.bb f n).map Res.str))

/-- S7.ENCODE (R217): writes a string into a septet field. An exception of the field check leaves `BB` as it was; one
of the write loop invalidates it (R216). -/
def execS7Encode (s1 : Str) (f n : Int) (s : State) : Host.Outcome State Fault Refusal :=
  .next
    (match checkSeptetField s.bb f n with
     | some e => s.raise e
     | none =>
       match writeSeptets s.bb.bits f.toNat (n.toNat / 7) s1 with
       | .error e => s.poison.raise e
       | .ok bits => (s.withBuffer bits).succeed .none)

end Sys2Proof.Machine
end

