-- ==== Sys2Proof/Machine/TagCommands.lean ====
section
/-! DEFINITION. TagCommands: the meanings of families 5, 6 and 7, the TagCodec commands of SGTIN-96, SGTIN-198 and
SSCC-96 (`44_tagcodec.md` R270 to R294). Every FMT_T command first checks its operand's type (R95). -/

namespace Sys2Proof.Machine

/-- SGTIN96.DECODE (R270). -/
def execSgtin96Decode (s1 : Str) (s : State) : Host.Outcome State Fault Refusal :=
  .next (runTagDecode .sgtin96 s1 s)

/-- SGTIN96.ENCODE (R271). -/
def execSgtin96Encode (t : TagValue) (s : State) : Host.Outcome State Fault Refusal :=
  .next (withTagOperand .sgtin96 0x51#8 t (runTagEncode .sgtin96 t) s)

/-- SGTIN96.TO_URI (R272). -/
def execSgtin96ToUri (t : TagValue) (s : State) : Host.Outcome State Fault Refusal :=
  .next (withTagOperand .sgtin96 0x52#8 t (State.succeed (.uri (toUri .sgtin96 t))) s)

/-- SGTIN96.FROM_URI (R273). -/
def execSgtin96FromUri (u : UriValue) (s : State) : Host.Outcome State Fault Refusal :=
  .next (s.conclude ((fromUri .sgtin96 u).map Res.tag))

/-- SGTIN96.TO_ID (R274). -/
def execSgtin96ToId (t : TagValue) (s : State) : Host.Outcome State Fault Refusal :=
  .next (withTagOperand .sgtin96 0x54#8 t (State.succeed (.uri (toId .sgtin96 t))) s)

/-- SGTIN198.DECODE (R280). -/
def execSgtin198Decode (s1 : Str) (s : State) : Host.Outcome State Fault Refusal :=
  .next (runTagDecode .sgtin198 s1 s)

/-- SGTIN198.ENCODE (R281). -/
def execSgtin198Encode (t : TagValue) (s : State) : Host.Outcome State Fault Refusal :=
  .next (withTagOperand .sgtin198 0x61#8 t (runTagEncode .sgtin198 t) s)

/-- SGTIN198.TO_URI (R282). -/
def execSgtin198ToUri (t : TagValue) (s : State) : Host.Outcome State Fault Refusal :=
  .next (withTagOperand .sgtin198 0x62#8 t (State.succeed (.uri (toUri .sgtin198 t))) s)

/-- SGTIN198.FROM_URI (R283). -/
def execSgtin198FromUri (u : UriValue) (s : State) : Host.Outcome State Fault Refusal :=
  .next (s.conclude ((fromUri .sgtin198 u).map Res.tag))

/-- SGTIN198.TO_ID (R284). -/
def execSgtin198ToId (t : TagValue) (s : State) : Host.Outcome State Fault Refusal :=
  .next (withTagOperand .sgtin198 0x64#8 t (State.succeed (.uri (toId .sgtin198 t))) s)

/-- SSCC96.DECODE (R290). -/
def execSscc96Decode (s1 : Str) (s : State) : Host.Outcome State Fault Refusal :=
  .next (runTagDecode .sscc96 s1 s)

/-- SSCC96.ENCODE (R291). -/
def execSscc96Encode (t : TagValue) (s : State) : Host.Outcome State Fault Refusal :=
  .next (withTagOperand .sscc96 0x71#8 t (runTagEncode .sscc96 t) s)

/-- SSCC96.TO_URI (R292). -/
def execSscc96ToUri (t : TagValue) (s : State) : Host.Outcome State Fault Refusal :=
  .next (withTagOperand .sscc96 0x72#8 t (State.succeed (.uri (toUri .sscc96 t))) s)

/-- SSCC96.FROM_URI (R293). -/
def execSscc96FromUri (u : UriValue) (s : State) : Host.Outcome State Fault Refusal :=
  .next (s.conclude ((fromUri .sscc96 u).map Res.tag))

/-- SSCC96.TO_ID (R294). -/
def execSscc96ToId (t : TagValue) (s : State) : Host.Outcome State Fault Refusal :=
  .next (withTagOperand .sscc96 0x74#8 t (State.succeed (.uri (toId .sscc96 t))) s)

end Sys2Proof.Machine
end

