-- ==== Sys2Proof/Machine/Dispatch.lean ====
section
/-! DEFINITION. Dispatch: the meaning of each instruction, one arm per constructor (`30_encoding.md` R93). -/

namespace Sys2Proof.Machine

def exec (i : Instr) (s : State) : Host.Outcome State Fault Refusal :=
  match i with
  | .bbAlloc n => Sys2Proof.Machine.execBbAlloc n s
  | .bbFromHex s1 => Sys2Proof.Machine.execBbFromHex s1 s
  | .bbToHex => Sys2Proof.Machine.execBbToHex s
  | .bbReadUint f n => Sys2Proof.Machine.execBbReadUint f n s
  | .bbWriteUint v f n => Sys2Proof.Machine.execBbWriteUint v f n s
  | .bbReadByte f n => Sys2Proof.Machine.execBbReadByte f n s
  | .bbWriteByte v f n => Sys2Proof.Machine.execBbWriteByte v f n s
  | .pcDecodeSgtin f => Sys2Proof.Machine.execPcDecodeSgtin f s
  | .pcDecodeSscc f => Sys2Proof.Machine.execPcDecodeSscc f s
  | .pcEncodeSgtin f p s1 s2 => Sys2Proof.Machine.execPcEncodeSgtin f p s1 s2 s
  | .pcEncodeSscc f p s1 s2 => Sys2Proof.Machine.execPcEncodeSscc f p s1 s2 s
  | .pcLen2part s1 => Sys2Proof.Machine.execPcLen2part s1 s
  | .s7Decode f n => Sys2Proof.Machine.execS7Decode f n s
  | .s7Encode s1 f n => Sys2Proof.Machine.execS7Encode s1 f n s
  | .regDispatchBinary s1 => Sys2Proof.Machine.execRegDispatchBinary s1 s
  | .regDispatchUri u => Sys2Proof.Machine.execRegDispatchUri u s
  | .sgtin96Decode s1 => Sys2Proof.Machine.execSgtin96Decode s1 s
  | .sgtin96Encode t => Sys2Proof.Machine.execSgtin96Encode t s
  | .sgtin96ToUri t => Sys2Proof.Machine.execSgtin96ToUri t s
  | .sgtin96FromUri u => Sys2Proof.Machine.execSgtin96FromUri u s
  | .sgtin96ToId t => Sys2Proof.Machine.execSgtin96ToId t s
  | .sgtin198Decode s1 => Sys2Proof.Machine.execSgtin198Decode s1 s
  | .sgtin198Encode t => Sys2Proof.Machine.execSgtin198Encode t s
  | .sgtin198ToUri t => Sys2Proof.Machine.execSgtin198ToUri t s
  | .sgtin198FromUri u => Sys2Proof.Machine.execSgtin198FromUri u s
  | .sgtin198ToId t => Sys2Proof.Machine.execSgtin198ToId t s
  | .sscc96Decode s1 => Sys2Proof.Machine.execSscc96Decode s1 s
  | .sscc96Encode t => Sys2Proof.Machine.execSscc96Encode t s
  | .sscc96ToUri t => Sys2Proof.Machine.execSscc96ToUri t s
  | .sscc96FromUri u => Sys2Proof.Machine.execSscc96FromUri u s
  | .sscc96ToId t => Sys2Proof.Machine.execSscc96ToId t s

end Sys2Proof.Machine
end

