-- ==== Sys2Proof/Machine/Step.lean ====
section
/-! DEFINITION. Step: one event of the host (`10_state.md` R30): a command, performed completely, a reset, or a read of
a register. With no event the engine is idle (R372). -/

namespace Sys2Proof.Machine

/-- The engine's answer to one event (R30, R94, R371, R50). -/
def stepEvent (ev : HostEvent) (s : State) : Host.Outcome State Fault Refusal :=
  match ev with
  | .command c =>
    match decode c with
    | .ok i => exec i s
    | .error e => .next (s.raise (decodeExc e))
  | .reset _ => .next s.assertReset
  | .read r => .next (s.portRead r)

/-- One step: the next event of the host; with none, the engine waits (R372). -/
def step (s : State) : Host.Outcome State Fault Refusal :=
  match fetch s with
  | none => .next s
  | some (ev, s') => stepEvent ev s'

/-- `s` with the command of the op byte `w` and operands of zeros as the host's next event. -/
def State.withFetchWord (s : State) (_nbits w : Nat) : State :=
  { s with input := .command (tableCmd w) :: s.input }

end Sys2Proof.Machine
end

