-- ==== Sys2Proof/Machine/Pseudo.lean ====
section
/-! DEFINITION. Pseudo: the assembler's shorthands (`30_encoding.md` R99). They expand to commands; the engine never
sees them, so they are no constructors of Instr. -/

namespace Sys2Proof.Machine

/-- The pseudo-instructions of R99. -/
inductive Pseudo where
  | bbZero (n : Int)
  | decodeAny (hex : Str)
  | encodeHexSgtin96 (t : TagValue)
  | encodeHexSgtin198 (t : TagValue)
  | encodeHexSscc96 (t : TagValue)
  deriving DecidableEq, Repr

/-- The commands a pseudo-instruction stands for (R99). -/
def expandPseudo : Pseudo → List Instr
  | .bbZero n => [.bbAlloc n]
  | .decodeAny hex => [.regDispatchBinary hex]
  | .encodeHexSgtin96 t => [.sgtin96Encode t, .bbToHex]
  | .encodeHexSgtin198 t => [.sgtin198Encode t, .bbToHex]
  | .encodeHexSscc96 t => [.sscc96Encode t, .bbToHex]

end Sys2Proof.Machine
end

