-- ==== Sys2Proof/Safety.lean ====
section
/-! DEFINITION. Safety: what a legal state is and what the host can observe, in the terms the statements use. -/

namespace Sys2Proof.Machine

/-- STATUS holds only values the engine writes (R36, R331): reserved fields 0, and either CLASS 0 with CAUSE 0 or the
codes of a cause of the table with ERR_SEEN 1. -/
def StatusLegal (w : Word32) : Prop :=
  (∃ seen, w = statusWord seen 0#8 0#3) ∨ (∃ c : Cause, w = statusWord true c.code c.cls.code)

/-- RES, ERRA and ERRB agree with STATUS.CLASS (R37, R38, R330): no error, no information; an error, no result. -/
def OutcomeConsistent (s : State) : Prop :=
  (statusClass s.status = 0#3 → s.erra = 0#64 ∧ s.errb = 0#64) ∧ (statusClass s.status ≠ 0#3 → s.res = .none)

/-- A PART result carries a partition 0 to 6 (R38). -/
def ResLegal : Res → Prop
  | .part p _ _ => p ≤ 6
  | _ => True

/-- The constraint on the parameter: `BB_MAX_BITS ≥ 208` (R9). -/
def CapacityLegal (cfg : Config) : Prop := withinCapacity cfg 208 = true

/-- A legal state: what holds after reset and after every step. -/
structure Inv (s : State) : Prop where
  status : StatusLegal s.status
  outcome : OutcomeConsistent s
  res : ResLegal s.res
  capacity : CapacityLegal s.cfg
  buffer : Memory.wf s.cfg s.bb = true

/-- Two states look the same to the engine's commands and to the host: every register, the parameter, what the host has
sent and received, and the contents of `BB` while it is valid. They may differ in what the spec calls unspecified: the
contents of an invalid `BB`, `SB`, and which free value comes next (R35, R45). -/
structure SameVisible (s t : State) : Prop where
  status : s.status = t.status
  erra : s.erra = t.erra
  errb : s.errb = t.errb
  res : s.res = t.res
  cfg : s.cfg = t.cfg
  input : s.input = t.input
  reads : s.reads = t.reads
  valid : s.bb.valid = t.bb.valid
  bits : s.bb.valid = true → s.bb.bits = t.bb.bits

/-! ## Words the statements use: how a command ends -/

/-- `t` is `u` but for `SB` and for which free value comes next: what a command that used the scratch buffer leaves
(R45). -/
def AgreesButScratch (t u : State) : Prop := { t with sb := u.sb, free := u.free } = u

/-- A failure in a write phase: `BB` is invalid, and everything but its contents is as after `raise` (R186, R216). -/
def PoisonedBy (e : Exc) (s t : State) : Prop :=
  t.bb.valid = false ∧ { t with bb := s.bb, free := s.free } = s.raise e

/-- `s` with a valid `BB` of these bits, after a command that succeeds and returns nothing. -/
def committed (bits : List Bool) (s : State) : State :=
  State.succeed .none { s with bb := { bits := bits, valid := true } }

/-! ## Words the statements use: fields and strings -/

/-- `uint(BB[a..a+n))` as the sum of R10: `Σ_i BB[a+i] · 2^(n−1−i)`. -/
def fieldValue (bits : List Bool) (a n : Nat) : Nat :=
  ((List.range n).map fun i => (bits.getD (a + i) false).toNat * 2 ^ (n - 1 - i)).sum

/-- Septet i of the field at position f is the 7 bits at f + 7i (R210). -/
def fieldSeptets (bits : List Bool) (f k : Nat) : List Nat :=
  (List.range k).map fun i => fieldValue bits (f + 7 * i) 7

/-- A run of septets reads as a string (R212): up to the end or the first zero septet, `%` and two hex digits giving
one character. -/
inductive Spells : List Nat → Str → Prop where
  | fieldEnd : Spells [] []
  | terminator (rest : List Nat) : Spells (0 :: rest) []
  | char (c : Nat) (rest : List Nat) (out : Str) : c ≠ 0 → c ≠ 0x25 → Spells rest out → Spells (c :: rest) (c :: out)
  | escape (h1 h2 : Nat) (rest : List Nat) (out : Str) : isHex h1 = true → isHex h2 = true → Spells rest out →
      Spells (0x25 :: h1 :: h2 :: rest) ((16 * hexval h1 + hexval h2) :: out)

/-- A run of septets, the first of them septet i of its field, has a bad escape at septet j (R212): `why` is 0 where
the field ends inside it, 1 where a hex digit is missing. -/
inductive BadEscapeAt : Nat → List Nat → Nat → Nat → Prop where
  | cutOff (i : Nat) (rest : List Nat) : rest.length < 2 → BadEscapeAt i (0x25 :: rest) i 0
  | notHex (i h1 h2 : Nat) (rest : List Nat) : ¬(isHex h1 = true ∧ isHex h2 = true) →
      BadEscapeAt i (0x25 :: h1 :: h2 :: rest) i 1
  | char (i c : Nat) (rest : List Nat) (j why : Nat) : c ≠ 0 → c ≠ 0x25 → BadEscapeAt (i + 1) rest j why →
      BadEscapeAt i (c :: rest) j why
  | escape (i h1 h2 : Nat) (rest : List Nat) (j why : Nat) : isHex h1 = true → isHex h2 = true →
      BadEscapeAt (i + 3) rest j why → BadEscapeAt i (0x25 :: h1 :: h2 :: rest) j why

/-- The characters the string encoder writes for an input (R214, R215): an input escape `%XX` gives one, every other
character itself. -/
inductive EncodesAs : Str → List Nat → Prop where
  | done : EncodesAs [] []
  | escape (h1 h2 : Nat) (rest : Str) (out : List Nat) : isHex h1 = true → isHex h2 = true → EncodesAs rest out →
      EncodesAs (0x25 :: h1 :: h2 :: rest) ((16 * hexval h1 + hexval h2) :: out)
  | char (c : Nat) (rest : Str) (out : List Nat) :
      (∀ h1 h2 rest', c = 0x25 → rest = h1 :: h2 :: rest' → ¬(isHex h1 = true ∧ isHex h2 = true)) →
      EncodesAs rest out → EncodesAs (c :: rest) (c :: out)

/-- A letter `a-f` in upper case, every other character as it is (R155). -/
def upperHex (c : Nat) : Nat := if 97 ≤ c ∧ c ≤ 102 then c - 32 else c

/-! ## Words the statements use: sets of commands -/

/-- The commands that may write `BB` (R52, R61). -/
def writesBuffer : Instr → Bool
  | .bbAlloc _ | .bbFromHex _ | .bbWriteUint _ _ _ | .bbWriteByte _ _ _ | .pcEncodeSgtin _ _ _ _
  | .pcEncodeSscc _ _ _ _ | .s7Encode _ _ _ | .sgtin96Encode _ | .sgtin198Encode _ | .sscc96Encode _ => true
  | _ => false

/-- The commands that write bits of the buffer there is, without replacing it (R52). -/
def writesBits : Instr → Bool
  | .bbWriteUint _ _ _ | .bbWriteByte _ _ _ | .pcEncodeSgtin _ _ _ _ | .pcEncodeSscc _ _ _ _ | .s7Encode _ _ _ => true
  | _ => false

/-- The commands that may invalidate `BB` (R52). -/
def mayPoison : Instr → Bool
  | .pcEncodeSgtin _ _ _ _ | .pcEncodeSscc _ _ _ _ | .s7Encode _ _ _ => true
  | _ => false

/-- The commands that need a valid `BB` (R374). -/
def needsBuffer : Instr → Bool
  | .bbToHex | .bbReadUint _ _ | .bbReadByte _ _ | .bbWriteUint _ _ _ | .bbWriteByte _ _ _ | .pcDecodeSgtin _
  | .pcDecodeSscc _ | .pcEncodeSgtin _ _ _ _ | .pcEncodeSscc _ _ _ _ | .s7Decode _ _ | .s7Encode _ _ _ => true
  | _ => false

/-- The commands that work in `SB` (R52). -/
def usesScratchBuffer : Instr → Bool
  | .regDispatchBinary _ | .sgtin96Decode _ | .sgtin198Decode _ | .sscc96Decode _ | .sgtin96Encode _
  | .sgtin198Encode _ | .sscc96Encode _ => true
  | _ => false

/-- `X.ENCODE t` for the scheme X of t. -/
def encodeInstr (t : TagValue) : Instr :=
  match t.scheme with
  | .sgtin96 => .sgtin96Encode t
  | .sgtin198 => .sgtin198Encode t
  | .sscc96 => .sscc96Encode t

/-- `X.DECODE h` for a scheme X. -/
def decodeInstr (sch : Scheme) (h : Str) : Instr :=
  match sch with
  | .sgtin96 => .sgtin96Decode h
  | .sgtin198 => .sgtin198Decode h
  | .sscc96 => .sscc96Decode h

/-- `X.TO_URI t` for the scheme X of t. -/
def toUriInstr (t : TagValue) : Instr :=
  match t.scheme with
  | .sgtin96 => .sgtin96ToUri t
  | .sgtin198 => .sgtin198ToUri t
  | .sscc96 => .sscc96ToUri t

/-- `X.FROM_URI u` for a scheme X. -/
def fromUriInstr (sch : Scheme) (u : UriValue) : Instr :=
  match sch with
  | .sgtin96 => .sgtin96FromUri u
  | .sgtin198 => .sgtin198FromUri u
  | .sscc96 => .sscc96FromUri u

end Sys2Proof.Machine
end

