-- ==== Sys2Proof/Certificates/Slice0/Obligations.lean ====
section
/-! DEFINITION. Obligations: the statements for the provers. `State.succeed` and `State.raise` in them are pinned field
by field by SuccessWritesTheRegisters and RaiseWritesTheErrorRegisters; `fieldValue` is the sum of R10. -/

open Sys2Proof Sys2Proof.Machine

/-! ## Encoding and stepping -/

/-- R90, R91, R93, R96, R97: decoding an encoded instruction gives it back, and a record decodes to exactly the
instruction whose encoding is the record with the fields its format does not name set to zero. -/
def Obligations.DecodeAndEncodeAgree : Prop :=
  (∀ i : Instr, decode (encode i) = .ok i) ∧
  (∀ (c : Cmd) (i : Instr), decode c = .ok i ↔ ∃ fmt, opFormat c.op = some fmt ∧ keepFields fmt c = encode i)

/-- R94: the op values of the rule's ranges, 225 of them, are exactly those that name no instruction, and such a command
raises IllegalCommand(UNASSIGNED_OP, op, 0) and changes no state other than STATUS, ERRA, ERRB and RES. -/
def Obligations.UnassignedOpsRaiseIllegalCommand : Prop :=
  let illegal : Nat → Prop := fun w => w ≤ 0x0F ∨ (0x17 ≤ w ∧ w ≤ 0x1F) ∨ (0x25 ≤ w ∧ w ≤ 0x2F) ∨
    (0x32 ≤ w ∧ w ≤ 0x3F) ∨ (0x42 ≤ w ∧ w ≤ 0x4F) ∨ (0x55 ≤ w ∧ w ≤ 0x5F) ∨ (0x65 ≤ w ∧ w ≤ 0x6F) ∨ 0x75 ≤ w
  (∀ c : Cmd, illegal c.op.toNat ↔ decode c = .error (.unassignedOp c.op)) ∧
  (∀ (c : Cmd) (s : State) (rest : List HostEvent), illegal c.op.toNat → s.input = .command c :: rest →
    step s = .next { s with input := rest, status := statusWord true 0x01#8 4#3, erra := BitVec.ofNat 64 c.op.toNat,
                            errb := 0#64, res := .none })

/-- R93: one command record of each family, its op byte and operand fields written out, decodes to its instruction. -/
def Obligations.WordsOfEveryFamilyDecode : Prop :=
  decode { zeroCmd with op := 0x14#8, V := 5#64, F := -2, N := 3 } = .ok (.bbWriteUint 5#64 (-2) 3) ∧
  decode { zeroCmd with op := 0x23#8, F := 11, P := 9, S1 := [49], S2 := [50] } = .ok (.pcEncodeSscc 11 9 [49] [50]) ∧
  decode { zeroCmd with op := 0x31#8, S1 := [65], F := 4, N := 7 } = .ok (.s7Encode [65] 4 7) ∧
  decode { zeroCmd with op := 0x40#8, S1 := [51, 48] } = .ok (.regDispatchBinary [51, 48]) ∧
  decode { zeroCmd with op := 0x51#8, T := .sgtin96 1 2 [3] [4] [5] } = .ok (.sgtin96Encode (.sgtin96 1 2 [3] [4] [5])) ∧
  decode { zeroCmd with op := 0x63#8, U := ⟨.tag, [1], [[2]]⟩ } = .ok (.sgtin198FromUri ⟨.tag, [1], [[2]]⟩) ∧
  decode { zeroCmd with op := 0x74#8, T := .sscc96 1 2 [3] [4] } = .ok (.sscc96ToId (.sscc96 1 2 [3] [4]))

/-- R30, R97, R372: when the host's next event is a command that decodes to an instruction, the step is that instruction
at the state without the event; with no event the engine waits. -/
def Obligations.StepRunsTheDecodedCommand : Prop :=
  (∀ (s : State) (c : Cmd) (rest : List HostEvent) (i : Instr), s.input = .command c :: rest → decode c = .ok i →
    step s = exec i { s with input := rest }) ∧
  (∀ s : State, s.input = [] → step s = .next s)

/-- From R330 and the bounded loops of the pseudocode (the law the spec derives as R342): no instruction and no step
faults, refuses or hangs, whatever the state and the operands. -/
def Obligations.EveryStepAnswersNext : Prop :=
  (∀ (i : Instr) (s : State), ∃ t, exec i s = .next t) ∧ (∀ s : State, ∃ t, step s = .next t)

/-! ## Status, error registers, result, reset, host port -/

/-- R330, R36, R332: raising an exception writes CLASS, CAUSE and ERR_SEEN, leaves the reserved bits 0, records both
information values with `rec`, sets RES to NONE, and changes nothing else. -/
def Obligations.RaiseWritesTheErrorRegisters : Prop :=
  ∀ (e : Exc) (s : State),
    statusClass (s.raise e).status = e.cause.cls.code ∧ statusCause (s.raise e).status = e.cause.code ∧
    statusErrSeen (s.raise e).status = true ∧
    (s.raise e).status.extractLsb' 3 5 = 0#5 ∧ (s.raise e).status.extractLsb' 16 15 = 0#15 ∧
    ((s.raise e).erra.toNat = if e.a < 2 ^ 64 then e.a else 2 ^ 64 - 1) ∧
    ((s.raise e).errb.toNat = if e.b < 2 ^ 64 then e.b else 2 ^ 64 - 1) ∧
    (s.raise e).res = .none ∧
    { s.raise e with status := s.status, erra := s.erra, errb := s.errb, res := s.res } = s

/-- R36, R37: a success writes CLASS 0 and CAUSE 0, keeps ERR_SEEN, leaves the reserved bits 0, zeroes ERRA and ERRB,
writes RES, and changes nothing else. -/
def Obligations.SuccessWritesTheRegisters : Prop :=
  ∀ (r : Res) (s : State),
    statusClass (s.succeed r).status = 0#3 ∧ statusCause (s.succeed r).status = 0#8 ∧
    statusErrSeen (s.succeed r).status = statusErrSeen s.status ∧
    (s.succeed r).status.extractLsb' 3 5 = 0#5 ∧ (s.succeed r).status.extractLsb' 16 15 = 0#15 ∧
    (s.succeed r).erra = 0#64 ∧ (s.succeed r).errb = 0#64 ∧ (s.succeed r).res = r ∧
    { s.succeed r with status := s.status, erra := s.erra, errb := s.errb, res := s.res } = s

/-- R331, R36: the class, the CLASS code and the CAUSE code of each of the table's 26 rows, and what an exception of that
cause writes to STATUS.CLASS and STATUS.CAUSE; there is no other cause; CLASS and CAUSE together name the cause; no CLASS
is 0 or above 4 and no CAUSE is 0. (The table's column of the commands that raise a cause is not stated here.) -/
def Obligations.CauseCodesNameTheCause : Prop :=
  let rows : List (Cause × ErrClass × BitVec 3 × Byte) :=
    [(.hexChar, .formatError, 1#3, 0x01#8), (.length, .formatError, 1#3, 0x02#8), (.header, .formatError, 1#3, 0x03#8),
     (.unknownHeader, .formatError, 1#3, 0x04#8), (.partition, .formatError, 1#3, 0x05#8),
     (.fieldTooWide, .formatError, 1#3, 0x06#8), (.notDecimal, .formatError, 1#3, 0x07#8),
     (.badEscape, .formatError, 1#3, 0x08#8), (.uriKind, .formatError, 1#3, 0x09#8),
     (.uriScheme, .formatError, 1#3, 0x0A#8), (.uriParts, .formatError, 1#3, 0x0B#8),
     (.prefixLength, .formatError, 1#3, 0x0C#8), (.filter, .formatError, 1#3, 0x0D#8),
     (.serial, .formatError, 1#3, 0x0E#8), (.shortText, .formatError, 1#3, 0x0F#8),
     (.field2Length, .formatError, 1#3, 0x10#8), (.noBuffer, .rangeError, 2#3, 0x01#8),
     (.bitCount, .rangeError, 2#3, 0x02#8), (.negOffset, .rangeError, 2#3, 0x03#8),
     (.outOfBounds, .rangeError, 2#3, 0x04#8), (.valueOverflow, .rangeError, 2#3, 0x05#8),
     (.capacity, .rangeError, 2#3, 0x06#8), (.notMultipleOf7, .rangeError, 2#3, 0x07#8),
     (.unknownScheme, .notSupportedError, 3#3, 0x01#8), (.unassignedOp, .illegalCommand, 4#3, 0x01#8),
     (.operandType, .illegalCommand, 4#3, 0x02#8)]
  rows.length = 26 ∧ (∀ c : Cause, ∃ x ∈ rows, x.1 = c) ∧
  (∀ x ∈ rows, x.1.cls = x.2.1 ∧ x.1.cls.code = x.2.2.1 ∧ x.1.code = x.2.2.2 ∧
    ∀ (a b : Nat) (s : State), statusClass (s.raise ⟨x.1, a, b⟩).status = x.2.2.1 ∧
      statusCause (s.raise ⟨x.1, a, b⟩).status = x.2.2.2) ∧
  (∀ c d : Cause, c.cls.code = d.cls.code → c.code = d.code → c = d) ∧
  (∀ c : Cause, 1 ≤ c.cls.code.toNat ∧ c.cls.code.toNat ≤ 4 ∧ c.code ≠ 0#8)

/-- From R36, R37, R38, R330 and R39 (the laws the spec derives as R377 and R335): every command rewrites the outcome.
It succeeds (CLASS, CAUSE, ERRA and ERRB 0, ERR_SEEN as before) or it fails (CLASS and CAUSE of one cause, ERR_SEEN 1,
RES NONE); and CLASS, CAUSE, ERRA, ERRB and RES after it follow from the command, `BB` and the parameter alone, so
nothing of what these registers, or any other state, held before is left in them. (A command of an unassigned op:
UnassignedOpsRaiseIllegalCommand.) -/
def Obligations.EveryCommandRewritesTheOutcome : Prop :=
  (∀ (i : Instr) (s t : State), exec i s = .next t →
    (t.status = statusWord (statusErrSeen s.status) 0#8 0#3 ∧ t.erra = 0#64 ∧ t.errb = 0#64) ∨
    (∃ c : Cause, t.status = statusWord true c.code c.cls.code ∧ t.res = .none)) ∧
  (∀ (i : Instr) (s s' t t' : State), s.bb = s'.bb → s.cfg = s'.cfg → exec i s = .next t → exec i s' = .next t' →
    statusClass t.status = statusClass t'.status ∧ statusCause t.status = statusCause t'.status ∧
    t.erra = t'.erra ∧ t.errb = t'.errb ∧ t.res = t'.res)

/-- R36, R340, R370: once ERR_SEEN is 1, only the reset input clears it. -/
def Obligations.OnlyResetClearsErrSeen : Prop :=
  ∀ s t : State, step s = .next t → statusErrSeen s.status = true → statusErrSeen t.status = false →
    ∃ cut rest, s.input = .reset cut :: rest

/-- R370, R371, R51: the machine starts in the reset state, and the reset input gives it, with or without a command in
progress; that the parameter and the host's side stay is the model's choice (log entry 9). (What BB and SB then hold is
unspecified and not stated.) -/
def Obligations.ResetInputGivesTheResetState : Prop :=
  (State.reset.bb.valid = false ∧ State.reset.status = 0#32 ∧ State.reset.erra = 0#64 ∧ State.reset.errb = 0#64 ∧
    State.reset.res = .none) ∧
  ∀ (s : State) (cut : Option Cmd) (rest : List HostEvent), s.input = .reset cut :: rest →
    step s = step { s with input := .reset none :: rest } ∧
    ∃ t, step s = .next t ∧ t.bb.valid = false ∧ t.status = 0#32 ∧ t.erra = 0#64 ∧ t.errb = 0#64 ∧ t.res = .none ∧
      t.cfg = s.cfg ∧ t.input = rest ∧ t.reads = s.reads

/-- R50: a read of a register by its number gives the register's value and changes no register; register 4 gives
`BB.len` while `BB.valid = 1`, and an unspecified value otherwise (the free value of the model, log entry 4). -/
def Obligations.HostReadsTheRegisters : Prop :=
  ∀ (s : State) (r : PortReg) (rest : List HostEvent), s.input = .read r :: rest →
    ∃ v, step s = .next { s with input := rest, reads := s.reads ++ [v], free := s.free + 1 } ∧
      (r.number = 0 → v = .word32 s.status) ∧ (r.number = 1 → v = .word64 s.erra) ∧
      (r.number = 2 → v = .word64 s.errb) ∧ (r.number = 3 → v = .result s.res) ∧
      (r.number = 4 → s.bb.valid = true → v = .len s.bb.len) ∧
      (r.number = 4 → s.bb.valid = false → v = .len (Config.freeLen s.free)) ∧ (r.number = 5 → v = .bit s.bb.valid)

/-! ## The whole machine -/

/-- Every step from a legal state gives a legal state: STATUS holds only codes of the table with its reserved bits 0
(R36, R331), ERRA, ERRB and RES agree with it (R37, R330), a PART result has partition 0 to 6 (R38), and a valid
buffer is no longer than `BB_MAX_BITS`, itself at least 208 (R34, R9). -/
def Obligations.EveryStepKeepsTheInvariant : Prop :=
  ∀ s t : State, Inv s → step s = .next t → Inv t

/-- R51, R9: the reset state is legal. -/
def Obligations.ResetStateMeetsTheInvariant : Prop := Inv State.reset

/-- From R35 and R45 (the law the spec derives as R375): what the spec leaves unspecified (the contents of an invalid
`BB`, `SB`, the free values) never shows: two states that look the same answer every command with states that look the
same. -/
def Obligations.UnspecifiedContentsNeverShow : Prop :=
  ∀ (i : Instr) (s t : State), SameVisible s t →
    ∃ s' t', exec i s = .next s' ∧ exec i t = .next t' ∧ SameVisible s' t'

/-- R52, R61, R34: no command changes the parameter or the host's side; only the commands R52 lists write `BB`, and every
position of `BB` is as before after every other command; a valid `BB` stays valid, unless PC.ENCODE or S7.ENCODE fails;
one that writes bits keeps the length of a buffer that stays valid, and makes none valid; only those that R52 lists
change `SB` (that R45's unspecified `SB` stays through the others is the model's choice, log entry 10). -/
def Obligations.CommandsWriteOnlyTheirState : Prop :=
  ∀ (i : Instr) (s t : State), exec i s = .next t →
    t.cfg = s.cfg ∧ t.input = s.input ∧ t.reads = s.reads ∧
    (writesBuffer i = false → t.bb = s.bb ∧ ∀ a : Nat, t.bb.bits[a]? = s.bb.bits[a]?) ∧
    (s.bb.valid = true → t.bb.valid = true ∨ (mayPoison i = true ∧ statusClass t.status ≠ 0#3)) ∧
    (usesScratchBuffer i = false → t.sb = s.sb) ∧
    (writesBits i = true → t.bb.valid = true → s.bb.valid = true ∧ t.bb.len = s.bb.len)

/-- From R330, R186 and R216 (the law the spec derives as R334): a command that fails leaves `BB` exactly as it was,
but for PC.ENCODE and S7.ENCODE, which may make a valid buffer invalid. -/
def Obligations.ExceptionsKeepTheBuffer : Prop :=
  ∀ (i : Instr) (s t : State), exec i s = .next t → statusClass t.status ≠ 0#3 →
    t.bb = s.bb ∨ (mayPoison i = true ∧ s.bb.valid = true ∧ t.bb.valid = false)

/-- From R35, R141, R146, R184 and R211 (the law the spec derives as R374): while `BB.valid = 0` the commands that read
or write `BB` raise RangeError(NO_BUFFER) and change nothing else, and no other command ever raises it. -/
def Obligations.NoBufferUntilOneIsCreated : Prop :=
  ∀ (i : Instr) (s : State),
    (needsBuffer i = true → s.bb.valid = false → exec i s = .next (s.raise ⟨.noBuffer, 0, 0⟩)) ∧
    (∀ t, exec i s = .next t → needsBuffer i = false ∨ s.bb.valid = true →
      ¬(statusClass t.status = 2#3 ∧ statusCause t.status = 0x01#8))

/-! ## Family 1: BitBuffer -/

/-- R142: BB.ALLOC, whole: its op value, its two exceptions, and the zero buffer of N bits. -/
def Obligations.AllocMakesAZeroBuffer : Prop :=
  (∀ c : Cmd, c.op = 0x10#8 → decode c = .ok (.bbAlloc c.N)) ∧
  (∀ (n : Int) (s : State), n < 0 →
    exec (.bbAlloc n) s = .next (s.raise ⟨.bitCount, 0, s.cfg.bbMaxBits.getD (2 ^ 64)⟩)) ∧
  (∀ (n m : Nat) (s : State), s.cfg.bbMaxBits = some m → m < n →
    exec (.bbAlloc n) s = .next (s.raise ⟨.capacity, n, m⟩)) ∧
  (∀ (n : Nat) (s : State), (∀ m, s.cfg.bbMaxBits = some m → n ≤ m) →
    ∃ bits, exec (.bbAlloc n) s = .next (committed bits s) ∧ bits.length = n ∧ ∀ i, i < n → bits[i]? = some false)

/-- R143: BB.FROM_HEX, whole: its op value, the first character that is no hex digit, the capacity, and the buffer with
position 4k + j holding bit 3 − j of character k. -/
def Obligations.FromHexMakesTheBufferOfTheText : Prop :=
  (∀ c : Cmd, c.op = 0x11#8 → decode c = .ok (.bbFromHex c.S1)) ∧
  (∀ (good bad : Str) (c : Nat) (s : State), (∀ d ∈ good, isHex d = true) → isHex c = false →
    exec (.bbFromHex (good ++ c :: bad)) s = .next (s.raise ⟨.hexChar, good.length, c⟩)) ∧
  (∀ (text : Str) (m : Nat) (s : State), (∀ d ∈ text, isHex d = true) → s.cfg.bbMaxBits = some m →
    m < 4 * text.length → exec (.bbFromHex text) s = .next (s.raise ⟨.capacity, 4 * text.length, m⟩)) ∧
  (∀ (text : Str) (s : State), (∀ d ∈ text, isHex d = true) → (∀ m, s.cfg.bbMaxBits = some m → 4 * text.length ≤ m) →
    ∃ bits, exec (.bbFromHex text) s = .next (committed bits s) ∧ bits.length = 4 * text.length ∧
      ∀ k j c, text[k]? = some c → j < 4 → bits[4 * k + j]? = some ((hexval c).testBit (3 - j)))

/-- R146: BB.TO_HEX, whole: its op value, NO_BUFFER, and four bits a character, the bits beyond the buffer's length as
0, up to the next multiple of 16 bits: 4·ceil(len / 16) characters in all (which the spec derives as R147). -/
def Obligations.ToHexRendersTheBuffer : Prop :=
  (∀ c : Cmd, c.op = 0x12#8 → decode c = .ok .bbToHex) ∧
  (∀ s : State, s.bb.valid = false → exec .bbToHex s = .next (s.raise ⟨.noBuffer, 0, 0⟩)) ∧
  ∀ s : State, s.bb.valid = true → ∃ h, exec .bbToHex s = .next (s.succeed (.str h)) ∧
    h.length = 4 * ((s.bb.len + 15) / 16) ∧
    ∀ k, k < h.length → h[k]? = some (hexchar (8 * (s.bb.bits.getD (4 * k) false).toNat +
      4 * (s.bb.bits.getD (4 * k + 1) false).toNat + 2 * (s.bb.bits.getD (4 * k + 2) false).toNat +
      (s.bb.bits.getD (4 * k + 3) false).toNat))

/-- R148, R152, R62: BB.READ_UINT (to 64 bits) and BB.READ_BYTE (to 8 bits) give the field's value, below 2^N
(which the spec derives as R149), and change no buffer. -/
def Obligations.ReadsGiveTheFieldValue : Prop :=
  ∀ (f n : Nat) (s : State), s.bb.valid = true → 1 ≤ n → f + n ≤ s.bb.len →
    fieldValue s.bb.bits f n < 2 ^ n ∧
    (n ≤ 64 → exec (.bbReadUint f n) s = .next (s.succeed (.uint (BitVec.ofNat 64 (fieldValue s.bb.bits f n))))) ∧
    (n ≤ 8 → exec (.bbReadByte f n) s = .next (s.succeed (.uint (BitVec.ofNat 64 (fieldValue s.bb.bits f n)))))

/-- R141, R140: the access checks of the four field commands, in their order, each leaving `BB` as it was. -/
def Obligations.FieldAccessChecksInOrder : Prop :=
  ∀ (v : Word64) (f n : Int) (s : State), ∀ x ∈ ([(.bbReadUint f n, 64), (.bbWriteUint v f n, 64),
      (.bbReadByte f n, 8), (.bbWriteByte v f n, 8)] : List (Instr × Nat)),
    if s.bb.valid = false then exec x.1 s = .next (s.raise ⟨.noBuffer, 0, 0⟩)
    else if n < 1 ∨ (x.2 : Int) < n then exec x.1 s = .next (s.raise ⟨.bitCount, 1, x.2⟩)
    else if f < 0 then exec x.1 s = .next (s.raise ⟨.negOffset, 0, 0⟩)
    else (s.bb.len : Int) < f + n → exec x.1 s = .next (s.raise ⟨.outOfBounds, (f + n).toNat, s.bb.len⟩)

/-- R150, R151, R153, R69: BB.WRITE_UINT and BB.WRITE_BYTE put bit N−1−i of V at position F+i and change no other
position; a value of 2^N or more raises VALUE_OVERFLOW and writes nothing. -/
def Obligations.WritesSetTheFieldAndNothingElse : Prop :=
  ∀ (v : Word64) (f n : Nat) (s : State), s.bb.valid = true → 1 ≤ n → f + n ≤ s.bb.len →
    ∀ i : Instr, (i = .bbWriteUint v f n ∧ n ≤ 64) ∨ (i = .bbWriteByte v f n ∧ n ≤ 8) →
      (2 ^ n ≤ v.toNat → exec i s = .next (s.raise ⟨.valueOverflow, v.toNat, n⟩)) ∧
      (v.toNat < 2 ^ n → ∃ bits, exec i s = .next (committed bits s) ∧ bits.length = s.bb.len ∧
        (∀ k, k < n → bits[f + k]? = some (v.toNat.testBit (n - 1 - k))) ∧
        ∀ a, a < f ∨ f + n ≤ a → bits[a]? = s.bb.bits[a]?)

/-- From R148, R150 and R151 (the law the spec derives as R154): after a successful write, reading the field gives the
value, and a field disjoint from it reads as before. -/
def Obligations.WriteThenReadGivesTheValue : Prop :=
  ∀ (v : Word64) (f n : Int) (s t : State), ∀ w ∈ [Instr.bbWriteUint v f n, .bbWriteByte v f n],
    exec w s = .next t → statusClass t.status = 0#3 →
      exec (.bbReadUint f n) t = .next (t.succeed (.uint v)) ∧
      ∀ (g m : Int) (r : Res), g + m ≤ f ∨ f + n ≤ g →
        (exec (.bbReadUint g m) s = .next (s.succeed r) → exec (.bbReadUint g m) t = .next (t.succeed r)) ∧
        (exec (.bbReadByte g m) s = .next (s.succeed r) → exec (.bbReadByte g m) t = .next (t.succeed r))

/-- From R143 and R146 (the laws the spec derives as R155): FROM_HEX then TO_HEX gives the text back in upper case,
for a length that is a multiple of 4; TO_HEX then FROM_HEX gives the buffer back with zeros up to a multiple of 16
bits. (Where `BB_MAX_BITS` is finite, the longer buffer must be within it: R143.) -/
def Obligations.HexTextRoundTrips : Prop :=
  (∀ (text : Str) (s : State), (∀ c ∈ text, isHex c = true) → text.length % 4 = 0 →
    (∀ m, s.cfg.bbMaxBits = some m → 4 * text.length ≤ m) →
    ∃ t, exec (.bbFromHex text) s = .next t ∧ exec .bbToHex t = .next (t.succeed (.str (text.map upperHex)))) ∧
  (∀ s : State, s.bb.valid = true → (∀ m, s.cfg.bbMaxBits = some m → 16 * ((s.bb.len + 15) / 16) ≤ m) →
    ∃ h t, exec .bbToHex s = .next (s.succeed (.str h)) ∧ exec (.bbFromHex h) (s.succeed (.str h)) = .next t ∧
      t.bb.valid = true ∧ t.bb.len = 16 * ((s.bb.len + 15) / 16) ∧ (∀ a, a < s.bb.len → t.bb.bits[a]? = s.bb.bits[a]?) ∧
      ∀ a, s.bb.len ≤ a → a < t.bb.len → t.bb.bits[a]? = some false)

/-! ## Family 2: PartitionCodec -/

/-- From R41, R42, R43 and R40 (the invariants the spec derives as R44): the ROM's tables: seven rows each; the widths
add up to 44 and 58; bits1 + bits2 + 3 is within the scheme; every field of `digits` decimal digits fits its bits; a
company prefix of digits1 characters has partition p. -/
def Obligations.PartitionTablesFitTheirSchemes : Prop :=
  ptSgtin.length = 7 ∧ ptSscc.length = 7 ∧ (∀ r ∈ ptSgtin, r.bits1 + r.bits2 = 44) ∧ (∀ r ∈ ptSscc, r.bits1 + r.bits2 = 58) ∧
  (∀ sch ∈ [Scheme.sgtin96, .sgtin198, .sscc96], ∀ r ∈ schemeTable sch,
    r.bits1 + r.bits2 + 3 ≤ (schemeDesc sch).totalBits.toNat - 8 - 3) ∧
  (∀ r ∈ ptSgtin ++ ptSscc, 10 ^ r.digits1 - 1 < 2 ^ r.bits1 ∧ 10 ^ r.digits2 - 1 < 2 ^ r.bits2) ∧
  (∀ sch ∈ [Scheme.sgtin96, .sgtin198, .sscc96], ∀ p ∈ List.range 7,
    ((schemeTable sch)[p]?.bind fun r => len2part r.digits1) = some p)

/-- R181, R182, R183: PC.DECODE gives the selector and the two fields after it as padded decimal strings. -/
def Obligations.PartitionDecodeReadsTheFields : Prop :=
  ∀ (f : Nat) (s : State), ∀ x ∈ [(Instr.pcDecodeSgtin f, ptSgtin), (.pcDecodeSscc f, ptSscc)], ∀ row : PartRow,
    s.bb.valid = true → x.2[fieldValue s.bb.bits f 3]? = some row → f + 3 + row.bits1 + row.bits2 ≤ s.bb.len →
      exec x.1 s = .next (s.succeed (.part (fieldValue s.bb.bits f 3)
        (pad (dec (fieldValue s.bb.bits (f + 3) row.bits1)) row.digits1)
        (pad (dec (fieldValue s.bb.bits (f + 3 + row.bits1) row.bits2)) row.digits2)))

/-- R181, R182, R183: where PC.DECODE raises, in the order of its checks; `BB` is as before. -/
def Obligations.PartitionDecodeChecksInOrder : Prop :=
  ∀ (f : Int) (s : State), ∀ x ∈ [(Instr.pcDecodeSgtin f, ptSgtin), (.pcDecodeSscc f, ptSscc)],
    if s.bb.valid = false then exec x.1 s = .next (s.raise ⟨.noBuffer, 0, 0⟩)
    else if f < 0 then exec x.1 s = .next (s.raise ⟨.negOffset, 0, 0⟩)
    else if (s.bb.len : Int) < f + 3 then exec x.1 s = .next (s.raise ⟨.outOfBounds, (f + 3).toNat, s.bb.len⟩)
    else if fieldValue s.bb.bits f.toNat 3 = 7 then exec x.1 s = .next (s.raise ⟨.partition, 7, 0⟩)
    else ∀ row, x.2[fieldValue s.bb.bits f.toNat 3]? = some row →
      if s.bb.len < f.toNat + 3 + row.bits1 then
        exec x.1 s = .next (s.raise ⟨.outOfBounds, f.toNat + 3 + row.bits1, s.bb.len⟩)
      else s.bb.len < f.toNat + 3 + row.bits1 + row.bits2 →
        exec x.1 s = .next (s.raise ⟨.outOfBounds, f.toNat + 3 + row.bits1 + row.bits2, s.bb.len⟩)

/-- R185, R187, R188: PC.ENCODE writes the partition, then the two numbers, contiguous, and changes no other position.
-/
def Obligations.PartitionEncodeWritesTheFields : Prop :=
  ∀ (f p n1 n2 : Nat) (s1 s2 : Str) (row : PartRow) (s : State),
    ∀ x ∈ [(Instr.pcEncodeSgtin f p s1 s2, ptSgtin), (.pcEncodeSscc f p s1 s2, ptSscc)],
      s.bb.valid = true → x.2[p]? = some row → (stripZ s1).length ≤ row.digits1 → (stripZ s2).length ≤ row.digits2 →
      parseDec s1 = some n1 → parseDec s2 = some n2 → f + 3 + row.bits1 + row.bits2 ≤ s.bb.len →
      ∃ bits, exec x.1 s = .next (committed bits s) ∧ bits.length = s.bb.len ∧ fieldValue bits f 3 = p ∧
        fieldValue bits (f + 3) row.bits1 = n1 ∧ fieldValue bits (f + 3 + row.bits1) row.bits2 = n2 ∧
        ∀ a, a < f ∨ f + 3 + row.bits1 + row.bits2 ≤ a → bits[a]? = s.bb.bits[a]?

/-- R184, R186: where PC.ENCODE raises, in the order of its checks: an operand check leaves `BB` as it was, a range
check of the write phase invalidates it. -/
def Obligations.PartitionEncodeChecksInOrder : Prop :=
  ∀ (f : Int) (p : Nat) (s1 s2 : Str) (s : State),
    ∀ x ∈ [(Instr.pcEncodeSgtin f p s1 s2, ptSgtin), (.pcEncodeSscc f p s1 s2, ptSscc)],
      if s.bb.valid = false then exec x.1 s = .next (s.raise ⟨.noBuffer, 0, 0⟩)
      else if 7 ≤ p then exec x.1 s = .next (s.raise ⟨.partition, p, 0⟩)
      else ∀ row, x.2[p]? = some row →
        if row.digits1 < (stripZ s1).length then
          exec x.1 s = .next (s.raise ⟨.fieldTooWide, 1, (stripZ s1).length⟩)
        else if row.digits2 < (stripZ s2).length then
          exec x.1 s = .next (s.raise ⟨.fieldTooWide, 2, (stripZ s2).length⟩)
        else if parseDec s1 = none then exec x.1 s = .next (s.raise ⟨.notDecimal, 1, 0⟩)
        else if parseDec s2 = none then exec x.1 s = .next (s.raise ⟨.notDecimal, 2, 0⟩)
        else if f < 0 then ∃ t, exec x.1 s = .next t ∧ PoisonedBy ⟨.negOffset, 0, 0⟩ s t
        else if s.bb.len < f.toNat + 3 then
          ∃ t, exec x.1 s = .next t ∧ PoisonedBy ⟨.outOfBounds, f.toNat + 3, s.bb.len⟩ s t
        else if s.bb.len < f.toNat + 3 + row.bits1 then
          ∃ t, exec x.1 s = .next t ∧ PoisonedBy ⟨.outOfBounds, f.toNat + 3 + row.bits1, s.bb.len⟩ s t
        else s.bb.len < f.toNat + 3 + row.bits1 + row.bits2 →
          ∃ t, exec x.1 s = .next t ∧ PoisonedBy ⟨.outOfBounds, f.toNat + 3 + row.bits1 + row.bits2, s.bb.len⟩ s t

/-- R189, R43: PC.LEN2PART, whole: its op value, the partition of lengths 6 to 12, and PREFIX_LENGTH for every other
length. -/
def Obligations.Len2PartLooksUpTheLength : Prop :=
  (∀ c : Cmd, c.op = 0x24#8 → decode c = .ok (.pcLen2part c.S1)) ∧
  (∀ (s1 : Str) (s : State), 6 ≤ s1.length → s1.length ≤ 12 →
    exec (.pcLen2part s1) s = .next (s.succeed (.uint (BitVec.ofNat 64 (12 - s1.length))))) ∧
  (∀ (s1 : Str) (s : State), s1.length < 6 ∨ 12 < s1.length →
    exec (.pcLen2part s1) s = .next (s.raise ⟨.prefixLength, s1.length, 0⟩))

/-- From R181 (the law the spec derives as R190): every string PC.DECODE returns has at least `digits` characters,
exactly `digits` when its field is below 10^digits, and parses to the field's value. -/
def Obligations.DecodedStringsArePadded : Prop :=
  ∀ (f : Int) (p : Nat) (a b : Str) (s t : State), ∀ x ∈ [(Instr.pcDecodeSgtin f, ptSgtin), (.pcDecodeSscc f, ptSscc)],
    exec x.1 s = .next t → t.res = .part p a b → ∃ row, x.2[p]? = some row ∧
      row.digits1 ≤ a.length ∧ row.digits2 ≤ b.length ∧
      parseDec a = some (fieldValue s.bb.bits (f.toNat + 3) row.bits1) ∧
      parseDec b = some (fieldValue s.bb.bits (f.toNat + 3 + row.bits1) row.bits2) ∧
      (fieldValue s.bb.bits (f.toNat + 3) row.bits1 < 10 ^ row.digits1 → a.length = row.digits1) ∧
      (fieldValue s.bb.bits (f.toNat + 3 + row.bits1) row.bits2 < 10 ^ row.digits2 → b.length = row.digits2)

/-- From R181, R184 and R185 (the law the spec derives as R191): after a successful PC.ENCODE, PC.DECODE at the same
position gives the partition and the padded renderings of the two numbers, which are the operands themselves exactly
when these have the table's lengths and are all digits. -/
def Obligations.PartitionEncodeThenDecode : Prop :=
  ∀ (f : Int) (p : Nat) (s1 s2 : Str) (s t : State),
    ∀ x ∈ [(Instr.pcEncodeSgtin f p s1 s2, Instr.pcDecodeSgtin f, ptSgtin), (.pcEncodeSscc f p s1 s2, .pcDecodeSscc f, ptSscc)],
      exec x.1 s = .next t → statusClass t.status = 0#3 → ∃ row n1 n2, x.2.2[p]? = some row ∧
        parseDec s1 = some n1 ∧ parseDec s2 = some n2 ∧
        exec x.2.1 t = .next (t.succeed (.part p (pad (dec n1) row.digits1) (pad (dec n2) row.digits2))) ∧
        ((pad (dec n1) row.digits1 = s1 ∧ pad (dec n2) row.digits2 = s2) ↔
          (s1.length = row.digits1 ∧ s2.length = row.digits2 ∧ s1.all isDigit = true ∧ s2.all isDigit = true))

/-! ## Family 3: SevenBitStringCodec -/

/-- R211, R213, R217: the field checks of S7.DECODE and S7.ENCODE, in their order, each leaving `BB` as it was. -/
def Obligations.SeptetFieldChecksInOrder : Prop :=
  ∀ (s1 : Str) (f n : Int) (s : State), ∀ i ∈ [Instr.s7Decode f n, .s7Encode s1 f n],
    if s.bb.valid = false then exec i s = .next (s.raise ⟨.noBuffer, 0, 0⟩)
    else if n < 0 then exec i s = .next (s.raise ⟨.bitCount, 0, 0⟩)
    else if n % 7 ≠ 0 then exec i s = .next (s.raise ⟨.notMultipleOf7, (n % 7).toNat, 0⟩)
    else if f < 0 then exec i s = .next (s.raise ⟨.negOffset, 0, 0⟩)
    else (s.bb.len : Int) < f + n → exec i s = .next (s.raise ⟨.outOfBounds, (f + n).toNat, s.bb.len⟩)

/-- R212, R213: S7.DECODE gives the string its septets spell, and raises BAD_ESCAPE at a bad escape; every field does
one or the other. -/
def Obligations.S7DecodeReadsTheString : Prop :=
  ∀ (f k : Nat) (s : State), s.bb.valid = true → f + 7 * k ≤ s.bb.len →
    (∀ out, Spells (fieldSeptets s.bb.bits f k) out →
      exec (.s7Decode f (7 * k : Nat)) s = .next (s.succeed (.str out))) ∧
    (∀ j why, BadEscapeAt 0 (fieldSeptets s.bb.bits f k) j why →
      exec (.s7Decode f (7 * k : Nat)) s = .next (s.raise ⟨.badEscape, j, why⟩)) ∧
    ((∃ out, Spells (fieldSeptets s.bb.bits f k) out) ∨ ∃ j why, BadEscapeAt 0 (fieldSeptets s.bb.bits f k) j why)

/-- R215, R217: S7.ENCODE writes one septet for each character of the input, up to the field's septets, and changes no
other position: not the septets after the last one written, and nothing outside the field. -/
def Obligations.S7EncodeWritesTheString : Prop :=
  ∀ (s1 : Str) (cs : List Nat) (f k : Nat) (s : State), s.bb.valid = true → f + 7 * k ≤ s.bb.len → EncodesAs s1 cs →
    (∀ c ∈ cs.take k, c ≤ 127) →
      ∃ bits, exec (.s7Encode s1 f (7 * k : Nat)) s = .next (committed bits s) ∧ bits.length = s.bb.len ∧
        (∀ i c, (cs.take k)[i]? = some c → fieldValue bits (f + 7 * i) 7 = c) ∧
        ∀ a, a < f ∨ f + 7 * (cs.take k).length ≤ a → bits[a]? = s.bb.bits[a]?

/-- R215, R216: the first character above 127 that S7.ENCODE comes to raises VALUE_OVERFLOW and invalidates `BB`. -/
def Obligations.S7EncodeOverflowInvalidates : Prop :=
  ∀ (s1 : Str) (good bad : List Nat) (c f k : Nat) (s : State), s.bb.valid = true → f + 7 * k ≤ s.bb.len →
    EncodesAs s1 (good ++ c :: bad) → (∀ d ∈ good, d ≤ 127) → 127 < c → good.length < k →
      ∃ t, exec (.s7Encode s1 f (7 * k : Nat)) s = .next t ∧ PoisonedBy ⟨.valueOverflow, c, 7⟩ s t

/-- From R212 and R215 (the laws the spec derives as R219): S7.ENCODE into a field of zeros then S7.DECODE gives the
input's characters, each escape as its one character, cut off after the field's septets, when the characters written
are 1 to 127 and none is `%`; an input without `%` is its own characters. -/
def Obligations.SeptetStringsRoundTrip : Prop :=
  (∀ (s1 : Str) (cs : List Nat) (f k : Nat) (s : State), s.bb.valid = true → f + 7 * k ≤ s.bb.len →
    (∀ a, f ≤ a → a < f + 7 * k → s.bb.bits[a]? = some false) → EncodesAs s1 cs →
    (∀ c ∈ cs.take k, 1 ≤ c ∧ c ≤ 127 ∧ c ≠ 0x25) →
      ∃ t, exec (.s7Encode s1 f (7 * k : Nat)) s = .next t ∧
        exec (.s7Decode f (7 * k : Nat)) t = .next (t.succeed (.str (cs.take k)))) ∧
  (∀ s1 : Str, (∀ c ∈ s1, c ≠ 0x25) → EncodesAs s1 s1)

/-! ## Family 4: TagSchemeRegistry -/

/-- R242: REG.DISPATCH_BINARY, whole (and with it the spec's derived R243): the checks of the first two characters in
order, FormatError(UNKNOWN_HEADER) for a byte that is no header, and for the three headers exactly what the scheme's
DECODE of the same text does. (What `SB` then holds is unspecified, R45, and not stated.) -/
def Obligations.DispatchBinaryFollowsTheHeader : Prop :=
  (∀ c : Cmd, c.op = 0x40#8 → decode c = .ok (.regDispatchBinary c.S1)) ∧
  (∀ (text : Str) (s : State), text.length < 2 →
    ∃ t, exec (.regDispatchBinary text) s = .next t ∧ AgreesButScratch t (s.raise ⟨.shortText, text.length, 2⟩)) ∧
  (∀ (c0 c1 : Nat) (rest : Str) (s : State),
    ∃ t, exec (.regDispatchBinary (c0 :: c1 :: rest)) s = .next t ∧
      if isHex c0 = false then AgreesButScratch t (s.raise ⟨.hexChar, 0, c0⟩)
      else if isHex c1 = false then AgreesButScratch t (s.raise ⟨.hexChar, 1, c1⟩)
      else if 16 * hexval c0 + hexval c1 = 0x30 then
        ∃ u, exec (.sgtin96Decode (c0 :: c1 :: rest)) s = .next u ∧ AgreesButScratch t u
      else if 16 * hexval c0 + hexval c1 = 0x31 then
        ∃ u, exec (.sscc96Decode (c0 :: c1 :: rest)) s = .next u ∧ AgreesButScratch t u
      else if 16 * hexval c0 + hexval c1 = 0x36 then
        ∃ u, exec (.sgtin198Decode (c0 :: c1 :: rest)) s = .next u ∧ AgreesButScratch t u
      else AgreesButScratch t (s.raise ⟨.unknownHeader, 16 * hexval c0 + hexval c1, 0⟩))

/-- R244, R241: REG.DISPATCH_URI, whole: URI_KIND for an identity URI, UNKNOWN_SCHEME for a token that is no tag
token, and for the three tokens exactly what the scheme's FROM_URI of the same value does. -/
def Obligations.DispatchUriFollowsTheToken : Prop :=
  (∀ c : Cmd, c.op = 0x41#8 → decode c = .ok (.regDispatchUri c.U)) ∧
  (∀ (u : UriValue) (s : State),
    if u.kind = .id then exec (.regDispatchUri u) s = .next (s.raise ⟨.uriKind, 0, 1⟩)
    else if u.schemeToken = str "sgtin-96" then exec (.regDispatchUri u) s = exec (.sgtin96FromUri u) s
    else if u.schemeToken = str "sgtin-198" then exec (.regDispatchUri u) s = exec (.sgtin198FromUri u) s
    else if u.schemeToken = str "sscc-96" then exec (.regDispatchUri u) s = exec (.sscc96FromUri u) s
    else exec (.regDispatchUri u) s = .next (s.raise ⟨.unknownScheme, 0, 0⟩))

/-! ## Families 5 to 7: TagCodec -/

/-- R261, R270, R101, R242: SGTIN96.DECODE, and REG.DISPATCH_BINARY of the same text, give the value of the fields;
`BB` and every register but the result's are as the success rule says. -/
def Obligations.Sgtin96DecodeReadsTheFields : Prop :=
  ∀ (text : Str) (row : PartRow) (s : State), text.length = 24 → (∀ c ∈ text, isHex c = true) →
    fieldValue (hexBits text) 0 8 = 0x30 → ptSgtin[fieldValue (hexBits text) 11 3]? = some row →
    ∀ i ∈ [Instr.sgtin96Decode text, .regDispatchBinary text], ∃ t, exec i s = .next t ∧
      AgreesButScratch t (s.succeed (.tag (.sgtin96 (fieldValue (hexBits text) 8 3) (fieldValue (hexBits text) 11 3)
        (pad (dec (fieldValue (hexBits text) 14 row.bits1)) row.digits1)
        (pad (dec (fieldValue (hexBits text) (14 + row.bits1) row.bits2)) row.digits2)
        (dec (fieldValue (hexBits text) 58 38)))))

/-- R261, R280, R102, R242: SGTIN198.DECODE, and REG.DISPATCH_BINARY of the same text, with the serial that the 20
septets at bit 58 spell; a bad escape among them raises BAD_ESCAPE. The padding bits are not read. -/
def Obligations.Sgtin198DecodeReadsTheFields : Prop :=
  ∀ (text : Str) (row : PartRow) (s : State), text.length = 52 → (∀ c ∈ text, isHex c = true) →
    fieldValue (hexBits text) 0 8 = 0x36 → ptSgtin[fieldValue (hexBits text) 11 3]? = some row →
    ∀ i ∈ [Instr.sgtin198Decode text, .regDispatchBinary text],
      (∀ serial, Spells (fieldSeptets (hexBits text) 58 20) serial → ∃ t, exec i s = .next t ∧
        AgreesButScratch t (s.succeed (.tag (.sgtin198 (fieldValue (hexBits text) 8 3) (fieldValue (hexBits text) 11 3)
          (pad (dec (fieldValue (hexBits text) 14 row.bits1)) row.digits1)
          (pad (dec (fieldValue (hexBits text) (14 + row.bits1) row.bits2)) row.digits2) serial)))) ∧
      (∀ j why, BadEscapeAt 0 (fieldSeptets (hexBits text) 58 20) j why → ∃ t, exec i s = .next t ∧
        AgreesButScratch t (s.raise ⟨.badEscape, j, why⟩))

/-- R261, R290, R103, R104, R242: SSCC96.DECODE, and REG.DISPATCH_BINARY of the same text; the positions [72,96) are
not read. -/
def Obligations.Sscc96DecodeReadsTheFields : Prop :=
  ∀ (text : Str) (row : PartRow) (s : State), text.length = 24 → (∀ c ∈ text, isHex c = true) →
    fieldValue (hexBits text) 0 8 = 0x31 → ptSscc[fieldValue (hexBits text) 11 3]? = some row →
    ∀ i ∈ [Instr.sscc96Decode text, .regDispatchBinary text], ∃ t, exec i s = .next t ∧
      AgreesButScratch t (s.succeed (.tag (.sscc96 (fieldValue (hexBits text) 8 3) (fieldValue (hexBits text) 11 3)
        (pad (dec (fieldValue (hexBits text) 14 row.bits1)) row.digits1)
        (pad (dec (fieldValue (hexBits text) (14 + row.bits1) row.bits2)) row.digits2))))

/-- R261 (the order the spec collects as R337): where a tag DECODE raises, in the order of its checks: LENGTH,
HEX_CHAR, HEADER, PARTITION; `BB` is as it was. (What `SB` then holds is unspecified, R45, and not stated.) -/
def Obligations.TagDecodeChecksInOrder : Prop :=
  ∀ (text : Str) (s : State), ∀ x ∈ ([(.sgtin96, 24, 0x30), (.sgtin198, 52, 0x36),
      (.sscc96, 24, 0x31)] : List (Scheme × Nat × Nat)),
    (text.length ≠ x.2.1 → ∃ t, exec (decodeInstr x.1 text) s = .next t ∧
      AgreesButScratch t (s.raise ⟨.length, text.length, x.2.1⟩)) ∧
    (∀ good c bad, text = good ++ c :: bad → text.length = x.2.1 → (∀ d ∈ good, isHex d = true) → isHex c = false →
      ∃ t, exec (decodeInstr x.1 text) s = .next t ∧ AgreesButScratch t (s.raise ⟨.hexChar, good.length, c⟩)) ∧
    (text.length = x.2.1 → (∀ d ∈ text, isHex d = true) → fieldValue (hexBits text) 0 8 ≠ x.2.2 →
      ∃ t, exec (decodeInstr x.1 text) s = .next t ∧
        AgreesButScratch t (s.raise ⟨.header, fieldValue (hexBits text) 0 8, x.2.2⟩)) ∧
    (text.length = x.2.1 → (∀ d ∈ text, isHex d = true) → fieldValue (hexBits text) 0 8 = x.2.2 →
      fieldValue (hexBits text) 11 3 = 7 → ∃ t, exec (decodeInstr x.1 text) s = .next t ∧
        AgreesButScratch t (s.raise ⟨.partition, 7, 0⟩))

/-- From R261 (the law the spec derives as R303): for a 96-bit scheme, DECODE of a text of 23 or 25 characters raises
LENGTH, whatever the characters. -/
def Obligations.WrongLengthIsRejectedFirst : Prop :=
  ∀ (text : Str) (s : State), ∀ i ∈ [Instr.sgtin96Decode text, .sscc96Decode text],
    (text.length = 23 → ∃ t, exec i s = .next t ∧ AgreesButScratch t (s.raise ⟨.length, 23, 24⟩)) ∧
    (text.length = 25 → ∃ t, exec i s = .next t ∧ AgreesButScratch t (s.raise ⟨.length, 25, 24⟩))

/-- R262, R266, R271, R101: SGTIN96.ENCODE leaves in `BB` the 96 bits of the layout; the stored partition is not read.
-/
def Obligations.Sgtin96EncodeWritesTheFields : Prop :=
  ∀ (filter stored p n1 n2 n : Nat) (cp item serial : Str) (row : PartRow) (s : State), filter ≤ 7 →
    len2part cp.length = some p → ptSgtin[p]? = some row → (stripZ cp).length ≤ row.digits1 →
    (stripZ item).length ≤ row.digits2 → parseDec cp = some n1 → parseDec item = some n2 →
    parseDec serial = some n → n < 2 ^ 38 → serial = dec n →
    ∃ t bits, exec (.sgtin96Encode (.sgtin96 filter stored cp item serial)) s = .next t ∧
      AgreesButScratch t (committed bits s) ∧ bits.length = 96 ∧ fieldValue bits 0 8 = 0x30 ∧
      fieldValue bits 8 3 = filter ∧ fieldValue bits 11 3 = p ∧ fieldValue bits 14 row.bits1 = n1 ∧
      fieldValue bits (14 + row.bits1) row.bits2 = n2 ∧ fieldValue bits 58 38 = n

/-- R262, R281, R102: SGTIN198.ENCODE leaves in `BB` the 198 bits of the layout, the serial's first 20 characters in
septets and zero septets after them; a character above 127 among them raises VALUE_OVERFLOW and leaves `BB` as it was.
-/
def Obligations.Sgtin198EncodeWritesTheFields : Prop :=
  ∀ (filter stored p n1 n2 : Nat) (cp item serial : Str) (cs : List Nat) (row : PartRow) (s : State), filter ≤ 7 →
    len2part cp.length = some p → ptSgtin[p]? = some row → (stripZ cp).length ≤ row.digits1 →
    (stripZ item).length ≤ row.digits2 → parseDec cp = some n1 → parseDec item = some n2 → EncodesAs serial cs →
    ((∀ c ∈ cs.take 20, c ≤ 127) →
      ∃ t bits, exec (.sgtin198Encode (.sgtin198 filter stored cp item serial)) s = .next t ∧
        AgreesButScratch t (committed bits s) ∧ bits.length = 198 ∧ fieldValue bits 0 8 = 0x36 ∧
        fieldValue bits 8 3 = filter ∧ fieldValue bits 11 3 = p ∧ fieldValue bits 14 row.bits1 = n1 ∧
        fieldValue bits (14 + row.bits1) row.bits2 = n2 ∧
        fieldSeptets bits 58 20 = cs.take 20 ++ List.replicate (20 - (cs.take 20).length) 0) ∧
    (∀ good c bad, cs = good ++ c :: bad → (∀ d ∈ good, d ≤ 127) → 127 < c → good.length < 20 →
      ∃ t, exec (.sgtin198Encode (.sgtin198 filter stored cp item serial)) s = .next t ∧
        AgreesButScratch t (s.raise ⟨.valueOverflow, c, 7⟩))

/-- R262, R291, R103, R104: SSCC96.ENCODE leaves in `BB` the 96 bits of the layout, the positions [72,96) zero. -/
def Obligations.Sscc96EncodeWritesTheFields : Prop :=
  ∀ (filter stored p n1 n2 : Nat) (cp ext : Str) (row : PartRow) (s : State), filter ≤ 7 →
    len2part cp.length = some p → ptSscc[p]? = some row → (stripZ cp).length ≤ row.digits1 →
    (stripZ ext).length ≤ row.digits2 → parseDec cp = some n1 → parseDec ext = some n2 →
    ∃ t bits, exec (.sscc96Encode (.sscc96 filter stored cp ext)) s = .next t ∧
      AgreesButScratch t (committed bits s) ∧ bits.length = 96 ∧ fieldValue bits 0 8 = 0x31 ∧
      fieldValue bits 8 3 = filter ∧ fieldValue bits 11 3 = p ∧ fieldValue bits 14 row.bits1 = n1 ∧
      fieldValue bits (14 + row.bits1) row.bits2 = n2 ∧ ∀ a, 72 ≤ a → a < 96 → bits[a]? = some false

/-- R262, R266 (the order the spec collects as R337): where a tag ENCODE raises, in the order of its checks, each
leaving `BB` as it was. (What `SB` then holds is unspecified, R45, and not stated.) -/
def Obligations.TagEncodeChecksInOrder : Prop :=
  ∀ (t : TagValue) (s : State), ∃ u, exec (encodeInstr t) s = .next u ∧
    if 7 < tagFilter t then AgreesButScratch u (s.raise ⟨.filter, 0, 0⟩)
    else if (tagCompanyPrefix t).length < 6 ∨ 12 < (tagCompanyPrefix t).length then
      AgreesButScratch u (s.raise ⟨.prefixLength, (tagCompanyPrefix t).length, 0⟩)
    else ∀ row, (schemeTable t.scheme)[12 - (tagCompanyPrefix t).length]? = some row →
      if row.digits1 < (stripZ (tagCompanyPrefix t)).length then
        AgreesButScratch u (s.raise ⟨.fieldTooWide, 1, (stripZ (tagCompanyPrefix t)).length⟩)
      else if row.digits2 < (stripZ (tagField2 t)).length then
        AgreesButScratch u (s.raise ⟨.fieldTooWide, 2, (stripZ (tagField2 t)).length⟩)
      else if parseDec (tagCompanyPrefix t) = none then AgreesButScratch u (s.raise ⟨.notDecimal, 1, 0⟩)
      else if parseDec (tagField2 t) = none then AgreesButScratch u (s.raise ⟨.notDecimal, 2, 0⟩)
      else ∀ f p cp item serial, t = .sgtin96 f p cp item serial →
        ¬(∃ n, parseDec serial = some n ∧ n < 2 ^ 38 ∧ serial = dec n) →
          AgreesButScratch u (s.raise ⟨.serial, 0, 0⟩)

/-- R263, R272, R282, R292: TO_URI gives the tag URI of any value of its scheme, its fields copied as they are. -/
def Obligations.ToUriCopiesTheFields : Prop :=
  ∀ (f p : Nat) (cp f2 serial : Str) (s : State),
    exec (.sgtin96ToUri (.sgtin96 f p cp f2 serial)) s =
      .next (s.succeed (.uri ⟨.tag, str "sgtin-96", [dec f, cp, f2, serial]⟩)) ∧
    exec (.sgtin198ToUri (.sgtin198 f p cp f2 serial)) s =
      .next (s.succeed (.uri ⟨.tag, str "sgtin-198", [dec f, cp, f2, serial]⟩)) ∧
    exec (.sscc96ToUri (.sscc96 f p cp f2)) s = .next (s.succeed (.uri ⟨.tag, str "sscc-96", [dec f, cp, f2]⟩))

/-- R265, R274, R284, R294 (and the law the spec derives as R304): TO_ID gives the identity URI without the filter and
the partition: values that differ only in these have one identity, and SGTIN-96 and SGTIN-198 values with equal fields
share it. -/
def Obligations.ToIdDropsFilterAndPartition : Prop :=
  ∀ (f p : Nat) (cp f2 serial : Str) (s : State),
    exec (.sgtin96ToId (.sgtin96 f p cp f2 serial)) s =
      .next (s.succeed (.uri ⟨.id, str "sgtin", [cp, f2, serial]⟩)) ∧
    exec (.sgtin198ToId (.sgtin198 f p cp f2 serial)) s =
      .next (s.succeed (.uri ⟨.id, str "sgtin", [cp, f2, serial]⟩)) ∧
    exec (.sscc96ToId (.sscc96 f p cp f2)) s = .next (s.succeed (.uri ⟨.id, str "sscc", [cp, f2]⟩))

/-- R264, R273, R283, R293, R244: FROM_URI, and REG.DISPATCH_URI of the same value, give the tag value of a tag URI
whose parts meet the checks. -/
def Obligations.FromUriReadsTheParts : Prop :=
  ∀ (d p n : Nat) (cp f2 serial : Str) (row : PartRow) (s : State), d ≤ 7 → len2part cp.length = some p →
    cp.all isDigit = true → f2.all isDigit = true → f2.length = row.digits2 →
    (ptSgtin[p]? = some row → serial = dec n → n < 2 ^ 38 →
      ∀ i ∈ [Instr.sgtin96FromUri ⟨.tag, str "sgtin-96", [[48 + d], cp, f2, serial]⟩,
          .regDispatchUri ⟨.tag, str "sgtin-96", [[48 + d], cp, f2, serial]⟩],
        exec i s = .next (s.succeed (.tag (.sgtin96 d p cp f2 serial)))) ∧
    (ptSgtin[p]? = some row →
      ∀ i ∈ [Instr.sgtin198FromUri ⟨.tag, str "sgtin-198", [[48 + d], cp, f2, serial]⟩,
          .regDispatchUri ⟨.tag, str "sgtin-198", [[48 + d], cp, f2, serial]⟩],
        exec i s = .next (s.succeed (.tag (.sgtin198 d p cp f2 serial)))) ∧
    (ptSscc[p]? = some row →
      ∀ i ∈ [Instr.sscc96FromUri ⟨.tag, str "sscc-96", [[48 + d], cp, f2]⟩,
          .regDispatchUri ⟨.tag, str "sscc-96", [[48 + d], cp, f2]⟩],
        exec i s = .next (s.succeed (.tag (.sscc96 d p cp f2))))

/-- R264 (the order the spec collects as R337): where FROM_URI raises, in the order of its checks; parts 0 to 3 are the
filter, the company prefix, field 2 and the serial. -/
def Obligations.FromUriChecksInOrder : Prop :=
  ∀ (u : UriValue) (s : State), ∀ x ∈ ([(.sgtin96, str "sgtin-96", 4), (.sgtin198, str "sgtin-198", 4),
      (.sscc96, str "sscc-96", 3)] : List (Scheme × Str × Nat)),
    let i := fromUriInstr x.1 u
    let part := fun k => u.parts.getD k []
    if u.kind = .id then exec i s = .next (s.raise ⟨.uriKind, 0, 1⟩)
    else if u.schemeToken ≠ x.2.1 then exec i s = .next (s.raise ⟨.uriScheme, 0, 0⟩)
    else if u.parts.length ≠ x.2.2 then exec i s = .next (s.raise ⟨.uriParts, u.parts.length, x.2.2⟩)
    else if ∀ d, d ≤ 7 → part 0 ≠ [48 + d] then exec i s = .next (s.raise ⟨.filter, 0, 0⟩)
    else if (part 1).length < 6 ∨ 12 < (part 1).length then
      exec i s = .next (s.raise ⟨.prefixLength, (part 1).length, 0⟩)
    else if (part 1).all isDigit = false then exec i s = .next (s.raise ⟨.notDecimal, 1, 0⟩)
    else ∀ row, (schemeTable x.1)[12 - (part 1).length]? = some row →
      if (part 2).length ≠ row.digits2 then exec i s = .next (s.raise ⟨.field2Length, (part 2).length, row.digits2⟩)
      else if (part 2).all isDigit = false then exec i s = .next (s.raise ⟨.notDecimal, 2, 0⟩)
      else x.1 = .sgtin96 → ¬(∃ n, parseDec (part 3) = some n ∧ n < 2 ^ 38 ∧ part 3 = dec n) →
        exec i s = .next (s.raise ⟨.serial, 0, 0⟩)

/-- R95, R336: each FMT_T command with a tag operand of another constructor raises IllegalCommand(OPERAND_TYPE, op, 0)
before any other check, and changes no other state but `SB`, which is unspecified then (R45). -/
def Obligations.WrongOperandTypeIsRejected : Prop :=
  ∀ (t : TagValue) (s : State), ∀ x ∈ ([(.sgtin96Encode t, .sgtin96, 0x51), (.sgtin96ToUri t, .sgtin96, 0x52),
      (.sgtin96ToId t, .sgtin96, 0x54), (.sgtin198Encode t, .sgtin198, 0x61), (.sgtin198ToUri t, .sgtin198, 0x62),
      (.sgtin198ToId t, .sgtin198, 0x64), (.sscc96Encode t, .sscc96, 0x71), (.sscc96ToUri t, .sscc96, 0x72),
      (.sscc96ToId t, .sscc96, 0x74)] : List (Instr × Scheme × Nat)),
    t.scheme ≠ x.2.1 → ∃ u, exec x.1 s = .next u ∧ AgreesButScratch u (s.raise ⟨.operandType, x.2.2, 0⟩)

/-- From R261, R262 and R146 (the law the spec derives as R300): for every WF value, ENCODE succeeds, TO_HEX gives a
text of the scheme's hex length, and DECODE of that text, in any state, gives the value back; outside WF the law can
fail. -/
def Obligations.BinaryRoundTrip : Prop :=
  (∀ (t : TagValue) (s : State), tagWF t = true →
    ∃ s1 h, exec (encodeInstr t) s = .next s1 ∧ statusClass s1.status = 0#3 ∧
      exec .bbToHex s1 = .next (s1.succeed (.str h)) ∧ h.length = (schemeDesc t.scheme).hexLength ∧
      ∀ s2, ∃ s3, exec (decodeInstr t.scheme h) s2 = .next s3 ∧ AgreesButScratch s3 (s2.succeed (.tag t))) ∧
  (∃ (t : TagValue) (s s1 s2 s3 : State) (h : Str), tagWF t = false ∧ exec (encodeInstr t) s = .next s1 ∧
    exec .bbToHex s1 = .next s2 ∧ s2.res = .str h ∧ exec (decodeInstr t.scheme h) s2 = .next s3 ∧
    statusClass s3.status = 0#3 ∧ s3.res ≠ .tag t)

/-- From R263 and R264 (the law the spec derives as R301): for every WF value, FROM_URI of the result of TO_URI gives
the value back. -/
def Obligations.UriRoundTrip : Prop :=
  ∀ (t : TagValue) (s : State), tagWF t = true →
    ∃ u, exec (toUriInstr t) s = .next (s.succeed (.uri u)) ∧
      ∀ s2, exec (fromUriInstr t.scheme u) s2 = .next (s2.succeed (.tag t))

/-- From R261, R262 and R146 (the law the spec derives as R302): if DECODE of a text gives a WF value, ENCODE and
TO_HEX give the text back in upper case exactly when every bit the decoder does not read is 0 and, for SGTIN-198, the
serial field holds no escape septet. -/
def Obligations.DecodeThenEncode : Prop :=
  ∀ (sch : Scheme) (h : Str) (t : TagValue) (s s1 : State), exec (decodeInstr sch h) s = .next s1 → s1.res = .tag t →
    tagWF t = true →
    ∃ s2 g, exec (encodeInstr t) s1 = .next s2 ∧ exec .bbToHex s2 = .next (s2.succeed (.str g)) ∧
      (g = h.map upperHex ↔
        match sch with
        | .sgtin96 => True
        | .sgtin198 => (∀ a, 198 ≤ a → a < 208 → (hexBits h)[a]? = some false) ∧
            (∀ q ∈ fieldSeptets (hexBits h) 58 20, q ≠ 0x25) ∧
            (∀ i j, i < j → j < 20 → (fieldSeptets (hexBits h) 58 20)[i]? = some 0 →
              (fieldSeptets (hexBits h) 58 20)[j]? = some 0)
        | .sscc96 => ∀ a, 72 ≤ a → a < 96 → (hexBits h)[a]? = some false)
end

