-- ==== Sys2Proof/Laws/Bits.lean ====
section
/-! SUPPORT. Laws of bit fields: a run of bits and its number, reading after writing, hex text. -/

namespace Sys2Proof.Machine

/-! ## Runs of bits and numbers -/

@[simp] theorem natToBits_length (n v : Nat) : (natToBits n v).length = n := by
  induction n with
  | zero => rfl
  | succ n ih => simp [natToBits, ih]

/-- Position i of a written field takes bit n − 1 − i (R13). -/
theorem natToBits_getElem? (n v i : Nat) (h : i < n) : (natToBits n v)[i]? = some (v.testBit (n - 1 - i)) := by
  induction n generalizing i with
  | zero => omega
  | succ n ih =>
    cases i with
    | zero => simp [natToBits]
    | succ i =>
      have hi : i < n := by omega
      simp only [natToBits, List.getElem?_cons_succ, ih i hi]
      congr 2
      omega

/-- The number of a run of bits is below 2 to its length (R149). -/
theorem bitsToNat_lt (l : List Bool) : bitsToNat l < 2 ^ l.length := by
  induction l with
  | nil => simp [bitsToNat]
  | cons b bs ih =>
    have hb : b.toNat ≤ 1 := by cases b <;> decide
    have : b.toNat * 2 ^ bs.length ≤ 1 * 2 ^ bs.length := Nat.mul_le_mul_right _ hb
    simp only [bitsToNat, List.length_cons, Nat.pow_succ]
    omega

theorem bitsToNat_natToBits (n v : Nat) : bitsToNat (natToBits n v) = v % 2 ^ n := by
  induction n with
  | zero => simp [natToBits, bitsToNat, Nat.mod_one]
  | succ n ih =>
    simp only [natToBits, bitsToNat, natToBits_length, ih]
    rw [Nat.mod_pow_succ, Nat.testBit_eq_decide_div_mod_eq]
    have h2 : v / 2 ^ n % 2 < 2 := Nat.mod_lt _ (by decide)
    by_cases h : v / 2 ^ n % 2 = 1
    · simp [h]; omega
    · have h0 : v / 2 ^ n % 2 = 0 := by omega
      simp [h0]

theorem bitsToNat_natToBits_of_lt {n v : Nat} (h : v < 2 ^ n) : bitsToNat (natToBits n v) = v := by
  rw [bitsToNat_natToBits, Nat.mod_eq_of_lt h]

theorem bitsToNat_testBit_high (bs : List Bool) (b : Bool) : (bitsToNat (b :: bs)).testBit bs.length = b := by
  have hlt := bitsToNat_lt bs
  rw [Nat.testBit_eq_decide_div_mod_eq]
  have hp : 0 < 2 ^ bs.length := Nat.two_pow_pos _
  have : bitsToNat (b :: bs) / 2 ^ bs.length = b.toNat := by
    simp only [bitsToNat]
    rw [Nat.add_comm, Nat.add_mul_div_right _ _ hp, Nat.div_eq_of_lt hlt, Nat.zero_add]
  rw [this]
  cases b <;> decide

theorem natToBits_mod (n v : Nat) : natToBits n (v % 2 ^ n) = natToBits n v := by
  apply List.ext_getElem?
  intro i
  by_cases h : i < n
  · rw [natToBits_getElem? _ _ _ h, natToBits_getElem? _ _ _ h, Nat.testBit_mod_two_pow]
    have : n - 1 - i < n := by omega
    simp [this]
  · rw [List.getElem?_eq_none, List.getElem?_eq_none] <;> simp <;> omega

theorem natToBits_bitsToNat (l : List Bool) : natToBits l.length (bitsToNat l) = l := by
  induction l with
  | nil => rfl
  | cons b bs ih =>
    simp only [List.length_cons, natToBits, bitsToNat_testBit_high, List.cons.injEq, true_and]
    rw [← natToBits_mod]
    have : bitsToNat (b :: bs) % 2 ^ bs.length = bitsToNat bs := by
      simp only [bitsToNat]
      rw [Nat.add_comm, Nat.add_mul_mod_self_right, Nat.mod_eq_of_lt (bitsToNat_lt bs)]
    rw [this, ih]

theorem bitsToNat_append (l m : List Bool) : bitsToNat (l ++ m) = bitsToNat l * 2 ^ m.length + bitsToNat m := by
  induction l with
  | nil => simp [bitsToNat]
  | cons b bs ih =>
    simp only [List.cons_append, bitsToNat, ih, List.length_append, Nat.pow_add]
    ring

@[simp] theorem bitsToNat_replicate_false (n : Nat) : bitsToNat (List.replicate n false) = 0 := by
  induction n with
  | zero => rfl
  | succ n ih => simp [List.replicate_succ, bitsToNat, ih]

/-! ## Fields -/

/-- A field read is below 2 to its width (R149). -/
theorem readBits_lt (bits : List Bool) (f n : Nat) : readBits bits f n < 2 ^ n :=
  Nat.lt_of_lt_of_le (bitsToNat_lt _) (Nat.pow_le_pow_right (by decide) (by simp))

/-- A field write keeps the length (R34). -/
theorem writeBits_length {bits : List Bool} {f n : Nat} (v : Nat) (h : f + n ≤ bits.length) :
    (writeBits bits f n v).length = bits.length := by
  simp [writeBits]; omega

/-- What a field write leaves at each position (R13, R69). -/
theorem writeBits_getElem? {bits : List Bool} {f n : Nat} (v i : Nat) (h : f + n ≤ bits.length) :
    (writeBits bits f n v)[i]? = if f ≤ i ∧ i < f + n then some (v.testBit (n - 1 - (i - f))) else bits[i]? := by
  unfold writeBits
  by_cases h1 : i < f
  · rw [List.append_assoc, List.getElem?_append_left (by simp; omega), List.getElem?_take_of_lt h1]
    simp; omega
  · by_cases h2 : i < f + n
    · rw [List.append_assoc, List.getElem?_append_right (by simp; omega),
        List.getElem?_append_left (by simp; omega), natToBits_getElem? _ _ _ (by simp; omega)]
      have : min f bits.length = f := by omega
      simp [this, h2]; omega
    · rw [List.getElem?_append_right (by simp; omega), List.getElem?_drop]
      have : min f bits.length = f := by omega
      simp [this, h2]
      congr 1
      omega

theorem readBits_congr {a b : List Bool} {f n : Nat} (h : ∀ i, f ≤ i → i < f + n → a[i]? = b[i]?) :
    readBits a f n = readBits b f n := by
  unfold readBits
  congr 1
  apply List.ext_getElem?
  intro i
  by_cases hi : i < n
  · rw [List.getElem?_take_of_lt hi, List.getElem?_take_of_lt hi, List.getElem?_drop, List.getElem?_drop,
      h (f + i) (by omega) (by omega)]
  · simp [hi]

/-- Reading a field after writing it gives the value written (R154). -/
theorem readBits_writeBits_same {bits : List Bool} {f n v : Nat} (h : f + n ≤ bits.length) (hv : v < 2 ^ n) :
    readBits (writeBits bits f n v) f n = v := by
  have : ((writeBits bits f n v).drop f).take n = natToBits n v := by
    unfold writeBits
    have hf : (bits.take f).length = f := by simp; omega
    rw [List.append_assoc, List.drop_append_of_le_length (by omega), List.drop_eq_nil_of_le (by omega), List.nil_append,
      List.take_append_of_le_length (by simp), List.take_of_length_le (by simp)]
  rw [readBits, this, bitsToNat_natToBits_of_lt hv]

/-- A field disjoint from the one written reads as before (R154, R69). -/
theorem readBits_writeBits_disjoint {bits : List Bool} {f n g m : Nat} (v : Nat) (h : f + n ≤ bits.length)
    (hd : g + m ≤ f ∨ f + n ≤ g) : readBits (writeBits bits f n v) g m = readBits bits g m := by
  apply readBits_congr
  intro i h1 h2
  rw [writeBits_getElem? _ _ h, if_neg (by omega)]

/-- A field of zeros reads as 0. -/
theorem readBits_replicate (k f n : Nat) : readBits (List.replicate k false) f n = 0 := by
  simp [readBits, List.drop_replicate, List.take_replicate]

/-- Writing back what a field holds changes nothing. -/
theorem writeBits_readBits {bits : List Bool} {f n : Nat} (h : f + n ≤ bits.length) :
    writeBits bits f n (readBits bits f n) = bits := by
  unfold writeBits readBits
  have hl : ((bits.drop f).take n).length = n := by simp; omega
  have e : natToBits n (bitsToNat ((bits.drop f).take n)) = (bits.drop f).take n := by
    have := natToBits_bitsToNat ((bits.drop f).take n)
    rwa [hl] at this
  have e2 : bits.drop (f + n) = (bits.drop f).drop n := by rw [List.drop_drop]
  rw [e, e2, List.append_assoc, List.take_append_drop, List.take_append_drop]

/-! ## Hex text -/

@[simp] theorem hexBits_length (t : Str) : (hexBits t).length = 4 * t.length := by
  induction t with
  | nil => rfl
  | cons c cs ih => simp [hexBits, ih]; omega

theorem hexBits_append (a b : Str) : hexBits (a ++ b) = hexBits a ++ hexBits b := by
  induction a with
  | nil => rfl
  | cons c cs ih => simp [hexBits, ih]

theorem hexPadding_spec (n : Nat) : (n + hexPadding n) % 16 = 0 ∧ hexPadding n < 16 := by
  unfold hexPadding; omega

theorem nibblesToHex_length (k : Nat) (bits : List Bool) (h : bits.length = 4 * k) :
    (nibblesToHex bits).length = k := by
  induction k generalizing bits with
  | zero =>
    have : bits = [] := List.length_eq_zero_iff.mp (by omega)
    subst this; rfl
  | succ k ih =>
    match bits, h with
    | b0 :: b1 :: b2 :: b3 :: rest, h =>
      simp only [nibblesToHex, List.length_cons]
      rw [ih rest (by simp at h; omega)]

/-- The length of the hex text (R147). -/
theorem hexText_length (bits : List Bool) : (hexText bits).length = 4 * ((bits.length + 15) / 16) := by
  unfold hexText
  have hp := hexPadding_spec bits.length
  apply nibblesToHex_length
  simp only [List.length_append, List.length_replicate]
  unfold hexPadding at *
  omega

/-- The nibble-to-bit and bit-to-nibble mappings are inverse (R145). -/
theorem hexBits_nibblesToHex (k : Nat) (bits : List Bool) (h : bits.length = 4 * k) :
    hexBits (nibblesToHex bits) = bits := by
  induction k generalizing bits with
  | zero =>
    have : bits = [] := List.length_eq_zero_iff.mp (by omega)
    subst this; rfl
  | succ k ih =>
    match bits, h with
    | b0 :: b1 :: b2 :: b3 :: rest, h =>
      simp only [nibblesToHex, hexBits]
      rw [ih rest (by simp at h; omega)]
      cases b0 <;> cases b1 <;> cases b2 <;> cases b3 <;> rfl

/-- FROM_HEX of the hex text gives the bits and the padding (R155). -/
theorem hexBits_hexText (bits : List Bool) :
    hexBits (hexText bits) = bits ++ List.replicate (hexPadding bits.length) false := by
  unfold hexText
  have hp := hexPadding_spec bits.length
  apply hexBits_nibblesToHex ((bits.length + hexPadding bits.length) / 4)
  simp only [List.length_append, List.length_replicate]
  omega

theorem hexval_lt {c : Nat} (h : isHex c = true) : hexval c < 16 := by
  simp only [isHex, Bool.or_eq_true, Bool.and_eq_true, decide_eq_true_eq] at h
  unfold hexval
  split_ifs <;> omega

theorem isHex_hexchar {v : Nat} (h : v < 16) : isHex (hexchar v) = true := by
  have : ∀ v : Fin 16, isHex (hexchar v) = true := by decide
  exact this ⟨v, h⟩

theorem hexval_hexchar {v : Nat} (h : v < 16) : hexval (hexchar v) = v := by
  have : ∀ v : Fin 16, hexval (hexchar v) = v := by decide
  exact this ⟨v, h⟩

/-- Whole nibbles of a text give its characters back in upper case (R155). -/
theorem nibblesToHex_hexBits (t : Str) (h : ∀ c ∈ t, isHex c = true) :
    nibblesToHex (hexBits t) = t.map fun c => hexchar (hexval c) := by
  induction t with
  | nil => rfl
  | cons c cs ih =>
    have hc := hexval_lt (h c (by simp))
    have ih := ih fun d hd => h d (by simp [hd])
    have key : ∀ v : Fin 16, ∀ rest, nibblesToHex (natToBits 4 v ++ rest) = hexchar v :: nibblesToHex rest := by
      intro v rest
      fin_cases v <;> rfl
    simp only [hexBits, List.map_cons, ← ih]
    exact key ⟨hexval c, hc⟩ _

theorem firstNonHex_none (k : Nat) (t : Str) : firstNonHex k t = none ↔ ∀ c ∈ t, isHex c = true := by
  induction t generalizing k with
  | nil => simp [firstNonHex]
  | cons c cs ih =>
    unfold firstNonHex
    by_cases hc : isHex c = true
    · simp [hc, ih]
    · simp [hc]

theorem nibblesToHex_isHex (bits : List Bool) : ∀ c ∈ nibblesToHex bits, isHex c = true := by
  fun_induction nibblesToHex bits with
  | case1 b0 b1 b2 b3 rest ih =>
    intro c hc
    rcases List.mem_cons.mp hc with rfl | hc
    · apply isHex_hexchar
      cases b0 <;> cases b1 <;> cases b2 <;> cases b3 <;> decide
    · exact ih c hc
  | case2 => simp

/-- The engine's hex text holds hex digits only (R100). -/
theorem hexText_isHex (bits : List Bool) : ∀ c ∈ hexText bits, isHex c = true := nibblesToHex_isHex _

end Sys2Proof.Machine
end

