-- ==== Sys2Proof/Laws/State.lean ====
section
/-! SUPPORT. Laws of the state: one lemma per field per update, so that no proof unfolds a record update. -/

namespace Sys2Proof.Machine

variable (s : State)

@[simp] theorem State.succeed_bb (r : Res) : (s.succeed r).bb = s.bb := rfl
@[simp] theorem State.succeed_status (r : Res) : (s.succeed r).status = statusWord (statusErrSeen s.status) 0#8 0#3 := rfl
@[simp] theorem State.succeed_erra (r : Res) : (s.succeed r).erra = 0#64 := rfl
@[simp] theorem State.succeed_errb (r : Res) : (s.succeed r).errb = 0#64 := rfl
@[simp] theorem State.succeed_res (r : Res) : (s.succeed r).res = r := rfl
@[simp] theorem State.succeed_sb (r : Res) : (s.succeed r).sb = s.sb := rfl
@[simp] theorem State.succeed_cfg (r : Res) : (s.succeed r).cfg = s.cfg := rfl
@[simp] theorem State.succeed_input (r : Res) : (s.succeed r).input = s.input := rfl
@[simp] theorem State.succeed_reads (r : Res) : (s.succeed r).reads = s.reads := rfl
@[simp] theorem State.succeed_free (r : Res) : (s.succeed r).free = s.free := rfl

@[simp] theorem State.raise_bb (e : Exc) : (s.raise e).bb = s.bb := rfl
@[simp] theorem State.raise_status (e : Exc) : (s.raise e).status = statusWord true e.cause.code e.cause.cls.code := rfl
@[simp] theorem State.raise_erra (e : Exc) : (s.raise e).erra = recInfo e.a := rfl
@[simp] theorem State.raise_errb (e : Exc) : (s.raise e).errb = recInfo e.b := rfl
@[simp] theorem State.raise_res (e : Exc) : (s.raise e).res = .none := rfl
@[simp] theorem State.raise_sb (e : Exc) : (s.raise e).sb = s.sb := rfl
@[simp] theorem State.raise_cfg (e : Exc) : (s.raise e).cfg = s.cfg := rfl
@[simp] theorem State.raise_input (e : Exc) : (s.raise e).input = s.input := rfl
@[simp] theorem State.raise_reads (e : Exc) : (s.raise e).reads = s.reads := rfl
@[simp] theorem State.raise_free (e : Exc) : (s.raise e).free = s.free := rfl

@[simp] theorem State.withBuffer_bb (bits : List Bool) : (s.withBuffer bits).bb = { bits := bits, valid := true } := rfl
@[simp] theorem State.withBuffer_status (bits : List Bool) : (s.withBuffer bits).status = s.status := rfl
@[simp] theorem State.withBuffer_erra (bits : List Bool) : (s.withBuffer bits).erra = s.erra := rfl
@[simp] theorem State.withBuffer_errb (bits : List Bool) : (s.withBuffer bits).errb = s.errb := rfl
@[simp] theorem State.withBuffer_res (bits : List Bool) : (s.withBuffer bits).res = s.res := rfl
@[simp] theorem State.withBuffer_sb (bits : List Bool) : (s.withBuffer bits).sb = s.sb := rfl
@[simp] theorem State.withBuffer_cfg (bits : List Bool) : (s.withBuffer bits).cfg = s.cfg := rfl
@[simp] theorem State.withBuffer_input (bits : List Bool) : (s.withBuffer bits).input = s.input := rfl
@[simp] theorem State.withBuffer_reads (bits : List Bool) : (s.withBuffer bits).reads = s.reads := rfl
@[simp] theorem State.withBuffer_free (bits : List Bool) : (s.withBuffer bits).free = s.free := rfl

@[simp] theorem State.poison_bb : s.poison.bb = { bits := Config.freeBits s.free, valid := false } := rfl
@[simp] theorem State.poison_status : s.poison.status = s.status := rfl
@[simp] theorem State.poison_erra : s.poison.erra = s.erra := rfl
@[simp] theorem State.poison_errb : s.poison.errb = s.errb := rfl
@[simp] theorem State.poison_res : s.poison.res = s.res := rfl
@[simp] theorem State.poison_sb : s.poison.sb = s.sb := rfl
@[simp] theorem State.poison_cfg : s.poison.cfg = s.cfg := rfl
@[simp] theorem State.poison_input : s.poison.input = s.input := rfl
@[simp] theorem State.poison_reads : s.poison.reads = s.reads := rfl
@[simp] theorem State.poison_free : s.poison.free = s.free + 1 := rfl

@[simp] theorem State.useScratch_bb : s.useScratch.bb = s.bb := rfl
@[simp] theorem State.useScratch_status : s.useScratch.status = s.status := rfl
@[simp] theorem State.useScratch_erra : s.useScratch.erra = s.erra := rfl
@[simp] theorem State.useScratch_errb : s.useScratch.errb = s.errb := rfl
@[simp] theorem State.useScratch_res : s.useScratch.res = s.res := rfl
@[simp] theorem State.useScratch_sb : s.useScratch.sb = { bits := Config.freeBits s.free, valid := Config.freeValid s.free } := rfl
@[simp] theorem State.useScratch_cfg : s.useScratch.cfg = s.cfg := rfl
@[simp] theorem State.useScratch_input : s.useScratch.input = s.input := rfl
@[simp] theorem State.useScratch_reads : s.useScratch.reads = s.reads := rfl
@[simp] theorem State.useScratch_free : s.useScratch.free = s.free + 1 := rfl

@[simp] theorem State.portRead_bb (r : PortReg) : (s.portRead r).bb = s.bb := rfl
@[simp] theorem State.portRead_status (r : PortReg) : (s.portRead r).status = s.status := rfl
@[simp] theorem State.portRead_erra (r : PortReg) : (s.portRead r).erra = s.erra := rfl
@[simp] theorem State.portRead_errb (r : PortReg) : (s.portRead r).errb = s.errb := rfl
@[simp] theorem State.portRead_res (r : PortReg) : (s.portRead r).res = s.res := rfl
@[simp] theorem State.portRead_sb (r : PortReg) : (s.portRead r).sb = s.sb := rfl
@[simp] theorem State.portRead_cfg (r : PortReg) : (s.portRead r).cfg = s.cfg := rfl
@[simp] theorem State.portRead_input (r : PortReg) : (s.portRead r).input = s.input := rfl
@[simp] theorem State.portRead_reads (r : PortReg) : (s.portRead r).reads = s.reads ++ [s.portValue r] := rfl
@[simp] theorem State.portRead_free (r : PortReg) : (s.portRead r).free = s.free + 1 := rfl

@[simp] theorem State.assertReset_bb : s.assertReset.bb = { bits := [], valid := false } := rfl
@[simp] theorem State.assertReset_status : s.assertReset.status = 0#32 := rfl
@[simp] theorem State.assertReset_erra : s.assertReset.erra = 0#64 := rfl
@[simp] theorem State.assertReset_errb : s.assertReset.errb = 0#64 := rfl
@[simp] theorem State.assertReset_res : s.assertReset.res = .none := rfl
@[simp] theorem State.assertReset_sb : s.assertReset.sb = { bits := [], valid := false } := rfl
@[simp] theorem State.assertReset_cfg : s.assertReset.cfg = s.cfg := rfl
@[simp] theorem State.assertReset_input : s.assertReset.input = s.input := rfl
@[simp] theorem State.assertReset_reads : s.assertReset.reads = s.reads := rfl
@[simp] theorem State.assertReset_free : s.assertReset.free = s.free := rfl

/-- A successful conclusion is `succeed`. -/
@[simp] theorem State.conclude_ok (r : Res) : s.conclude (.ok r) = s.succeed r := rfl

/-- A failed conclusion is `raise`. -/
@[simp] theorem State.conclude_error (e : Exc) : s.conclude (.error e) = s.raise e := rfl

end Sys2Proof.Machine
end

