-- ==== Sys2Proof/Laws/Text.lean ====
section
/-! SUPPORT. Laws of the string helpers: decimal rendering and parsing are inverse. -/

namespace Sys2Proof.Machine

/-! ## Values of digit strings -/

theorem decValue_append (a b : Str) : decValue (a ++ b) = decValue a * 10 ^ b.length + decValue b := by
  induction a with
  | nil => simp [decValue]
  | cons c cs ih =>
    simp only [List.cons_append, decValue, ih, List.length_append, Nat.pow_add]
    ring

/-- A string of d digits spells a number below 10 to the d. -/
theorem decValue_lt {s : Str} (h : s.all isDigit = true) : decValue s < 10 ^ s.length := by
  induction s with
  | nil => simp [decValue]
  | cons c cs ih =>
    simp only [List.all_cons, Bool.and_eq_true, isDigit, decide_eq_true_eq] at h
    have ih := ih h.2
    simp only [decValue, List.length_cons, Nat.pow_succ]
    have hc : c - 48 ≤ 9 := by omega
    have := Nat.mul_le_mul_right (10 ^ cs.length) hc
    omega

@[simp] theorem decValue_zeros (k : Nat) (s : Str) : decValue (List.replicate k 48 ++ s) = decValue s := by
  induction k with
  | zero => rfl
  | succ k ih => simp [List.replicate_succ, decValue, ih]

theorem decValue_stripZ (s : Str) : decValue (stripZ s) = decValue s := by
  induction s with
  | nil => rfl
  | cons c cs ih =>
    unfold stripZ
    by_cases h : c = 48
    · subst h; simp [ih, decValue]
    · simp [h]

theorem stripZ_length_le (s : Str) : (stripZ s).length ≤ s.length := by
  induction s with
  | nil => simp [stripZ]
  | cons c cs ih =>
    unfold stripZ
    split_ifs
    · simp; omega
    · simp

theorem all_stripZ {s : Str} (h : s.all isDigit = true) : (stripZ s).all isDigit = true := by
  induction s with
  | nil => rfl
  | cons c cs ih =>
    unfold stripZ
    simp only [List.all_cons, Bool.and_eq_true] at h
    split_ifs
    · exact ih h.2
    · simp [h.1, h.2]

/-! ## Rendering -/

theorem decFrom_eq (fuel n : Nat) (acc : Str) : decFrom fuel n acc = decFrom fuel n [] ++ acc := by
  induction fuel generalizing n acc with
  | zero => simp [decFrom]
  | succ k ih =>
    unfold decFrom
    split_ifs
    · simp
    · rw [ih _ ((48 + n % 10) :: acc), ih _ [48 + n % 10]]; simp

theorem decFrom_fuel (k n : Nat) (h : n < k) : decFrom k n [] = dec n := by
  unfold dec
  induction n using Nat.strongRecOn generalizing k with
  | ind n ih =>
    match k, h with
    | k + 1, h =>
      unfold decFrom
      by_cases h10 : n < 10
      · simp [h10]
      · simp only [h10, if_false]
        rw [decFrom_eq k, decFrom_eq n]
        have h1 : n / 10 < n := by omega
        rw [ih (n / 10) h1 k (by omega), ih (n / 10) h1 n h1]

/-- `dec` one digit at a time. -/
theorem dec_step (n : Nat) : dec n = if n < 10 then [48 + n] else dec (n / 10) ++ [48 + n % 10] := by
  conv_lhs => unfold dec decFrom
  split_ifs with h
  · rfl
  · rw [decFrom_eq, decFrom_fuel n (n / 10) (by omega)]

theorem dec_ne_nil (n : Nat) : dec n ≠ [] := by
  rw [dec_step]; split_ifs <;> simp

theorem dec_all (n : Nat) : (dec n).all isDigit = true := by
  induction n using Nat.strongRecOn with
  | ind n ih =>
    rw [dec_step]
    split_ifs with h
    · simp [isDigit]; omega
    · rw [List.all_append, ih (n / 10) (by omega)]
      simp [isDigit]; omega

theorem decValue_dec (n : Nat) : decValue (dec n) = n := by
  induction n using Nat.strongRecOn with
  | ind n ih =>
    rw [dec_step]
    split_ifs with h
    · simp [decValue]
    · rw [decValue_append, ih (n / 10) (by omega)]
      simp [decValue]; omega

/-- A number below 10 to the d has at most d digits. -/
theorem dec_length_le {n d : Nat} (hd : 0 < d) (h : n < 10 ^ d) : (dec n).length ≤ d := by
  induction d generalizing n with
  | zero => omega
  | succ d ih =>
    rw [dec_step]
    split_ifs with h10
    · simp
    · have h2 : n / 10 < 10 ^ d := by rw [Nat.pow_succ] at h; omega
      have hd0 : 0 < d := by
        rcases Nat.eq_zero_or_pos d with rfl | hp
        · simp at h2; omega
        · exact hp
      have := ih hd0 h2
      simp; omega

/-- Parsing a rendered number gives it back. -/
theorem parseDec_dec (n : Nat) : parseDec (dec n) = some n := by
  have h1 := dec_ne_nil n
  simp [parseDec, dec_all, decValue_dec, h1]

theorem parseDec_some {s : Str} {n : Nat} (h : parseDec s = some n) :
    s ≠ [] ∧ s.all isDigit = true ∧ decValue s = n := by
  unfold parseDec at h
  split_ifs at h with h1 h2
  simp only [Option.some.injEq] at h
  exact ⟨by simpa using h1, h2, h⟩

theorem parseDec_of_digits {s : Str} (h1 : s ≠ []) (h2 : s.all isDigit = true) : parseDec s = some (decValue s) := by
  simp [parseDec, h1, h2]

/-! ## Padding -/

theorem pad_length (s : Str) (d : Nat) : (pad s d).length = max d s.length := by
  simp [pad]; omega

theorem all_pad {s : Str} {d : Nat} (h : s.all isDigit = true) : (pad s d).all isDigit = true := by
  simp only [pad, List.all_append, h, Bool.and_true, List.all_eq_true]
  intro c hc
  rw [(List.mem_replicate.mp hc).2]; decide

theorem decValue_pad (s : Str) (d : Nat) : decValue (pad s d) = decValue s := by simp [pad]

theorem pad_ne_nil {s : Str} {d : Nat} (h : s ≠ []) : pad s d ≠ [] := by simp [pad, h]

/-- The padded rendering parses to the number (R190). -/
theorem parseDec_pad_dec (n d : Nat) : parseDec (pad (dec n) d) = some n := by
  rw [parseDec_of_digits (pad_ne_nil (dec_ne_nil n)) (all_pad (dec_all n)), decValue_pad, decValue_dec]

/-- Two digit strings of one length that spell one number are equal. -/
theorem eq_of_decValue {a b : Str} (ha : a.all isDigit = true) (hb : b.all isDigit = true)
    (hl : a.length = b.length) (hv : decValue a = decValue b) : a = b := by
  induction a generalizing b with
  | nil => exact (List.length_eq_zero_iff.mp (by simpa using hl.symm)).symm
  | cons x xs ih =>
    match b, hl with
    | y :: ys, hl =>
      have hl' : xs.length = ys.length := by simpa using hl
      simp only [List.all_cons, Bool.and_eq_true] at ha hb
      have hx := ha.1
      have hy := hb.1
      simp only [isDigit, Bool.and_eq_true, decide_eq_true_eq] at hx hy
      simp only [decValue] at hv
      rw [hl'] at hv
      have l1 := decValue_lt ha.2
      have l2 := decValue_lt hb.2
      rw [hl'] at l1
      have hp : 0 < 10 ^ ys.length := Nat.pow_pos (by decide)
      have hq : x - 48 = y - 48 := by
        have a1 := congrArg (· / 10 ^ ys.length) hv
        simp only [Nat.add_comm (_ * 10 ^ ys.length), Nat.add_mul_div_right _ _ hp, Nat.div_eq_of_lt l1,
          Nat.div_eq_of_lt l2] at a1
        omega
      have hxy : x = y := by omega
      subst hxy
      rw [ih ha.2 hb.2 hl' (by omega)]

/-- A string of exactly d digits is the padded rendering of its number (R191). -/
theorem pad_dec_decValue {s : Str} (h : s.all isDigit = true) (h1 : s ≠ []) :
    pad (dec (decValue s)) s.length = s := by
  apply eq_of_decValue (all_pad (dec_all _)) h
  · rw [pad_length]
    have := dec_length_le (List.length_pos_iff.mpr h1) (decValue_lt h)
    omega
  · rw [decValue_pad, decValue_dec]

end Sys2Proof.Machine
end

