-- ==== Sys2Proof/Laws/Ops.lean ====
section
/-! SUPPORT. Laws of the shared operations: for each, once, everything it can do. -/

namespace Sys2Proof.Machine

/-! ## STATUS -/

/-- Every bit of the STATUS word (R36). -/
theorem statusWord_getLsbD (e : Bool) (c : Byte) (k : BitVec 3) (i : Nat) :
    (statusWord e c k).getLsbD i =
      (k.getLsbD i || (decide (8 ≤ i) && c.getLsbD (i - 8)) || (decide (i = 31) && e)) := by
  unfold statusWord
  by_cases h31 : i = 31
  · subst h31; simp
  · by_cases h : i < 32
    · have : i < 31 := by omega
      by_cases h8 : i < 8
      · have : ¬ 8 ≤ i := by omega
        simp [*]
      · have : 8 ≤ i := by omega
        simp [*, Bool.or_comm]
    · have h1 : k.getLsbD i = false := BitVec.getLsbD_of_ge _ _ (by omega)
      have h2 : c.getLsbD (i - 8) = false := BitVec.getLsbD_of_ge _ _ (by omega)
      simp [h, h1, h2, h31]

@[simp] theorem statusClass_statusWord (e : Bool) (c : Byte) (k : BitVec 3) : statusClass (statusWord e c k) = k := by
  apply BitVec.eq_of_getLsbD_eq
  intro i hi
  have h1 : ¬ 8 ≤ i := by omega
  have h2 : ¬ i = 31 := by omega
  simp [statusClass, statusWord_getLsbD, hi, h1, h2]

@[simp] theorem statusCause_statusWord (e : Bool) (c : Byte) (k : BitVec 3) : statusCause (statusWord e c k) = c := by
  apply BitVec.eq_of_getLsbD_eq
  intro i hi
  have h1 : k.getLsbD (8 + i) = false := BitVec.getLsbD_of_ge _ _ (by omega)
  have h2 : ¬ 8 + i = 31 := by omega
  simp [statusCause, statusWord_getLsbD, hi, h1, h2]

@[simp] theorem statusErrSeen_statusWord (e : Bool) (c : Byte) (k : BitVec 3) :
    statusErrSeen (statusWord e c k) = e := by
  have h1 : k.getLsbD 31 = false := BitVec.getLsbD_of_ge _ _ (by omega)
  simp only [statusErrSeen, statusWord_getLsbD, h1]
  simp

theorem Cause.cls_code_ne_zero (c : Cause) : c.cls.code ≠ 0#3 := by cases c <;> decide

/-- A raise is not a success. -/
theorem State.raise_ne_succeed (e : Exc) (s t : State) (r : Res) : s.raise e ≠ t.succeed r := by
  intro h
  have := congrArg (fun x => statusClass x.status) h
  simp at this
  exact Cause.cls_code_ne_zero _ this

/-! ## Checked access -/

/-- `CheckAccess` passes exactly for a field inside a valid buffer (R141). -/
theorem checkAccess_eq_none_iff (b : BitBuffer) (f n : Int) (nmin nmax : Nat) :
    checkAccess b f n nmin nmax = none ↔
      b.valid = true ∧ (nmin : Int) ≤ n ∧ n ≤ nmax ∧ 0 ≤ f ∧ f + n ≤ b.len := by
  unfold checkAccess
  split_ifs with h1 h2 h3 h4 <;> simp_all <;> omega

/-- A checked access never raises NO_BUFFER on a valid buffer. -/
theorem checkAccess_cause {b : BitBuffer} {f n : Int} {nmin nmax : Nat} {e : Exc} (hv : b.valid = true)
    (h : checkAccess b f n nmin nmax = some e) : e.cause ≠ .noBuffer := by
  unfold checkAccess at h
  split_ifs at h <;> simp_all <;> subst h <;> simp

theorem checkValue_eq_none_iff (v n : Nat) : checkValue v n = none ↔ v < 2 ^ n := by
  unfold checkValue
  split_ifs <;> simp_all

/-- What a checked read answers. -/
theorem readField_eq_ok_iff (b : BitBuffer) (f n : Int) (nmin nmax v : Nat) :
    readField b f n nmin nmax = .ok v ↔
      checkAccess b f n nmin nmax = none ∧ v = readBits b.bits f.toNat n.toNat := by
  unfold readField
  rcases checkAccess b f n nmin nmax with _ | e <;> simp [eq_comm]

/-- A checked read of a field inside a valid buffer. -/
theorem readField_ok {b : BitBuffer} {f n nmin nmax : Nat} (hv : b.valid = true) (h1 : nmin ≤ n) (h2 : n ≤ nmax)
    (h3 : f + n ≤ b.len) : readField b f n nmin nmax = .ok (readBits b.bits f n) := by
  rw [readField_eq_ok_iff, checkAccess_eq_none_iff]
  refine ⟨⟨hv, ?_, ?_, ?_, ?_⟩, ?_⟩ <;> first | omega | simp

theorem readField_eq_error_iff (b : BitBuffer) (f n : Int) (nmin nmax : Nat) (e : Exc) :
    readField b f n nmin nmax = .error e ↔ checkAccess b f n nmin nmax = some e := by
  unfold readField
  split <;> simp_all

/-- What a checked write answers: the bits with the field replaced, the length as before (R151, R34). -/
theorem writeField_eq_ok_iff (b : BitBuffer) (f n : Int) (nmin nmax v : Nat) (bits : List Bool) :
    writeField b f n nmin nmax v = .ok bits ↔
      checkAccess b f n nmin nmax = none ∧ v < 2 ^ n.toNat ∧ bits = writeBits b.bits f.toNat n.toNat v := by
  unfold writeField
  rw [← checkValue_eq_none_iff]
  rcases checkAccess b f n nmin nmax with _ | e <;> rcases checkValue v n.toNat with _ | e' <;> simp [eq_comm]

/-- A checked write of a field inside a valid buffer. -/
theorem writeField_ok {b : BitBuffer} {f n nmin nmax v : Nat} (hv : b.valid = true) (h1 : nmin ≤ n) (h2 : n ≤ nmax)
    (h3 : f + n ≤ b.len) (h4 : v < 2 ^ n) : writeField b f n nmin nmax v = .ok (writeBits b.bits f n v) := by
  rw [writeField_eq_ok_iff, checkAccess_eq_none_iff]
  refine ⟨⟨hv, ?_, ?_, ?_, ?_⟩, ?_, ?_⟩ <;> first | omega | simp [h4]

theorem writeField_length {b : BitBuffer} {f n : Int} {nmin nmax v : Nat} {bits : List Bool}
    (h : writeField b f n nmin nmax v = .ok bits) : bits.length = b.len := by
  rw [writeField_eq_ok_iff, checkAccess_eq_none_iff] at h
  obtain ⟨⟨-, h1, -, h2, h3⟩, -, rfl⟩ := h
  exact writeBits_length _ (by unfold BitBuffer.len at h3; omega)

theorem writeField_valid {b : BitBuffer} {f n : Int} {nmin nmax v : Nat} {bits : List Bool}
    (h : writeField b f n nmin nmax v = .ok bits) : b.valid = true := by
  rw [writeField_eq_ok_iff, checkAccess_eq_none_iff] at h
  exact h.1.1

theorem writeField_cause {b : BitBuffer} {f n : Int} {nmin nmax v : Nat} {e : Exc} (hv : b.valid = true)
    (h : writeField b f n nmin nmax v = .error e) : e.cause ≠ .noBuffer := by
  unfold writeField at h
  split at h
  · rename_i heq; simp at h; subst h; exact checkAccess_cause hv heq
  · split at h
    · rename_i heq; simp at h; subst h
      unfold checkValue at heq; split_ifs at heq; simp at heq; subst heq; simp
    · simp at h

/-! ## The partition procedures -/

/-- Both tables have seven rows with widths 1 to 64 whose decimal fields fit (R41, R42, R44). -/
theorem table_row {table : List PartRow} (ht : table = ptSgtin ∨ table = ptSscc) {p : Nat} {row : PartRow}
    (h : table[p]? = some row) : p < 7 ∧ 1 ≤ row.bits1 ∧ row.bits1 ≤ 64 ∧ 1 ≤ row.bits2 ∧ row.bits2 ≤ 64 ∧
      1 ≤ row.digits1 ∧ 1 ≤ row.digits2 ∧ 10 ^ row.digits1 ≤ 2 ^ row.bits1 ∧ 10 ^ row.digits2 ≤ 2 ^ row.bits2 ∧
      row.digits1 = 12 - p ∧ (row.bits1 + row.bits2 = 44 ∨ row.bits1 + row.bits2 = 58) := by
  have hp : p < 7 := by
    rcases ht with rfl | rfl <;> exact (List.getElem?_eq_some_iff.mp h).1
  rcases ht with rfl | rfl <;> interval_cases p <;> simp [ptSgtin, ptSscc] at h <;> subst h <;> decide

theorem ptSgtin_row {p : Nat} {row : PartRow} (h : ptSgtin[p]? = some row) : row.bits1 + row.bits2 = 44 := by
  have hp : p < 7 := (List.getElem?_eq_some_iff.mp h).1
  interval_cases p <;> simp [ptSgtin] at h <;> subst h <;> decide

theorem ptSscc_row {p : Nat} {row : PartRow} (h : ptSscc[p]? = some row) : row.bits1 + row.bits2 = 58 := by
  have hp : p < 7 := (List.getElem?_eq_some_iff.mp h).1
  interval_cases p <;> simp [ptSscc] at h <;> subst h <;> decide

theorem table_isSome {table : List PartRow} (ht : table = ptSgtin ∨ table = ptSscc) {p : Nat} (h : p < 7) :
    ∃ row, table[p]? = some row := by
  rcases ht with rfl | rfl <;> exact ⟨_, List.getElem?_eq_getElem (by simpa [ptSgtin, ptSscc] using h)⟩

theorem len2part_eq_some_iff (l p : Nat) : len2part l = some p ↔ 6 ≤ l ∧ l ≤ 12 ∧ p = 12 - l := by
  by_cases h : l ≤ 12
  · interval_cases l <;> simp [len2part, eq_comm]
  · have : len2part l = none := by
      unfold len2part
      split <;> first | omega | rfl
    simp [this]; omega

theorem len2part_eq_none_iff (l : Nat) : len2part l = none ↔ l < 6 ∨ 12 < l := by
  rcases h : len2part l with _ | p
  · simp only [true_iff]
    by_contra hc
    have := (len2part_eq_some_iff l (12 - l)).mpr ⟨by omega, by omega, rfl⟩
    rw [this] at h; simp at h
  · have := (len2part_eq_some_iff l p).mp h
    simp; omega

/-- What `PartDecode` answers when every check passes (R181). -/
theorem partDecode_ok {b : BitBuffer} {f : Nat} {table : List PartRow} (ht : table = ptSgtin ∨ table = ptSscc)
    {row : PartRow} (hv : b.valid = true) (hr : table[readBits b.bits f 3]? = some row)
    (hl : f + 3 + row.bits1 + row.bits2 ≤ b.len) :
    partDecode b f table = .ok (readBits b.bits f 3, pad (dec (readBits b.bits (f + 3) row.bits1)) row.digits1,
      pad (dec (readBits b.bits (f + 3 + row.bits1) row.bits2)) row.digits2) := by
  obtain ⟨-, h1, h2, h3, h4, -⟩ := table_row ht hr
  have r1 : readField b (f : Int) 3 1 64 = .ok (readBits b.bits f 3) :=
    readField_ok (n := 3) hv (by omega) (by omega) (by omega)
  have r2 : readField b ((f : Int) + 3) row.bits1 1 64 = .ok (readBits b.bits (f + 3) row.bits1) :=
    readField_ok (f := f + 3) hv (by omega) (by omega) (by omega)
  have r3 : readField b ((f : Int) + 3 + row.bits1) row.bits2 1 64 =
      .ok (readBits b.bits (f + 3 + row.bits1) row.bits2) := by
    have := readField_ok (b := b) (f := f + 3 + row.bits1) (n := row.bits2) (nmin := 1) (nmax := 64) hv
      (by omega) (by omega) (by omega)
    simpa [Nat.cast_add] using this
  simp [partDecode, r1, r2, r3, hr]

/-- Everything a successful `PartDecode` says (R181, R190). -/
theorem partDecode_eq_ok {b : BitBuffer} {f : Int} {table : List PartRow} {p : Nat} {a c : Str}
    (h : partDecode b f table = .ok (p, a, c)) :
    ∃ row, table[p]? = some row ∧ b.valid = true ∧ 0 ≤ f ∧ f + 3 + row.bits1 + row.bits2 ≤ b.len ∧
      p = readBits b.bits f.toNat 3 ∧ a = pad (dec (readBits b.bits (f.toNat + 3) row.bits1)) row.digits1 ∧
      c = pad (dec (readBits b.bits (f.toNat + 3 + row.bits1) row.bits2)) row.digits2 := by
  unfold partDecode at h
  split at h
  · simp at h
  rename_i q hq
  split at h
  · simp at h
  rename_i row hrow
  split at h
  · simp at h
  rename_i n1 h1
  split at h
  · simp at h
  rename_i n2 h2
  simp only [Except.ok.injEq, Prod.mk.injEq] at h
  obtain ⟨rfl, rfl, rfl⟩ := h
  rw [readField_eq_ok_iff, checkAccess_eq_none_iff] at hq h1 h2
  obtain ⟨⟨hv, -, -, hf, -⟩, rfl⟩ := hq
  obtain ⟨-, rfl⟩ := h1
  obtain ⟨⟨-, -, -, -, hl⟩, rfl⟩ := h2
  refine ⟨row, hrow, hv, hf, by omega, rfl, ?_, ?_⟩
  · have : (f + 3).toNat = f.toNat + 3 := by omega
    simp [this]
  · have : (f + 3 + (row.bits1 : Int)).toNat = f.toNat + 3 + row.bits1 := by omega
    simp [this]

theorem partDecode_cause {b : BitBuffer} {f : Int} {table : List PartRow} {e : Exc} (hv : b.valid = true)
    (h : partDecode b f table = .error e) : e.cause ≠ .noBuffer := by
  unfold partDecode at h
  split at h
  · rename_i heq; simp at h; subst h; exact checkAccess_cause hv ((readField_eq_error_iff ..).mp heq)
  split at h
  · simp at h; subst h; simp
  split at h
  · rename_i heq; simp at h; subst h; exact checkAccess_cause hv ((readField_eq_error_iff ..).mp heq)
  split at h
  · rename_i heq; simp at h; subst h; exact checkAccess_cause hv ((readField_eq_error_iff ..).mp heq)
  · simp at h

/-- Everything `PartEncodeCheck` says when it passes (R184). -/
theorem partEncodeCheck_eq_ok_iff (table : List PartRow) (p : Nat) (s1 s2 : Str) (row : PartRow) (n1 n2 : Nat) :
    partEncodeCheck table p s1 s2 = .ok (row, n1, n2) ↔ table[p]? = some row ∧
      (stripZ s1).length ≤ row.digits1 ∧ (stripZ s2).length ≤ row.digits2 ∧
      parseDec s1 = some n1 ∧ parseDec s2 = some n2 := by
  unfold partEncodeCheck
  rcases table[p]? with _ | row'
  · simp
  · simp only
    by_cases hr : row' = row
    · subst hr
      split_ifs with h1 h2
      · simp; omega
      · simp; omega
      · rcases parseDec s1 with _ | m1 <;> rcases parseDec s2 with _ | m2 <;> simp <;> omega
    · have hr' : ¬(some row' = some row) := by simpa using hr
      simp only [hr', false_and, iff_false]
      split_ifs
      · simp
      · simp
      · rcases parseDec s1 with _ | m1 <;> rcases parseDec s2 with _ | m2 <;> simp [hr]

theorem partEncodeCheck_cause {table : List PartRow} {p : Nat} {s1 s2 : Str} {e : Exc}
    (h : partEncodeCheck table p s1 s2 = .error e) : e.cause ≠ .noBuffer := by
  unfold partEncodeCheck at h
  split at h
  · simp at h; subst h; simp
  split_ifs at h
  · simp at h; subst h; simp
  · simp at h; subst h; simp
  split at h
  · simp at h; subst h; simp
  split at h
  · simp at h; subst h; simp
  · simp at h

/-- A number of a field that passed the checks fits the field's bits (R185, R44). -/
theorem field_fits {s : Str} {n d w : Nat} (hp : parseDec s = some n) (hl : (stripZ s).length ≤ d)
    (hw : 10 ^ d ≤ 2 ^ w) : n < 2 ^ w := by
  obtain ⟨-, ha, rfl⟩ := parseDec_some hp
  have h1 := decValue_lt (all_stripZ ha)
  rw [decValue_stripZ] at h1
  exact Nat.lt_of_lt_of_le h1 (Nat.le_trans (Nat.pow_le_pow_right (by decide) hl) hw)

/-- What `PartEncodeWrite` answers inside a valid buffer (R185). -/
theorem partEncodeWrite_ok {b : BitBuffer} {f p n1 n2 : Nat} {row : PartRow} (hv : b.valid = true)
    (h1 : 1 ≤ row.bits1 ∧ row.bits1 ≤ 64) (h2 : 1 ≤ row.bits2 ∧ row.bits2 ≤ 64)
    (hl : f + 3 + row.bits1 + row.bits2 ≤ b.len) (hp : p < 2 ^ 3) (hn1 : n1 < 2 ^ row.bits1) (hn2 : n2 < 2 ^ row.bits2) :
    partEncodeWrite b f row p n1 n2 =
      .ok (writeBits (writeBits (writeBits b.bits f 3 p) (f + 3) row.bits1 n1) (f + 3 + row.bits1) row.bits2 n2) := by
  have l1 : (writeBits b.bits f 3 p).length = b.bits.length := writeBits_length _ (by unfold BitBuffer.len at hl; omega)
  have l2 : (writeBits (writeBits b.bits f 3 p) (f + 3) row.bits1 n1).length = b.bits.length := by
    rw [writeBits_length _ (by rw [l1]; unfold BitBuffer.len at hl; omega), l1]
  have w1 : writeField b (f : Int) 3 1 64 p = .ok (writeBits b.bits f 3 p) :=
    writeField_ok (n := 3) hv (by omega) (by omega) (by omega) hp
  have w2 := writeField_ok (b := { b with bits := writeBits b.bits f 3 p }) (f := f + 3) (n := row.bits1) (nmin := 1)
    (nmax := 64) (v := n1) hv (by omega) (by omega) (by simp only [BitBuffer.len, l1] at *; omega) hn1
  have w3 := writeField_ok (b := { b with bits := writeBits (writeBits b.bits f 3 p) (f + 3) row.bits1 n1 })
    (f := f + 3 + row.bits1) (n := row.bits2) (nmin := 1)
    (nmax := 64) (v := n2) hv (by omega) (by omega) (by simp only [BitBuffer.len, l2] at *; omega) hn2
  simp only [Nat.cast_add, Nat.cast_ofNat] at w2 w3
  simp [partEncodeWrite, w1, w2, w3]

theorem partEncodeWrite_length {b : BitBuffer} {f : Int} {row : PartRow} {p n1 n2 : Nat} {bits : List Bool}
    (h : partEncodeWrite b f row p n1 n2 = .ok bits) : bits.length = b.len := by
  unfold partEncodeWrite at h
  split at h
  · simp at h
  rename_i b1 h1
  split at h
  · simp at h
  rename_i b2 h2
  rw [writeField_length h]
  have e2 := writeField_length h2
  have e1 := writeField_length h1
  simp only [BitBuffer.len] at *
  omega

theorem partEncodeWrite_cause {b : BitBuffer} {f : Int} {row : PartRow} {p n1 n2 : Nat} {e : Exc} (hv : b.valid = true)
    (h : partEncodeWrite b f row p n1 n2 = .error e) : e.cause ≠ .noBuffer := by
  unfold partEncodeWrite at h
  rcases h1 : writeField b f 3 1 64 p with e1 | b1 <;> simp only [h1] at h
  · simp at h; subst h; exact writeField_cause hv h1
  rcases h2 : writeField { b with bits := b1 } (f + 3) row.bits1 1 64 n1 with e2 | b2 <;> simp only [h2] at h
  · simp at h; subst h; exact writeField_cause (b := { b with bits := b1 }) hv h2
  · exact writeField_cause (b := { b with bits := b2 }) hv h

/-! ## The septet procedures -/

/-- `CheckSeptetField` passes exactly for whole septets inside a valid buffer (R211). -/
theorem checkSeptetField_eq_none_iff (b : BitBuffer) (f n : Int) :
    checkSeptetField b f n = none ↔ b.valid = true ∧ 0 ≤ n ∧ n % 7 = 0 ∧ 0 ≤ f ∧ f + n ≤ b.len := by
  unfold checkSeptetField
  split_ifs <;> simp_all

theorem checkSeptetField_ok {b : BitBuffer} {f k : Nat} (hv : b.valid = true) (hl : f + 7 * k ≤ b.len) :
    checkSeptetField b f (7 * k : Nat) = none := by
  rw [checkSeptetField_eq_none_iff]
  refine ⟨hv, ?_, ?_, ?_, ?_⟩ <;> omega

theorem checkSeptetField_cause {b : BitBuffer} {f n : Int} {e : Exc} (hv : b.valid = true)
    (h : checkSeptetField b f n = some e) : e.cause ≠ .noBuffer := by
  unfold checkSeptetField at h
  split_ifs at h <;> simp_all <;> subst h <;> simp

theorem decodeSeptets_cause {i : Nat} {qs : List Nat} {e : Exc} (h : decodeSeptets i qs = .error e) :
    e.cause = .badEscape := by
  fun_induction decodeSeptets i qs <;> simp_all
  all_goals subst h; rfl

theorem s7Decode_cause {b : BitBuffer} {f n : Int} {e : Exc} (hv : b.valid = true) (h : s7Decode b f n = .error e) :
    e.cause ≠ .noBuffer := by
  unfold s7Decode at h
  split at h
  · rename_i heq; simp at h; subst h; exact checkSeptetField_cause hv heq
  · rw [decodeSeptets_cause h]; decide

@[simp] theorem septets_length (bits : List Bool) (f k : Nat) : (septets bits f k).length = k := by
  induction k generalizing f with
  | zero => rfl
  | succ k ih => simp [septets, ih]

theorem septets_getElem? {bits : List Bool} {f k i : Nat} (h : i < k) :
    (septets bits f k)[i]? = some (readBits bits (f + 7 * i) 7) := by
  induction k generalizing f i with
  | zero => omega
  | succ k ih =>
    cases i with
    | zero => simp [septets]
    | succ i =>
      simp only [septets, List.getElem?_cons_succ, ih (show i < k by omega)]
      congr 2
      omega

/-- The write loop writes the characters one after the other and keeps the length (R215, R34). -/
theorem writeSeptets_length {bits : List Bool} {f k : Nat} {s : Str} {bits' : List Bool}
    (h : writeSeptets bits f k s = .ok bits') (hl : f + 7 * k ≤ bits.length) : bits'.length = bits.length := by
  induction k generalizing bits f s with
  | zero => simp [writeSeptets] at h; rw [← h]
  | succ k ih =>
    cases s with
    | nil => simp [writeSeptets] at h; rw [← h]
    | cons c rest =>
      simp only [writeSeptets] at h
      split at h
      · simp at h
      · have e := writeBits_length (bits := bits) (f := f) (n := 7) (nextChar c rest).1 (by omega)
        rw [ih h (by rw [e]; omega), e]

theorem writeSeptets_cause {bits : List Bool} {f k : Nat} {s : Str} {e : Exc}
    (h : writeSeptets bits f k s = .error e) : e.cause = .valueOverflow := by
  induction k generalizing bits f s with
  | zero => simp [writeSeptets] at h
  | succ k ih =>
    cases s with
    | nil => simp [writeSeptets] at h
    | cons c rest =>
      simp only [writeSeptets] at h
      split at h
      · rename_i heq; simp at h; subst h
        unfold checkValue at heq; split_ifs at heq; simp at heq; subst heq; rfl
      · exact ih h

/-! ## Memory -/

/-- A buffer within the capacity has the memory's form. -/
theorem Memory.wf_of_within {cfg : Config} {bits : List Bool} {v : Bool} (h : withinCapacity cfg bits.length = true) :
    Memory.wf cfg { bits := bits, valid := v } = true := by
  unfold Memory.wf withinCapacity at *
  split <;> simp_all [BitBuffer.len]

/-- An invalid buffer has the memory's form, whatever it holds. -/
theorem Memory.wf_invalid (cfg : Config) (bits : List Bool) : Memory.wf cfg { bits := bits, valid := false } = true := by
  unfold Memory.wf; split <;> simp

/-- A write that keeps the length keeps the memory's form. -/
theorem Memory.wf_of_length {cfg : Config} {b : BitBuffer} {bits : List Bool} {v : Bool} (h : Memory.wf cfg b = true)
    (hv : b.valid = true) (hl : bits.length = b.len) : Memory.wf cfg { bits := bits, valid := v } = true := by
  unfold Memory.wf at *
  rcases hc : cfg.bbMaxBits with _ | m
  · rfl
  · simp only [hc, hv, BitBuffer.len, Bool.not_true, Bool.false_or] at h hl
    have h : b.bits.length ≤ m := of_decide_eq_true h
    simp [BitBuffer.len, hl, h]

/-- A checked write keeps the memory's form. -/
theorem writeField_wf {cfg : Config} {b : BitBuffer} {f n : Int} {nmin nmax v : Nat} {bits : List Bool}
    (hw : Memory.wf cfg b = true) (h : writeField b f n nmin nmax v = .ok bits) :
    Memory.wf cfg { bits := bits, valid := true } = true :=
  Memory.wf_of_length hw (writeField_valid h) (writeField_length h)

/-- The partition writes keep the memory's form. -/
theorem partEncodeWrite_wf {cfg : Config} {b : BitBuffer} {f : Int} {row : PartRow} {p n1 n2 : Nat} {bits : List Bool}
    (hw : Memory.wf cfg b = true) (hv : b.valid = true) (h : partEncodeWrite b f row p n1 n2 = .ok bits) :
    Memory.wf cfg { bits := bits, valid := true } = true :=
  Memory.wf_of_length hw hv (partEncodeWrite_length h)

/-- The septet writes keep the memory's form. -/
theorem writeSeptets_wf {cfg : Config} {b : BitBuffer} {f k : Nat} {s : Str} {bits : List Bool}
    (hw : Memory.wf cfg b = true) (hv : b.valid = true) (hl : f + 7 * k ≤ b.len)
    (h : writeSeptets b.bits f k s = .ok bits) : Memory.wf cfg { bits := bits, valid := true } = true :=
  Memory.wf_of_length hw hv (writeSeptets_length h hl)

/-- The memory of the reset state has its form. -/
theorem State.reset_wf : Memory.wf State.reset.cfg State.reset.bb = true := by decide

end Sys2Proof.Machine
end

