-- ==== Sys2Proof/Laws/Fields.lean ====
section
/-! SUPPORT. Laws that join the statements' words (Safety.lean) to the operations: the sum of R10 is what a field read
gives, the spelled string is what the septet loop gives, the written characters are what the write loop writes. -/

namespace Sys2Proof.Machine

/-! ## The sum of R10 -/

theorem bitsToNat_eq_sum (l : List Bool) :
    bitsToNat l = ((List.range l.length).map fun i => (l.getD i false).toNat * 2 ^ (l.length - 1 - i)).sum := by
  induction l with
  | nil => rfl
  | cons b bs ih =>
    rw [bitsToNat, ih, List.length_cons, List.range_succ_eq_map, List.map_cons, List.sum_cons, List.map_map]
    congr 1
    apply congrArg List.sum
    apply List.map_congr_left
    intro i _
    have : bs.length - 1 - i = bs.length - (i + 1) := by omega
    simp [this]

/-- What a field read gives is the sum of R10, for a field inside the buffer (R62). -/
theorem readBits_eq_fieldValue {bits : List Bool} {f n : Nat} (h : f + n ≤ bits.length) :
    readBits bits f n = fieldValue bits f n := by
  have hl : ((bits.drop f).take n).length = n := by simp; omega
  rw [readBits, bitsToNat_eq_sum, hl, fieldValue]
  apply congrArg List.sum
  apply List.map_congr_left
  intro i hi
  have hi : i < n := List.mem_range.mp hi
  simp [List.getD_eq_getElem?_getD, hi]

theorem fieldValue_lt {bits : List Bool} {f n : Nat} (h : f + n ≤ bits.length) : fieldValue bits f n < 2 ^ n := by
  rw [← readBits_eq_fieldValue h]; exact readBits_lt ..

/-- The septets of R210 are the septets read. -/
theorem septets_eq_fieldSeptets {bits : List Bool} {f k : Nat} (h : f + 7 * k ≤ bits.length) :
    septets bits f k = fieldSeptets bits f k := by
  apply List.ext_getElem?
  intro i
  by_cases hi : i < k
  · rw [septets_getElem? hi, readBits_eq_fieldValue (by omega)]
    simp [fieldSeptets, hi]
  · simp [fieldSeptets, hi]

/-! ## Reading strings -/

/-- The loop over a plain character (R212). -/
theorem decodeSeptets_char {i c : Nat} {rest : List Nat} (h0 : c ≠ 0) (h1 : c ≠ 0x25) :
    decodeSeptets i (c :: rest) = (decodeSeptets (i + 1) rest).map (c :: ·) := by
  rw [decodeSeptets.eq_def]
  simp only [h0, h1, if_false]
  rcases decodeSeptets (i + 1) rest <;> rfl

/-- The loop over `%` and two characters (R212). -/
theorem decodeSeptets_escape (i h1 h2 : Nat) (rest : List Nat) :
    decodeSeptets i (0x25 :: h1 :: h2 :: rest) = if isHex h1 = true ∧ isHex h2 = true then
      (decodeSeptets (i + 3) rest).map ((16 * hexval h1 + hexval h2) :: ·) else .error ⟨.badEscape, i, 1⟩ := by
  rw [decodeSeptets.eq_def]
  simp only [Bool.and_eq_true, show ¬(0x25 : Nat) = 0 by decide, if_false, if_true]
  split
  · rcases decodeSeptets (i + 3) rest <;> rfl
  · rfl

/-- The loop over a `%` the field cuts off (R212). -/
theorem decodeSeptets_cutOff {i : Nat} {rest : List Nat} (h : rest.length < 2) :
    decodeSeptets i (0x25 :: rest) = .error ⟨.badEscape, i, 0⟩ := by
  match rest, h with
  | [], _ => rfl
  | [a], _ => rfl
  | a :: b :: r, h => simp at h

/-- The loop answers a string exactly when the septets spell it (R212). -/
theorem decodeSeptets_eq_ok_iff (i : Nat) (qs : List Nat) (out : Str) :
    decodeSeptets i qs = .ok out ↔ Spells qs out := by
  constructor
  · intro h
    fun_induction decodeSeptets i qs generalizing out with
    | case1 => simp at h; subst h; exact .fieldEnd
    | case2 => simp at h; subst h; exact .terminator _
    | case3 i h1 h2 rest hx out' heq hne ih =>
      simp at h; subst h
      simp only [Bool.and_eq_true] at hx
      exact .escape _ _ _ _ hx.1 hx.2 (ih _ heq)
    | case4 => simp at h
    | case5 => simp at h
    | case6 => simp at h
    | case7 i c rest h0 h1 out' heq ih => simp at h; subst h; exact .char _ _ _ h0 h1 (ih _ heq)
    | case8 => simp at h
  · intro h
    induction h generalizing i with
    | fieldEnd => rfl
    | terminator => rw [decodeSeptets.eq_def]; rfl
    | char c rest out h0 h1 _ ih => simp [decodeSeptets_char h0 h1, ih, Except.map]
    | escape h1 h2 rest out hx hy _ ih => simp [decodeSeptets_escape, hx, hy, ih, Except.map]

/-- The loop raises exactly BAD_ESCAPE at the septet where there is a bad escape (R212). -/
theorem decodeSeptets_of_badEscape {i : Nat} {qs : List Nat} {j why : Nat} (h : BadEscapeAt i qs j why) :
    decodeSeptets i qs = .error ⟨.badEscape, j, why⟩ := by
  induction h with
  | cutOff i rest h => exact decodeSeptets_cutOff h
  | notHex i h1 h2 rest h => rw [decodeSeptets_escape, if_neg h]
  | char i c rest j why h0 h1 _ ih => simp [decodeSeptets_char h0 h1, ih, Except.map]
  | escape i h1 h2 rest j why hx hy _ ih => simp [decodeSeptets_escape, hx, hy, ih, Except.map]

/-- Every run of septets spells a string or has a bad escape. -/
theorem spells_or_badEscape (i : Nat) (qs : List Nat) :
    (∃ out, Spells qs out) ∨ ∃ j why, BadEscapeAt i qs j why := by
  fun_induction decodeSeptets i qs with
  | case1 => exact .inl ⟨_, .fieldEnd⟩
  | case2 => exact .inl ⟨_, .terminator _⟩
  | case3 i h1 h2 rest hx out' heq hne ih =>
    simp only [Bool.and_eq_true] at hx
    exact .inl ⟨_, .escape _ _ _ _ hx.1 hx.2 ((decodeSeptets_eq_ok_iff _ _ _).mp heq)⟩
  | case4 i h1 h2 rest hx e heq hne ih =>
    simp only [Bool.and_eq_true] at hx
    rcases ih with ⟨out, h⟩ | ⟨j, why, h⟩
    · exact .inl ⟨_, .escape _ _ _ _ hx.1 hx.2 h⟩
    · exact .inr ⟨_, _, .escape _ _ _ _ _ _ hx.1 hx.2 h⟩
  | case5 i h1 h2 rest hx =>
    exact .inr ⟨_, _, .notHex _ _ _ _ (by simpa using hx)⟩
  | case6 i rest hno hne =>
    refine .inr ⟨_, _, .cutOff _ _ ?_⟩
    match rest, hno with
    | [], _ => simp
    | [a], _ => simp
    | a :: b :: r, h => exact absurd rfl (h a b r)
  | case7 i c rest h0 h1 out' heq ih =>
    exact .inl ⟨_, .char _ _ _ h0 h1 ((decodeSeptets_eq_ok_iff _ _ _).mp heq)⟩
  | case8 i c rest h0 h1 e heq ih =>
    rcases ih with ⟨out, h⟩ | ⟨j, why, h⟩
    · exact .inl ⟨_, .char _ _ _ h0 h1 h⟩
    · exact .inr ⟨_, _, .char _ _ _ _ _ h0 h1 h⟩

/-! ## Writing strings -/

theorem nextChar_escape {h1 h2 : Nat} (rest : Str) (hx : isHex h1 = true) (hy : isHex h2 = true) :
    nextChar 0x25 (h1 :: h2 :: rest) = (16 * hexval h1 + hexval h2, rest) := by
  simp [nextChar, hx, hy]

theorem nextChar_char {c : Nat} {rest : Str}
    (h : ∀ h1 h2 rest', c = 0x25 → rest = h1 :: h2 :: rest' → ¬(isHex h1 = true ∧ isHex h2 = true)) :
    nextChar c rest = (c, rest) := by
  unfold nextChar
  split
  · rename_i h1 h2 rest'
    rw [if_neg]
    rintro ⟨hc, hx⟩
    exact h h1 h2 rest' hc rfl hx
  · rfl

/-- Every input gives characters to write (R214). -/
theorem encodesAs_exists : (s : Str) → ∃ cs, EncodesAs s cs
  | [] => ⟨[], .done⟩
  | [c] => ⟨[c], .char _ _ _ (by intros; simp_all) .done⟩
  | [c, d] => ⟨[c, d], .char _ _ _ (by intros; simp_all) (.char _ _ _ (by intros; simp_all) .done)⟩
  | c :: h1 :: h2 :: rest => by
    by_cases h : c = 0x25 ∧ isHex h1 = true ∧ isHex h2 = true
    · obtain ⟨rfl, hx, hy⟩ := h
      obtain ⟨cs, hcs⟩ := encodesAs_exists rest
      exact ⟨_, .escape _ _ _ _ hx hy hcs⟩
    · obtain ⟨cs, hcs⟩ := encodesAs_exists (h1 :: h2 :: rest)
      refine ⟨_, .char c _ _ ?_ hcs⟩
      rintro a b r rfl heq hx
      simp only [List.cons.injEq] at heq
      obtain ⟨rfl, rfl, rfl⟩ := heq
      exact h ⟨rfl, hx⟩

/-- An input without `%` is its own characters (R219). -/
theorem encodesAs_self {s : Str} (h : ∀ c ∈ s, c ≠ 0x25) : EncodesAs s s := by
  induction s with
  | nil => exact .done
  | cons c rest ih =>
    exact .char _ _ _ (fun _ _ _ hc => absurd hc (h c (by simp))) (ih fun d hd => h d (by simp [hd]))

/-- One turn of the write loop for a character of seven bits (R215). -/
theorem writeSeptets_step {bits : List Bool} {f k c : Nat} {rest : Str} (h : (nextChar c rest).1 ≤ 127) :
    writeSeptets bits f (k + 1) (c :: rest) =
      writeSeptets (writeBits bits f 7 (nextChar c rest).1) (f + 7) k (nextChar c rest).2 := by
  have : checkValue (nextChar c rest).1 7 = none := (checkValue_eq_none_iff _ _).mpr (by omega)
  simp [writeSeptets, this]

/-- One turn of the write loop for a larger character (R215). -/
theorem writeSeptets_stop {bits : List Bool} {f k c : Nat} {rest : Str} (h : 127 < (nextChar c rest).1) :
    writeSeptets bits f (k + 1) (c :: rest) = .error ⟨.valueOverflow, (nextChar c rest).1, 7⟩ := by
  have : checkValue (nextChar c rest).1 7 = some ⟨.valueOverflow, (nextChar c rest).1, 7⟩ := by
    unfold checkValue; rw [if_pos (by omega)]
  simp [writeSeptets, this]

/-- What one written character contributes, given what the rest of the loop does. -/
theorem septets_cons {bits bits' : List Bool} {f k v : Nat} {cs : List Nat} (hl : f + 7 * (k + 1) ≤ bits.length)
    (hv : v ≤ 127) (hlen : bits'.length = (writeBits bits f 7 v).length)
    (hr : ∀ i c, cs[i]? = some c → readBits bits' (f + 7 + 7 * i) 7 = c)
    (ho : ∀ a, a < f + 7 ∨ f + 7 + 7 * cs.length ≤ a → bits'[a]? = (writeBits bits f 7 v)[a]?) :
    bits'.length = bits.length ∧ (∀ i c, (v :: cs)[i]? = some c → readBits bits' (f + 7 * i) 7 = c) ∧
      ∀ a, a < f ∨ f + 7 * (v :: cs).length ≤ a → bits'[a]? = bits[a]? := by
  refine ⟨by rw [hlen, writeBits_length _ (by omega)], ?_, ?_⟩
  · intro i c hi
    cases i with
    | zero =>
      simp only [List.getElem?_cons_zero, Option.some.injEq] at hi
      subst hi
      rw [readBits_congr (b := writeBits bits f 7 v) fun j h1 h2 => ho j (by omega)]
      exact readBits_writeBits_same (by omega) (by omega)
    | succ i =>
      rw [List.getElem?_cons_succ] at hi
      rw [← hr i c hi]
      congr 1
      omega
  · intro a ha
    rw [List.length_cons] at ha
    rw [ho a (by omega), writeBits_getElem? _ _ (by omega), if_neg (by omega)]

/-- Everything the write loop does when the characters it comes to have seven bits (R215). -/
theorem writeSeptets_ok {s : Str} {cs : List Nat} (he : EncodesAs s cs) {bits : List Bool} {f k : Nat}
    (hl : f + 7 * k ≤ bits.length) (hc : ∀ c ∈ cs.take k, c ≤ 127) :
    ∃ bits', writeSeptets bits f k s = .ok bits' ∧ bits'.length = bits.length ∧
      (∀ i c, (cs.take k)[i]? = some c → readBits bits' (f + 7 * i) 7 = c) ∧
      ∀ a, a < f ∨ f + 7 * (cs.take k).length ≤ a → bits'[a]? = bits[a]? := by
  induction he generalizing bits f k with
  | done => cases k <;> exact ⟨bits, rfl, rfl, by simp, by simp⟩
  | escape h1 h2 rest out hx hy _ ih =>
    cases k with
    | zero => exact ⟨bits, rfl, rfl, by simp, by simp⟩
    | succ k =>
      have e := nextChar_escape rest hx hy
      have hv : 16 * hexval h1 + hexval h2 ≤ 127 := hc _ (by simp)
      rw [writeSeptets_step (by rw [e]; exact hv), e]
      obtain ⟨bits', h, hlen, hr, ho⟩ := ih (bits := writeBits bits f 7 (16 * hexval h1 + hexval h2)) (f := f + 7) (k := k)
        (by rw [writeBits_length _ (by omega)]; omega) (fun d h => hc d (by rw [List.take_succ_cons]; exact List.mem_cons_of_mem _ h))
      exact ⟨bits', h, septets_cons hl hv hlen hr ho⟩
  | char c rest out hno _ ih =>
    cases k with
    | zero => exact ⟨bits, rfl, rfl, by simp, by simp⟩
    | succ k =>
      have e := nextChar_char hno
      have hv : c ≤ 127 := hc _ (by simp)
      rw [writeSeptets_step (by rw [e]; exact hv), e]
      obtain ⟨bits', h, hlen, hr, ho⟩ := ih (bits := writeBits bits f 7 c) (f := f + 7) (k := k)
        (by rw [writeBits_length _ (by omega)]; omega) (fun d h => hc d (by rw [List.take_succ_cons]; exact List.mem_cons_of_mem _ h))
      exact ⟨bits', h, septets_cons hl hv hlen hr ho⟩

/-- Where the write loop stops (R215). -/
theorem writeSeptets_overflow {s : Str} {good bad : List Nat} {c : Nat} (he : EncodesAs s (good ++ c :: bad))
    {bits : List Bool} {f k : Nat} (hg : ∀ d ∈ good, d ≤ 127) (hc : 127 < c) (hk : good.length < k) :
    writeSeptets bits f k s = .error ⟨.valueOverflow, c, 7⟩ := by
  generalize hcs : good ++ c :: bad = cs at he
  induction he generalizing bits f k good with
  | done => simp at hcs
  | escape h1 h2 rest out hx hy _ ih =>
    obtain ⟨k, rfl⟩ : ∃ m, k = m + 1 := ⟨k - 1, by omega⟩
    have e := nextChar_escape rest hx hy
    cases good with
    | nil =>
      simp only [List.nil_append, List.cons.injEq] at hcs
      rw [writeSeptets_stop (by rw [e]; simp only [← hcs.1]; exact hc), e, hcs.1]
    | cons g good =>
      simp only [List.cons_append, List.cons.injEq] at hcs
      rw [writeSeptets_step (by rw [e]; simp only [← hcs.1]; exact hg g (by simp)), e]
      exact ih (fun d hd => hg d (by simp [hd])) (by simp at hk; omega) hcs.2
  | char a rest out hno _ ih =>
    obtain ⟨k, rfl⟩ : ∃ m, k = m + 1 := ⟨k - 1, by omega⟩
    have e := nextChar_char hno
    cases good with
    | nil =>
      simp only [List.nil_append, List.cons.injEq] at hcs
      rw [writeSeptets_stop (by rw [e]; simp only [← hcs.1]; exact hc), e, hcs.1]
    | cons g good =>
      simp only [List.cons_append, List.cons.injEq] at hcs
      rw [writeSeptets_step (by rw [e]; simp only [← hcs.1]; exact hg g (by simp)), e]
      exact ih (fun d hd => hg d (by simp [hd])) (by simp at hk; omega) hcs.2

end Sys2Proof.Machine
end

