-- ==== Sys2Proof/Laws/Tag.lean ====
section
/-! SUPPORT. Laws of the tag procedures (R261, R262): what loading, reading, checking and writing can answer. -/

namespace Sys2Proof.Machine

/-- The partition table of every scheme is one of the two. -/
theorem schemeTable_cases (sch : Scheme) : schemeTable sch = ptSgtin ∨ schemeTable sch = ptSscc := by
  cases sch <;> simp [schemeTable, schemeDesc]

/-- What the scheme's rows leave: both fields end at bit 58 or 72, inside the scheme. -/
theorem schemeTable_row {sch : Scheme} {p : Nat} {row : PartRow} (h : (schemeTable sch)[p]? = some row) :
    14 + row.bits1 + row.bits2 = if sch = .sscc96 then 72 else 58 := by
  cases sch
  · have := ptSgtin_row (p := p) (row := row) h; simp; omega
  · have := ptSgtin_row (p := p) (row := row) h; simp; omega
  · have := ptSscc_row (p := p) (row := row) h; simp; omega

/-! ## Loading and reading (R261) -/

/-- Loading answers a buffer exactly for a text of the scheme's length in hex digits. -/
theorem tagLoad_eq_ok_iff (sch : Scheme) (text : Str) (sb : BitBuffer) :
    tagLoad sch text = .ok sb ↔ text.length = (schemeDesc sch).hexLength ∧ (∀ c ∈ text, isHex c = true) ∧
      sb = { bits := hexBits text, valid := true } := by
  unfold tagLoad
  split_ifs with h
  · simp [h]
  · rcases hf : firstNonHex 0 text with _ | ⟨k, c⟩
    · have := (firstNonHex_none 0 text).mp hf
      simp only [Except.ok.injEq]
      constructor
      · rintro rfl; exact ⟨not_not.mp h, this, rfl⟩
      · rintro ⟨-, -, rfl⟩; rfl
    · simp only [reduceCtorEq, false_iff, not_and]
      intro _ ha
      have := (firstNonHex_none 0 text).mpr ha
      rw [this] at hf; simp at hf

theorem tagLoad_cause {sch : Scheme} {text : Str} {e : Exc} (h : tagLoad sch text = .error e) :
    e.cause ≠ .noBuffer := by
  unfold tagLoad at h
  split_ifs at h
  · simp at h; subst h; simp
  · split at h
    · simp at h; subst h; simp
    · simp at h

/-- What reading says first when it answers a value. -/
theorem tagRead_cause {sch : Scheme} {sb : BitBuffer} {e : Exc} (hv : sb.valid = true) (h : tagRead sch sb = .error e) :
    e.cause ≠ .noBuffer := by
  unfold tagRead at h
  split_ifs at h
  · simp at h; subst h; simp
  · split at h
    · rename_i heq; simp at h; subst h; exact partDecode_cause hv heq
    · cases sch <;> simp only at h
      · simp at h
      · split at h
        · rename_i heq; simp at h; subst h; exact s7Decode_cause hv heq
        · simp at h
      · simp at h

/-! ## Checking and writing (R262) -/

theorem serialCheck_eq_ok_iff (serial : Str) (n : Nat) :
    serialCheck serial = .ok n ↔ parseDec serial = some n ∧ n < 2 ^ 38 ∧ serial = dec n := by
  unfold serialCheck
  rcases h : parseDec serial with _ | m
  · simp
  · simp only [Option.some.injEq]
    split_ifs with hc
    · simp only [false_iff, not_and]
      rintro rfl h1 h2
      rcases hc with hc | hc
      · omega
      · exact hc h2
    · simp only [Except.ok.injEq]
      constructor
      · rintro rfl
        refine ⟨rfl, ?_, ?_⟩
        · by_contra hh; exact hc (.inl (by omega))
        · by_contra hh; exact hc (.inr hh)
      · exact fun h => h.1

theorem serialCheck_error {serial : Str} {e : Exc} (h : serialCheck serial = .error e) : e = ⟨.serial, 0, 0⟩ := by
  unfold serialCheck at h
  split at h
  · simp at h; exact h.symm
  · split_ifs at h; simp at h; exact h.symm

/-- The serial number the checks find (R266); 0 for the schemes without a serial check. -/
def tagSerialNumber : TagValue → Except Exc Nat
  | .sgtin96 _ _ _ _ serial => serialCheck serial
  | .sgtin198 .. => .ok 0
  | .sscc96 .. => .ok 0

/-- Everything the checks of `TagEncode` say when they pass (R262). -/
theorem tagCheck_eq_ok_iff (sch : Scheme) (t : TagValue) (x : TagFields) :
    tagCheck sch t = .ok x ↔ tagFilter t ≤ 7 ∧ len2part (tagCompanyPrefix t).length = some x.partition ∧
      (schemeTable sch)[x.partition]? = some x.row ∧
      (stripZ (tagCompanyPrefix t)).length ≤ x.row.digits1 ∧ (stripZ (tagField2 t)).length ≤ x.row.digits2 ∧
      parseDec (tagCompanyPrefix t) = some x.n1 ∧ parseDec (tagField2 t) = some x.n2 ∧
      tagSerialNumber t = .ok x.serial := by
  obtain ⟨xp, xrow, x1, x2, xs⟩ := x
  unfold tagCheck
  split_ifs with hf
  · simp; omega
  · rcases hl : len2part (tagCompanyPrefix t).length with _ | p
    · simp
    · simp only
      rcases hc : partEncodeCheck (schemeTable sch) p (tagCompanyPrefix t) (tagField2 t) with e | ⟨row, n1, n2⟩
      · simp only [reduceCtorEq, false_iff]
        rintro ⟨-, h2, h3, h4, h5, h6, h7, -⟩
        simp only [Option.some.injEq] at h2
        subst h2
        have := (partEncodeCheck_eq_ok_iff (schemeTable sch) p (tagCompanyPrefix t) (tagField2 t) xrow x1 x2).mpr
          ⟨h3, h4, h5, h6, h7⟩
        rw [this] at hc; simp at hc
      · have hcc := (partEncodeCheck_eq_ok_iff _ _ _ _ _ _ _).mp hc
        obtain ⟨a1, a2, a3, a4, a5⟩ := hcc
        have hf : tagFilter t ≤ 7 := by omega
        have fin : ∀ m, (Except.ok (ε := Exc) (TagFields.mk p row n1 n2 m) = .ok ⟨xp, xrow, x1, x2, xs⟩) ↔
            tagFilter t ≤ 7 ∧ some p = some xp ∧ (schemeTable sch)[xp]? = some xrow ∧
            (stripZ (tagCompanyPrefix t)).length ≤ xrow.digits1 ∧ (stripZ (tagField2 t)).length ≤ xrow.digits2 ∧
            parseDec (tagCompanyPrefix t) = some x1 ∧ parseDec (tagField2 t) = some x2 ∧
            Except.ok (ε := Exc) m = .ok xs := by
          intro m
          simp only [Except.ok.injEq, TagFields.mk.injEq, Option.some.injEq]
          constructor
          · rintro ⟨rfl, rfl, rfl, rfl, rfl⟩; exact ⟨hf, rfl, a1, a2, a3, a4, a5, rfl⟩
          · rintro ⟨-, rfl, h3, -, -, h6, h7, rfl⟩
            rw [a1, Option.some.injEq] at h3
            rw [a4, Option.some.injEq] at h6
            rw [a5, Option.some.injEq] at h7
            exact ⟨rfl, h3, h6, h7, rfl⟩
        cases t with
        | sgtin96 f q cp f2 serial =>
          simp only [tagSerialNumber]
          rcases hs : serialCheck serial with e | m
          · simp
          · exact fin m
        | sgtin198 => exact fin 0
        | sscc96 => exact fin 0

theorem tagCheck_cause {sch : Scheme} {t : TagValue} {e : Exc} (h : tagCheck sch t = .error e) :
    e.cause ≠ .noBuffer := by
  unfold tagCheck at h
  split_ifs at h
  · simp at h; subst h; simp
  · split at h
    · simp at h; subst h; simp
    · split at h
      · rename_i heq; simp at h; subst h; exact partEncodeCheck_cause heq
      · cases t with
        | sgtin96 f q cp f2 serial =>
          simp only at h
          split at h
          · rename_i heq; simp at h; subst h; rw [serialCheck_error heq]; simp
          · simp at h
        | sgtin198 => simp at h
        | sscc96 => simp at h

/-- The bits of the header, the filter and the partition fields (R262 before the serial write). -/
def tagHead (sch : Scheme) (filter : Nat) (x : TagFields) : List Bool :=
  let zero := List.replicate (schemeDesc sch).totalBits.toNat false
  let header := writeBits zero 0 8 (schemeDesc sch).binaryHeader.toNat
  let filtered := writeBits header 8 3 filter
  writeBits (writeBits (writeBits filtered 11 3 x.partition) 14 x.row.bits1 x.n1) (14 + x.row.bits1) x.row.bits2 x.n2

/-- What a check passed says about the numbers to write: every one fits its field. -/
structure TagFieldsFit (sch : Scheme) (x : TagFields) : Prop where
  row : (schemeTable sch)[x.partition]? = some x.row
  n1 : x.n1 < 2 ^ x.row.bits1
  n2 : x.n2 < 2 ^ x.row.bits2

theorem tagCheck_fits {sch : Scheme} {t : TagValue} {x : TagFields} (h : tagCheck sch t = .ok x) :
    TagFieldsFit sch x := by
  obtain ⟨-, -, h3, h4, h5, h6, h7, -⟩ := (tagCheck_eq_ok_iff _ _ _).mp h
  obtain ⟨-, -, -, -, -, -, -, r1, r2, -⟩ := table_row (schemeTable_cases sch) h3
  exact ⟨h3, field_fits h6 h4 r1, field_fits h7 h5 r2⟩

theorem totalBits_ge (sch : Scheme) {p : Nat} {row : PartRow} (h : (schemeTable sch)[p]? = some row) :
    14 + row.bits1 + row.bits2 ≤ (schemeDesc sch).totalBits.toNat := by
  have := schemeTable_row h
  cases sch <;> simp [schemeDesc] at this ⊢ <;> omega

/-- Everything the header, filter and partition writes leave: the fields, and zeros after them (R262, R101 to R104). -/
theorem tagHead_spec {sch : Scheme} {x : TagFields} (hx : TagFieldsFit sch x) {filter : Nat} (hf : filter ≤ 7) :
    (tagHead sch filter x).length = (schemeDesc sch).totalBits.toNat ∧
    readBits (tagHead sch filter x) 0 8 = (schemeDesc sch).binaryHeader.toNat ∧
    readBits (tagHead sch filter x) 8 3 = filter ∧ readBits (tagHead sch filter x) 11 3 = x.partition ∧
    readBits (tagHead sch filter x) 14 x.row.bits1 = x.n1 ∧
    readBits (tagHead sch filter x) (14 + x.row.bits1) x.row.bits2 = x.n2 ∧
    ∀ a, 14 + x.row.bits1 + x.row.bits2 ≤ a → a < (schemeDesc sch).totalBits.toNat →
      (tagHead sch filter x)[a]? = some false := by
  have ht := totalBits_ge sch hx.row
  obtain ⟨hp, -⟩ := table_row (schemeTable_cases sch) hx.row
  have hh : (schemeDesc sch).binaryHeader.toNat < 2 ^ 8 := (schemeDesc sch).binaryHeader.isLt
  unfold tagHead
  simp only
  generalize hz : List.replicate (schemeDesc sch).totalBits.toNat false = zero
  have l0 : zero.length = (schemeDesc sch).totalBits.toNat := by rw [← hz]; simp
  generalize h1 : writeBits zero 0 8 (schemeDesc sch).binaryHeader.toNat = b1
  have l1 : b1.length = (schemeDesc sch).totalBits.toNat := by rw [← h1, writeBits_length _ (by omega), l0]
  generalize h2 : writeBits b1 8 3 filter = b2
  have l2 : b2.length = (schemeDesc sch).totalBits.toNat := by rw [← h2, writeBits_length _ (by omega), l1]
  generalize h3 : writeBits b2 11 3 x.partition = b3
  have l3 : b3.length = (schemeDesc sch).totalBits.toNat := by rw [← h3, writeBits_length _ (by omega), l2]
  generalize h4 : writeBits b3 14 x.row.bits1 x.n1 = b4
  have l4 : b4.length = (schemeDesc sch).totalBits.toNat := by rw [← h4, writeBits_length _ (by omega), l3]
  refine ⟨by rw [writeBits_length _ (by omega), l4], ?_, ?_, ?_, ?_, ?_, ?_⟩
  · rw [readBits_writeBits_disjoint _ (by omega) (by omega), ← h4, readBits_writeBits_disjoint _ (by omega) (by omega),
      ← h3, readBits_writeBits_disjoint _ (by omega) (by omega), ← h2,
      readBits_writeBits_disjoint _ (by omega) (by omega), ← h1, readBits_writeBits_same (by omega) hh]
  · rw [readBits_writeBits_disjoint _ (by omega) (by omega), ← h4, readBits_writeBits_disjoint _ (by omega) (by omega),
      ← h3, readBits_writeBits_disjoint _ (by omega) (by omega), ← h2, readBits_writeBits_same (by omega) (by omega)]
  · rw [readBits_writeBits_disjoint _ (by omega) (by omega), ← h4, readBits_writeBits_disjoint _ (by omega) (by omega),
      ← h3, readBits_writeBits_same (by omega) (by omega)]
  · rw [readBits_writeBits_disjoint _ (by omega) (by omega), ← h4, readBits_writeBits_same (by omega) hx.n1]
  · exact readBits_writeBits_same (by omega) hx.n2
  · intro a ha hb
    rw [writeBits_getElem? _ _ (by omega), if_neg (by omega), ← h4, writeBits_getElem? _ _ (by omega),
      if_neg (by omega), ← h3, writeBits_getElem? _ _ (by omega), if_neg (by omega), ← h2,
      writeBits_getElem? _ _ (by omega), if_neg (by omega), ← h1, writeBits_getElem? _ _ (by omega),
      if_neg (by omega), ← hz, List.getElem?_replicate, if_pos hb]

theorem tagHead_length {sch : Scheme} {x : TagFields} (hx : TagFieldsFit sch x) (filter : Nat) :
    (tagHead sch filter x).length = (schemeDesc sch).totalBits.toNat := by
  have ht := totalBits_ge sch hx.row
  have h0 : (List.replicate (schemeDesc sch).totalBits.toNat false).length = (schemeDesc sch).totalBits.toNat := by simp
  have h1 := writeBits_length (bits := List.replicate (schemeDesc sch).totalBits.toNat false) (f := 0) (n := 8)
    (schemeDesc sch).binaryHeader.toNat (by omega)
  have h2 := writeBits_length (f := 8) (n := 3) filter (by omega : 8 + 3 ≤ (writeBits
    (List.replicate (schemeDesc sch).totalBits.toNat false) 0 8 (schemeDesc sch).binaryHeader.toNat).length)
  unfold tagHead
  simp only
  generalize writeBits (writeBits (List.replicate (schemeDesc sch).totalBits.toNat false) 0 8
    (schemeDesc sch).binaryHeader.toNat) 8 3 filter = b at h2 ⊢
  have h3 := writeBits_length (bits := b) (f := 11) (n := 3) x.partition (by omega)
  have h4 := writeBits_length (bits := writeBits b 11 3 x.partition) (f := 14) (n := x.row.bits1) x.n1 (by omega)
  rw [writeBits_length _ (by omega), h4, h3, h2, h1, h0]

/-- The writes of `TagEncode` before the serial always succeed (R262). -/
theorem tagWrite_eq {sch : Scheme} {t : TagValue} {x : TagFields} (hx : TagFieldsFit sch x) :
    tagWrite sch t x = (match t with
      | .sgtin96 .. => .ok (writeBits (tagHead sch (tagFilter t) x) 58 38 x.serial)
      | .sgtin198 _ _ _ _ serial => writeSeptets (tagHead sch (tagFilter t) x) 58 20 serial
      | .sscc96 .. => .ok (tagHead sch (tagFilter t) x)) := by
  have ht := totalBits_ge sch hx.row
  obtain ⟨hp, b1, b1', b2, b2', -⟩ := table_row (schemeTable_cases sch) hx.row
  have h0 : (List.replicate (schemeDesc sch).totalBits.toNat false).length = (schemeDesc sch).totalBits.toNat := by simp
  have hw := partEncodeWrite_ok
    (b := { bits := writeBits (writeBits (List.replicate (schemeDesc sch).totalBits.toNat false) 0 8
      (schemeDesc sch).binaryHeader.toNat) 8 3 (tagFilter t), valid := true })
    (f := 11) (p := x.partition) (n1 := x.n1) (n2 := x.n2) (row := x.row) rfl ⟨b1, b1'⟩ ⟨b2, b2'⟩
    (by
      unfold BitBuffer.len
      simp only
      rw [writeBits_length _ (by rw [writeBits_length _ (by omega), h0]; omega), writeBits_length _ (by omega), h0]
      omega) (by omega) hx.n1 hx.n2
  simp only [Nat.cast_ofNat] at hw
  unfold tagWrite
  simp only [hw]
  rfl

theorem tagWrite_length {sch : Scheme} {t : TagValue} (ht : t.scheme = sch) {x : TagFields} (hx : TagFieldsFit sch x)
    {bits : List Bool} (h : tagWrite sch t x = .ok bits) : bits.length = (schemeDesc sch).totalBits.toNat := by
  rw [tagWrite_eq hx] at h
  have hl := tagHead_length hx (tagFilter t)
  cases t <;> simp only [TagValue.scheme] at ht <;> subst ht <;> simp only at h
  · simp only [Except.ok.injEq] at h
    rw [← h, writeBits_length _ (by rw [hl]; decide), hl]
  · rw [writeSeptets_length h (by rw [hl]; decide), hl]
  · simp only [Except.ok.injEq] at h
    rw [← h, hl]

theorem tagWrite_cause {sch : Scheme} {t : TagValue} {x : TagFields} (hx : TagFieldsFit sch x) {e : Exc}
    (h : tagWrite sch t x = .error e) : e.cause = .valueOverflow := by
  rw [tagWrite_eq hx] at h
  cases t <;> simp only at h
  · simp at h
  · exact writeSeptets_cause h
  · simp at h

end Sys2Proof.Machine
end

