-- ==== Sys2Proof/Laws/Commands.lean ====
section
/-! SUPPORT. What a command can do: every way an instruction ends, said once, so that a statement about all instructions
is a case analysis over these ways. -/

namespace Sys2Proof.Machine

/-- The ways an instruction ends. Each constructor says what the state becomes and which instructions, in which states,
can end so. -/
inductive EndsAs (i : Instr) (s : State) : State → Prop where
  /-- A result; no buffer changes. -/
  | result (r : Res) : ResLegal r → (needsBuffer i = true → s.bb.valid = true) → EndsAs i s (s.succeed r)
  /-- An exception that leaves every buffer as it was. -/
  | fails (e : Exc) : (e.cause = .noBuffer → needsBuffer i = true ∧ s.bb.valid = false) →
      (needsBuffer i = true → s.bb.valid = false → e = ⟨.noBuffer, 0, 0⟩) → EndsAs i s (s.raise e)
  /-- Bits of the buffer there is are written. -/
  | writes (bits : List Bool) : writesBits i = true → s.bb.valid = true → bits.length = s.bb.len →
      EndsAs i s ((s.withBuffer bits).succeed .none)
  /-- A write phase fails: the buffer is invalidated. -/
  | poisons (e : Exc) : mayPoison i = true → s.bb.valid = true → e.cause ≠ .noBuffer →
      EndsAs i s (s.poison.raise e)
  /-- A new buffer. -/
  | creates (bits : List Bool) : writesBuffer i = true → writesBits i = false → needsBuffer i = false →
      withinCapacity s.cfg bits.length = true → EndsAs i s ((s.withBuffer bits).succeed .none)
  /-- A result of a command that used the scratch buffer. -/
  | scratchResult (r : Res) : usesScratchBuffer i = true → needsBuffer i = false → ResLegal r →
      EndsAs i s (s.useScratch.succeed r)
  /-- An exception of a command that used the scratch buffer. -/
  | scratchFails (e : Exc) : usesScratchBuffer i = true → needsBuffer i = false → e.cause ≠ .noBuffer →
      EndsAs i s (s.useScratch.raise e)
  /-- The scratch buffer becomes the buffer. -/
  | scratchCreates (bits : List Bool) : usesScratchBuffer i = true → writesBuffer i = true → writesBits i = false →
      needsBuffer i = false → bits.length ≤ 208 → EndsAs i s ((s.useScratch.withBuffer bits).succeed .none)

theorem checkAccess_invalid {b : BitBuffer} (h : b.valid = false) (f n : Int) (nmin nmax : Nat) :
    checkAccess b f n nmin nmax = some ⟨.noBuffer, 0, 0⟩ := by
  simp [checkAccess, h]

theorem readField_invalid {b : BitBuffer} (h : b.valid = false) (f n : Int) (nmin nmax : Nat) :
    readField b f n nmin nmax = .error ⟨.noBuffer, 0, 0⟩ := by
  simp [readField, checkAccess_invalid h]

theorem writeField_invalid {b : BitBuffer} (h : b.valid = false) (f n : Int) (nmin nmax v : Nat) :
    writeField b f n nmin nmax v = .error ⟨.noBuffer, 0, 0⟩ := by
  simp [writeField, checkAccess_invalid h]

theorem partDecode_invalid {b : BitBuffer} (h : b.valid = false) (f : Int) (table : List PartRow) :
    partDecode b f table = .error ⟨.noBuffer, 0, 0⟩ := by
  simp [partDecode, readField_invalid h]

theorem checkSeptetField_invalid {b : BitBuffer} (h : b.valid = false) (f n : Int) :
    checkSeptetField b f n = some ⟨.noBuffer, 0, 0⟩ := by
  simp [checkSeptetField, h]

/-- How a command that needs the buffer ends with an exception of its own checks. -/
theorem EndsAs.failsOf {i : Instr} {s : State} {e : Exc} (hn : needsBuffer i = true)
    (h1 : s.bb.valid = true → e.cause ≠ .noBuffer) (h2 : s.bb.valid = false → e = ⟨.noBuffer, 0, 0⟩) :
    EndsAs i s (s.raise e) := by
  refine .fails e (fun hc => ⟨hn, ?_⟩) (fun _ => h2)
  rcases hv : s.bb.valid with _ | _
  · rfl
  · exact absurd hc (h1 hv)

theorem runRead_ends {i : Instr} (hn : needsBuffer i = true) (f n : Int) (nmax : Nat) (s : State) :
    EndsAs i s (runRead f n nmax s) := by
  unfold runRead
  rcases h : readField s.bb f n 1 nmax with e | v
  · exact EndsAs.failsOf hn (fun hv => checkAccess_cause hv ((readField_eq_error_iff ..).mp h))
      (fun hv => by rw [readField_invalid hv] at h; simpa using h.symm)
  · exact .result _ trivial fun _ => by
      rcases hv : s.bb.valid with _ | _
      · rw [readField_invalid hv] at h; simp at h
      · rfl

theorem runWrite_ends {i : Instr} (hn : needsBuffer i = true) (hw : writesBits i = true) (v : Word64) (f n : Int)
    (nmax : Nat) (s : State) : EndsAs i s (runWrite v f n nmax s) := by
  unfold runWrite
  rcases h : writeField s.bb f n 1 nmax v.toNat with e | bits
  · exact EndsAs.failsOf hn (fun hv => writeField_cause hv h)
      (fun hv => by rw [writeField_invalid hv] at h; simpa using h.symm)
  · exact .writes bits hw (writeField_valid h) (writeField_length h)

theorem table_index_le {table : List PartRow} (ht : table = ptSgtin ∨ table = ptSscc) {p : Nat} {row : PartRow}
    (h : table[p]? = some row) : p ≤ 6 := by
  have := table_row ht h; omega

theorem runPartDecode_ends {i : Instr} (hn : needsBuffer i = true) {table : List PartRow}
    (ht : table = ptSgtin ∨ table = ptSscc) (f : Int) (s : State) : EndsAs i s (runPartDecode table f s) := by
  unfold runPartDecode
  rcases h : partDecode s.bb f table with e | ⟨p, a, c⟩
  · exact EndsAs.failsOf hn (fun hv => partDecode_cause hv h)
      (fun hv => by rw [partDecode_invalid hv] at h; simpa using h.symm)
  · obtain ⟨row, hr, hv, -⟩ := partDecode_eq_ok h
    exact .result _ (table_index_le ht hr) fun _ => hv

theorem runPartEncode_ends {i : Instr} (hn : needsBuffer i = true) (hw : writesBits i = true) (hp : mayPoison i = true)
    (table : List PartRow) (f : Int) (p : Nat) (s1 s2 : Str) (s : State) :
    EndsAs i s (runPartEncode table f p s1 s2 s) := by
  unfold runPartEncode
  split_ifs with hv
  · exact EndsAs.failsOf hn (fun h => by rw [hv] at h; simp at h) (fun _ => rfl)
  · have hv : s.bb.valid = true := by simpa using hv
    rcases h : partEncodeCheck table p s1 s2 with e | ⟨row, n1, n2⟩
    · exact EndsAs.failsOf hn (fun _ => partEncodeCheck_cause h) (fun h' => by rw [hv] at h'; simp at h')
    · simp only
      rcases h' : partEncodeWrite s.bb f row p n1 n2 with e | bits
      · exact .poisons e hp hv (partEncodeWrite_cause hv h')
      · exact .writes bits hw hv (partEncodeWrite_length h')

theorem runTagDecode_ends {i : Instr} (hu : usesScratchBuffer i = true) (hn : needsBuffer i = false) (sch : Scheme)
    (text : Str) (s : State) : EndsAs i s (runTagDecode sch text s) := by
  unfold runTagDecode
  rcases h : tagLoad sch text with e | sb
  · exact .fails e (fun hc => absurd hc (tagLoad_cause h)) (fun h' => by rw [hn] at h'; simp at h')
  · obtain ⟨-, -, rfl⟩ := (tagLoad_eq_ok_iff _ _ _).mp h
    simp only
    rcases h' : tagRead sch { bits := hexBits text, valid := true } with e | t
    · exact .scratchFails e hu hn (tagRead_cause rfl h')
    · exact .scratchResult _ hu hn trivial

theorem runTagEncode_ends {i : Instr} (hu : usesScratchBuffer i = true) (hn : needsBuffer i = false)
    (hw : writesBuffer i = true) (hb : writesBits i = false) {sch : Scheme} {t : TagValue} (ht : t.scheme = sch)
    (s : State) : EndsAs i s (runTagEncode sch t s) := by
  unfold runTagEncode
  rcases h : tagCheck sch t with e | x
  · exact .fails e (fun hc => absurd hc (tagCheck_cause h)) (fun h' => by rw [hn] at h'; simp at h')
  · simp only
    rcases h' : tagWrite sch t x with e | bits
    · exact .scratchFails e hu hn (by rw [tagWrite_cause (tagCheck_fits h) h']; decide)
    · refine .scratchCreates bits hu hw hb hn ?_
      rw [tagWrite_length ht (tagCheck_fits h) h']
      cases sch <;> decide

/-- The operand type check (R95) in front of a run. -/
theorem withTagOperand_ends {i : Instr} (hn : needsBuffer i = false) {want : Scheme} {op : Byte} {t : TagValue}
    {run : State → State} {s : State} (h : t.scheme = want → EndsAs i s (run s)) :
    EndsAs i s (withTagOperand want op t run s) := by
  unfold withTagOperand
  split_ifs with ht
  · exact h ht
  · exact .fails _ (by simp) (fun h' => by rw [hn] at h'; simp at h')

theorem uriTag_cause {sch : Scheme} {f p : Nat} {cp f2 serial : Str} {e : Exc}
    (h : uriTag sch f p cp f2 serial = .error e) : e.cause ≠ .noBuffer := by
  unfold uriTag at h
  cases sch <;> simp only at h
  · split at h
    · rename_i heq; simp at h; subst h; rw [serialCheck_error heq]; simp
    · simp at h
  · simp at h
  · simp at h

theorem uriFields_cause {sch : Scheme} {f cp f2 serial : Str} {e : Exc} (h : uriFields sch f cp f2 serial = .error e) :
    e.cause ≠ .noBuffer := by
  unfold uriFields at h
  split at h
  · simp at h; subst h; simp
  split at h
  · simp at h; subst h; simp
  split at h
  · simp at h; subst h; simp
  split at h
  · simp at h; subst h; simp
  split at h
  · simp at h; subst h; simp
  split at h
  · simp at h; subst h; simp
  · exact uriTag_cause h

theorem fromUri_cause {sch : Scheme} {u : UriValue} {e : Exc} (h : fromUri sch u = .error e) : e.cause ≠ .noBuffer := by
  unfold fromUri at h
  split_ifs at h
  · simp at h; subst h; simp
  · simp at h; subst h; simp
  · simp at h; subst h; simp
  · exact uriFields_cause h

theorem fromUri_ends {i : Instr} (hn : needsBuffer i = false) (sch : Scheme) (u : UriValue) (s : State) :
    EndsAs i s (s.conclude ((fromUri sch u).map Res.tag)) := by
  rcases h : fromUri sch u with e | t
  · exact .fails e (fun hc => absurd hc (fromUri_cause h)) (fun h' => by rw [hn] at h'; simp at h')
  · exact .result _ trivial (fun h' => by rw [hn] at h'; simp at h')

/-- How a command that does not need the buffer fails. -/
theorem EndsAs.failsFree {i : Instr} {s : State} {e : Exc} (hn : needsBuffer i = false) (hc : e.cause ≠ .noBuffer) :
    EndsAs i s (s.raise e) :=
  .fails e (fun h => absurd h hc) (fun h => by rw [hn] at h; simp at h)

/-- How a command that does not need the buffer gives a result. -/
theorem EndsAs.resultFree {i : Instr} {s : State} {r : Res} (hn : needsBuffer i = false) (hr : ResLegal r) :
    EndsAs i s (s.succeed r) :=
  .result r hr (fun h => by rw [hn] at h; simp at h)

theorem execBbAlloc_ends (n : Int) (s : State) : ∃ t, execBbAlloc n s = .next t ∧ EndsAs (.bbAlloc n) s t := by
  refine ⟨_, rfl, ?_⟩
  split_ifs with h1 h2
  · exact EndsAs.failsFree rfl (by simp)
  · exact EndsAs.failsFree rfl (by simp)
  · exact .creates _ rfl rfl rfl (by simpa using h2)

theorem execBbFromHex_ends (s1 : Str) (s : State) :
    ∃ t, execBbFromHex s1 s = .next t ∧ EndsAs (.bbFromHex s1) s t := by
  refine ⟨_, rfl, ?_⟩
  split
  · exact EndsAs.failsFree rfl (by simp)
  · split_ifs with h2
    · exact EndsAs.failsFree rfl (by simp)
    · exact .creates _ rfl rfl rfl (by simpa using h2)

theorem execBbToHex_ends (s : State) : ∃ t, execBbToHex s = .next t ∧ EndsAs .bbToHex s t := by
  refine ⟨_, rfl, ?_⟩
  split_ifs with hv
  · exact EndsAs.failsOf rfl (fun h => by rw [hv] at h; simp at h) (fun _ => rfl)
  · exact .result _ trivial fun _ => by simpa using hv

theorem execPcLen2part_ends (s1 : Str) (s : State) :
    ∃ t, execPcLen2part s1 s = .next t ∧ EndsAs (.pcLen2part s1) s t := by
  refine ⟨_, rfl, ?_⟩
  split
  · exact EndsAs.failsFree rfl (by simp)
  · exact EndsAs.resultFree rfl trivial

theorem execS7Decode_ends (f n : Int) (s : State) : ∃ t, execS7Decode f n s = .next t ∧ EndsAs (.s7Decode f n) s t := by
  refine ⟨_, rfl, ?_⟩
  rcases h : s7Decode s.bb f n with e | out
  · exact EndsAs.failsOf rfl (fun hv => s7Decode_cause hv h)
      (fun hv => by simp [s7Decode, checkSeptetField_invalid hv] at h; exact h.symm)
  · exact .result _ trivial fun _ => by
      rcases hv : s.bb.valid with _ | _
      · simp [s7Decode, checkSeptetField_invalid hv] at h
      · rfl

theorem execS7Encode_ends (s1 : Str) (f n : Int) (s : State) :
    ∃ t, execS7Encode s1 f n s = .next t ∧ EndsAs (.s7Encode s1 f n) s t := by
  refine ⟨_, rfl, ?_⟩
  rcases h : checkSeptetField s.bb f n with _ | e
  · obtain ⟨hv, h1, h2, h3, h4⟩ := (checkSeptetField_eq_none_iff _ _ _).mp h
    simp only
    rcases h' : writeSeptets s.bb.bits f.toNat (n.toNat / 7) s1 with e | bits
    · exact .poisons e rfl hv (by rw [writeSeptets_cause h']; decide)
    · exact .writes bits rfl hv (writeSeptets_length h' (by unfold BitBuffer.len at h4; omega))
  · exact EndsAs.failsOf rfl (fun hv => checkSeptetField_cause hv h)
      (fun hv => by rw [checkSeptetField_invalid hv] at h; simpa using h.symm)

theorem execRegDispatchBinary_ends (s1 : Str) (s : State) :
    ∃ t, execRegDispatchBinary s1 s = .next t ∧ EndsAs (.regDispatchBinary s1) s t := by
  refine ⟨_, rfl, ?_⟩
  split
  · split_ifs
    · exact EndsAs.failsFree rfl (by simp)
    · exact EndsAs.failsFree rfl (by simp)
    · split
      · exact EndsAs.failsFree rfl (by simp)
      · exact runTagDecode_ends rfl rfl _ _ _
  · exact EndsAs.failsFree rfl (by simp)

theorem execRegDispatchUri_ends (u : UriValue) (s : State) :
    ∃ t, execRegDispatchUri u s = .next t ∧ EndsAs (.regDispatchUri u) s t := by
  refine ⟨_, rfl, ?_⟩
  split_ifs
  · exact EndsAs.failsFree rfl (by simp)
  · split
    · exact EndsAs.failsFree rfl (by simp)
    · exact fromUri_ends rfl _ _ _

/-- Every instruction ends in one of the ways of `EndsAs`, whatever the state and the operands. -/
theorem exec_ends (i : Instr) (s : State) : ∃ t, exec i s = .next t ∧ EndsAs i s t := by
  cases i with
  | bbAlloc n => exact execBbAlloc_ends n s
  | bbFromHex s1 => exact execBbFromHex_ends s1 s
  | bbToHex => exact execBbToHex_ends s
  | bbReadUint f n => exact ⟨_, rfl, runRead_ends rfl f n 64 s⟩
  | bbWriteUint v f n => exact ⟨_, rfl, runWrite_ends rfl rfl v f n 64 s⟩
  | bbReadByte f n => exact ⟨_, rfl, runRead_ends rfl f n 8 s⟩
  | bbWriteByte v f n => exact ⟨_, rfl, runWrite_ends rfl rfl v f n 8 s⟩
  | pcDecodeSgtin f => exact ⟨_, rfl, runPartDecode_ends rfl (.inl rfl) f s⟩
  | pcDecodeSscc f => exact ⟨_, rfl, runPartDecode_ends rfl (.inr rfl) f s⟩
  | pcEncodeSgtin f p s1 s2 => exact ⟨_, rfl, runPartEncode_ends rfl rfl rfl _ f p s1 s2 s⟩
  | pcEncodeSscc f p s1 s2 => exact ⟨_, rfl, runPartEncode_ends rfl rfl rfl _ f p s1 s2 s⟩
  | pcLen2part s1 => exact execPcLen2part_ends s1 s
  | s7Decode f n => exact execS7Decode_ends f n s
  | s7Encode s1 f n => exact execS7Encode_ends s1 f n s
  | regDispatchBinary s1 => exact execRegDispatchBinary_ends s1 s
  | regDispatchUri u => exact execRegDispatchUri_ends u s
  | sgtin96Decode s1 => exact ⟨_, rfl, runTagDecode_ends rfl rfl _ _ _⟩
  | sgtin96Encode t => exact ⟨_, rfl, withTagOperand_ends rfl fun h => runTagEncode_ends rfl rfl rfl rfl h _⟩
  | sgtin96ToUri t => exact ⟨_, rfl, withTagOperand_ends rfl fun _ => EndsAs.resultFree rfl trivial⟩
  | sgtin96FromUri u => exact ⟨_, rfl, fromUri_ends rfl _ _ _⟩
  | sgtin96ToId t => exact ⟨_, rfl, withTagOperand_ends rfl fun _ => EndsAs.resultFree rfl trivial⟩
  | sgtin198Decode s1 => exact ⟨_, rfl, runTagDecode_ends rfl rfl _ _ _⟩
  | sgtin198Encode t => exact ⟨_, rfl, withTagOperand_ends rfl fun h => runTagEncode_ends rfl rfl rfl rfl h _⟩
  | sgtin198ToUri t => exact ⟨_, rfl, withTagOperand_ends rfl fun _ => EndsAs.resultFree rfl trivial⟩
  | sgtin198FromUri u => exact ⟨_, rfl, fromUri_ends rfl _ _ _⟩
  | sgtin198ToId t => exact ⟨_, rfl, withTagOperand_ends rfl fun _ => EndsAs.resultFree rfl trivial⟩
  | sscc96Decode s1 => exact ⟨_, rfl, runTagDecode_ends rfl rfl _ _ _⟩
  | sscc96Encode t => exact ⟨_, rfl, withTagOperand_ends rfl fun h => runTagEncode_ends rfl rfl rfl rfl h _⟩
  | sscc96ToUri t => exact ⟨_, rfl, withTagOperand_ends rfl fun _ => EndsAs.resultFree rfl trivial⟩
  | sscc96FromUri u => exact ⟨_, rfl, fromUri_ends rfl _ _ _⟩
  | sscc96ToId t => exact ⟨_, rfl, withTagOperand_ends rfl fun _ => EndsAs.resultFree rfl trivial⟩

end Sys2Proof.Machine
end

