-- ==== Sys2Proof/Laws/Outcome.lean ====
section
/-! SUPPORT. The outcome of a command (CLASS, CAUSE, ERRA, ERRB, RES) from two states: for each way to end and each
shared run, once, that it depends only on the operands and, for a run over the buffer, on `BB`. -/

namespace Sys2Proof.Machine

/-- Two states hold the same outcome of their last command. -/
structure SameOutcome (t t' : State) : Prop where
  cls : statusClass t.status = statusClass t'.status
  cause : statusCause t.status = statusCause t'.status
  erra : t.erra = t'.erra
  errb : t.errb = t'.errb
  res : t.res = t'.res

theorem succeed_sameOutcome (s s' : State) (r : Res) : SameOutcome (s.succeed r) (s'.succeed r) :=
  ⟨by simp, by simp, rfl, rfl, rfl⟩

theorem raise_sameOutcome (s s' : State) (e : Exc) : SameOutcome (s.raise e) (s'.raise e) :=
  ⟨by simp, by simp, rfl, rfl, rfl⟩

theorem conclude_sameOutcome (s s' : State) (r : Except Exc Res) : SameOutcome (s.conclude r) (s'.conclude r) := by
  rcases r with e | v
  · exact raise_sameOutcome s s' e
  · exact succeed_sameOutcome s s' v

theorem finishWrite_sameOutcome (s s' : State) (r : Except Exc (List Bool)) :
    SameOutcome (State.finishWrite r s) (State.finishWrite r s') := by
  rcases r with e | bits
  · exact raise_sameOutcome s s' e
  · exact succeed_sameOutcome _ _ .none

theorem runRead_sameOutcome {s s' : State} (h : s.bb = s'.bb) (f n : Int) (nmax : Nat) :
    SameOutcome (runRead f n nmax s) (runRead f n nmax s') := by
  unfold runRead
  rw [h]
  exact conclude_sameOutcome s s' _

theorem runWrite_sameOutcome {s s' : State} (h : s.bb = s'.bb) (v : Word64) (f n : Int) (nmax : Nat) :
    SameOutcome (runWrite v f n nmax s) (runWrite v f n nmax s') := by
  unfold runWrite
  rw [h]
  exact finishWrite_sameOutcome s s' _

theorem runPartDecode_sameOutcome {s s' : State} (h : s.bb = s'.bb) (table : List PartRow) (f : Int) :
    SameOutcome (runPartDecode table f s) (runPartDecode table f s') := by
  unfold runPartDecode
  rw [h]
  exact conclude_sameOutcome s s' _

theorem runPartEncode_sameOutcome {s s' : State} (h : s.bb = s'.bb) (table : List PartRow) (f : Int) (p : Nat)
    (s1 s2 : Str) : SameOutcome (runPartEncode table f p s1 s2 s) (runPartEncode table f p s1 s2 s') := by
  unfold runPartEncode
  rw [h]
  split
  · exact raise_sameOutcome s s' _
  · split
    · exact raise_sameOutcome s s' _
    · split
      · exact raise_sameOutcome _ _ _
      · exact succeed_sameOutcome _ _ _

theorem runTagDecode_sameOutcome (s s' : State) (sch : Scheme) (text : Str) :
    SameOutcome (runTagDecode sch text s) (runTagDecode sch text s') := by
  unfold runTagDecode
  split
  · exact raise_sameOutcome s s' _
  · exact conclude_sameOutcome _ _ _

theorem runTagEncode_sameOutcome (s s' : State) (sch : Scheme) (t : TagValue) :
    SameOutcome (runTagEncode sch t s) (runTagEncode sch t s') := by
  unfold runTagEncode
  split
  · exact raise_sameOutcome s s' _
  · split
    · exact raise_sameOutcome _ _ _
    · exact succeed_sameOutcome _ _ _

/-- The operand type check in front of a run (R95). -/
theorem withTagOperand_sameOutcome {s s' : State} (want : Scheme) (op : Byte) (t : TagValue) {run : State → State}
    (h : SameOutcome (run s) (run s')) :
    SameOutcome (withTagOperand want op t run s) (withTagOperand want op t run s') := by
  unfold withTagOperand
  split
  · exact h
  · exact raise_sameOutcome s s' _

end Sys2Proof.Machine
end

