-- ==== Sys2Proof/Laws/RoundTrip.lean ====
section
/-! SUPPORT. Laws the round trips rest on: fields determine bits, a written string reads back, a well-formed value passes
the checks, and everything `TagEncode` writes and `TagDecode` reads. -/

namespace Sys2Proof.Machine

/-- The bits of a field are the bits of its number (R10, R13). -/
theorem getElem?_eq_testBit {bits : List Bool} {f n i : Nat} (h : f + n ≤ bits.length) (h1 : f ≤ i) (h2 : i < f + n) :
    bits[i]? = some ((readBits bits f n).testBit (n - 1 - (i - f))) := by
  conv_lhs => rw [← writeBits_readBits h]
  rw [writeBits_getElem? _ _ h, if_pos ⟨h1, h2⟩]
/-- Two buffers that read the same over a field hold the same bits there. -/
theorem getElem?_eq_of_readBits_eq {a b : List Bool} {f n : Nat} (ha : f + n ≤ a.length) (hb : f + n ≤ b.length)
    (h : readBits a f n = readBits b f n) (i : Nat) (h1 : f ≤ i) (h2 : i < f + n) : a[i]? = b[i]? := by
  rw [getElem?_eq_testBit ha h1 h2, getElem?_eq_testBit hb h1 h2, h]
/-- The septets of a field of zeros after the write loop: the characters, then zeros (R215, R219). -/
theorem fieldSeptets_of_writes {bits bits' : List Bool} {f k : Nat} {cs : List Nat} (hl : f + 7 * k ≤ bits.length)
    (hlen : bits'.length = bits.length) (hr : ∀ i c, (cs.take k)[i]? = some c → readBits bits' (f + 7 * i) 7 = c)
    (ho : ∀ a, a < f ∨ f + 7 * (cs.take k).length ≤ a → bits'[a]? = bits[a]?)
    (hz : ∀ a, f ≤ a → a < f + 7 * k → bits[a]? = some false) :
    fieldSeptets bits' f k = cs.take k ++ List.replicate (k - (cs.take k).length) 0 := by
  apply List.ext_getElem?
  intro i
  have hle : (cs.take k).length ≤ k := by simp
  by_cases hi : i < (cs.take k).length
  · rw [List.getElem?_append_left hi]
    obtain ⟨c, hcc⟩ : ∃ c, (cs.take k)[i]? = some c := ⟨_, List.getElem?_eq_getElem hi⟩
    rw [hcc, ← hr i c hcc]
    have : i < k := by omega
    simp [fieldSeptets, this]
    rw [← readBits_eq_fieldValue (by omega)]
  · rw [List.getElem?_append_right (by omega)]
    by_cases hk : i < k
    · rw [List.getElem?_replicate, if_pos (by omega)]
      have : fieldValue bits' (f + 7 * i) 7 = 0 := by
        rw [← readBits_eq_fieldValue (by omega), ← readBits_replicate bits.length (f + 7 * i) 7]
        apply readBits_congr
        intro a ha hb
        rw [ho a (by omega), hz a (by omega) (by omega), List.getElem?_replicate, if_pos (by omega)]
      simp [fieldSeptets, hk, this]
    · rw [List.getElem?_eq_none (by simp [fieldSeptets]; omega), List.getElem?_eq_none (by simp at *; omega)]
theorem spells_zeros (n : Nat) : Spells (List.replicate n 0) [] := by
  cases n with
  | zero => exact .fieldEnd
  | succ n => exact .terminator _
/-- Plain characters and zeros after them spell the characters (R212, R219). -/
theorem spells_plain (cs : List Nat) (n : Nat) (h : ∀ c ∈ cs, 1 ≤ c ∧ c ≤ 127 ∧ c ≠ 0x25) :
    Spells (cs ++ List.replicate n 0) cs := by
  induction cs with
  | nil => exact spells_zeros n
  | cons c cs ih =>
    have := h c (by simp)
    exact .char _ _ _ (by omega) this.2.2 (ih fun d hd => h d (by simp [hd]))
/-- `S7Decode` of whole septets inside a valid buffer is the loop over them (R212). -/
theorem s7Decode_eq {b : BitBuffer} {f k : Nat} (hv : b.valid = true) (hl : f + 7 * k ≤ b.len) :
    s7Decode b f (7 * k : Nat) = decodeSeptets 0 (fieldSeptets b.bits f k) := by
  have := checkSeptetField_ok hv hl
  simp only [s7Decode, this]
  simp only [Int.toNat_natCast]
  rw [Nat.mul_div_cancel_left _ (by decide), septets_eq_fieldSeptets hl]

/-- What the checks of `TagEncode` find for a well-formed value (R49, R262). -/
structure TagPasses (t : TagValue) (x : TagFields) : Prop where
  check : tagCheck t.scheme t = .ok x
  part : x.partition = tagPartition t
  flt : tagFilter t ≤ 7
  p1 : pad (dec x.n1) x.row.digits1 = tagCompanyPrefix t
  p2 : pad (dec x.n2) x.row.digits2 = tagField2 t
  ser : serialWF t = true
/-- A well-formed value passes the checks, and its decimal fields are their own padded renderings (R49). -/
theorem tagWF_passes {t : TagValue} (h : tagWF t = true) : ∃ x, TagPasses t x := by
  unfold tagWF at h
  simp only [Bool.and_eq_true, decide_eq_true_eq, beq_iff_eq] at h
  obtain ⟨⟨⟨⟨⟨h1, h2⟩, h3⟩, h4⟩, h5⟩, h6⟩ := h
  rcases hr : (schemeTable t.scheme)[tagPartition t]? with _ | row
  · simp [hr] at h4
  simp only [hr, beq_iff_eq] at h4
  obtain ⟨q0, q1, q2, q3, q4, d1, d2, q5, q6, dd, -⟩ := table_row (schemeTable_cases _) hr
  obtain ⟨l1, l2, l3⟩ := (len2part_eq_some_iff _ _).mp h2
  have hc : (tagCompanyPrefix t).length = row.digits1 := by omega
  have n1 : tagCompanyPrefix t ≠ [] := by intro e; rw [e] at l1; simp at l1
  have n2 : tagField2 t ≠ [] := by intro e; rw [e] at h4; simp at h4; omega
  have e1 := parseDec_of_digits n1 h3
  have e2 := parseDec_of_digits n2 h5
  have s1 := stripZ_length_le (tagCompanyPrefix t)
  have s2 := stripZ_length_le (tagField2 t)
  have : ∃ sn, tagSerialNumber t = .ok sn := by
    cases t with
    | sgtin96 f p cp f2 serial =>
      simp only [serialWF] at h6
      rcases hp : parseDec serial with _ | n
      · simp [hp] at h6
      · simp only [hp, Bool.and_eq_true, decide_eq_true_eq, beq_iff_eq] at h6
        exact ⟨n, (serialCheck_eq_ok_iff _ _).mpr ⟨hp, h6.1, h6.2⟩⟩
    | sgtin198 => exact ⟨0, rfl⟩
    | sscc96 => exact ⟨0, rfl⟩
  obtain ⟨sn, hsn⟩ := this
  refine ⟨⟨tagPartition t, row, _, _, sn⟩, (tagCheck_eq_ok_iff _ _ _).mpr
    ⟨h1, h2, hr, by simp only; omega, by simp only; omega, e1, e2, hsn⟩, rfl, h1, ?_, ?_, h6⟩
  · simp only; rw [← hc]; exact pad_dec_decValue h3 n1
  · simp only; rw [← h4]; exact pad_dec_decValue h5 n2

theorem readBits_append_left {a z : List Bool} {f n : Nat} (h : f + n ≤ a.length) :
    readBits (a ++ z) f n = readBits a f n := by
  apply readBits_congr; intro i _ h2; rw [List.getElem?_append_left (by omega)]
theorem fieldSeptets_append_left {a z : List Bool} {f k : Nat} (h : f + 7 * k ≤ a.length) :
    fieldSeptets (a ++ z) f k = fieldSeptets a f k := by
  unfold fieldSeptets
  apply List.map_congr_left
  intro i hi
  have hi := List.mem_range.mp hi
  rw [← readBits_eq_fieldValue (by simp; omega), ← readBits_eq_fieldValue (by omega), readBits_append_left (by omega)]
/-- `TagDecode` of a text that loads (R261). -/
theorem runTagDecode_eq {sch : Scheme} {text : Str} {s : State} (hl : text.length = (schemeDesc sch).hexLength)
    (hh : ∀ c ∈ text, isHex c = true) :
    runTagDecode sch text s = s.useScratch.conclude ((tagRead sch ⟨hexBits text, true⟩).map Res.tag) := by
  have := (tagLoad_eq_ok_iff sch text _).mpr ⟨hl, hh, rfl⟩
  simp [runTagDecode, this]

/-- What `TagEncode` writes for a well-formed value: every field of the layout (R262, R101 to R104). -/
structure TagWritten (t : TagValue) (x : TagFields) (bits : List Bool) : Prop where
  w : tagWrite t.scheme t x = .ok bits
  len : bits.length = (schemeDesc t.scheme).totalBits.toNat
  hd : readBits bits 0 8 = (schemeDesc t.scheme).binaryHeader.toNat
  fl : readBits bits 8 3 = tagFilter t
  pt : readBits bits 11 3 = tagPartition t
  f1 : readBits bits 14 x.row.bits1 = x.n1
  f2 : readBits bits (14 + x.row.bits1) x.row.bits2 = x.n2
  sr : match t with
    | .sgtin96 _ _ _ _ serial => dec (readBits bits 58 38) = serial
    | .sgtin198 _ _ _ _ serial => fieldSeptets bits 58 20 = serial ++ List.replicate (20 - serial.length) 0
    | .sscc96 .. => ∀ a, 72 ≤ a → a < 96 → bits[a]? = some false
theorem tagWrite_writes {t : TagValue} {x : TagFields} (h : TagPasses t x) : ∃ bits, TagWritten t x bits := by
  have hx := tagCheck_fits h.check
  have hw := tagWrite_eq (t := t) hx
  obtain ⟨h0, h1, h2, h3, h4, h5, h6⟩ := tagHead_spec hx h.flt
  have hb := schemeTable_row hx.row
  have hp := h.part
  have hck := (tagCheck_eq_ok_iff _ _ _).mp h.check
  have hser := h.ser
  cases t with
  | sgtin96 f p cp f2 serial =>
    obtain ⟨-, -, -, -, -, -, -, hs⟩ := hck
    obtain ⟨ps, hn, hs⟩ := (serialCheck_eq_ok_iff _ _).mp hs
    have h0 : (tagHead .sgtin96 f x).length = 96 := h0
    have hb : 14 + x.row.bits1 + x.row.bits2 = 58 := hb
    refine ⟨_, hw, ?_, ?_, ?_, ?_, ?_, ?_, ?_⟩
    · rw [writeBits_length _ (by simp only [TagValue.scheme, tagFilter]; omega)]; exact h0
    all_goals simp only [TagValue.scheme, tagFilter] at *
    · rw [readBits_writeBits_disjoint _ (by omega) (by omega), h1]
    · rw [readBits_writeBits_disjoint _ (by omega) (by omega), h2]
    · rw [readBits_writeBits_disjoint _ (by omega) (by omega), h3, hp]
    · rw [readBits_writeBits_disjoint _ (by omega) (by omega), h4]
    · rw [readBits_writeBits_disjoint _ (by omega) (by omega), h5]
    · rw [readBits_writeBits_same (by omega) hn, hs]
  | sgtin198 f p cp f2 serial =>
    have h0 : (tagHead .sgtin198 f x).length = 198 := h0
    have hb : 14 + x.row.bits1 + x.row.bits2 = 58 := hb
    have h6 : ∀ a, 14 + x.row.bits1 + x.row.bits2 ≤ a → a < 198 → (tagHead .sgtin198 f x)[a]? = some false := h6
    simp only [serialWF, Bool.and_eq_true, decide_eq_true_eq, List.all_eq_true, bne_iff_ne] at hser
    have hch : ∀ c ∈ serial, 1 ≤ c ∧ c ≤ 127 ∧ c ≠ 0x25 := fun c hc => ⟨(hser.2 c hc).1.1, (hser.2 c hc).1.2, (hser.2 c hc).2⟩
    have htk : serial.take 20 = serial := List.take_of_length_le hser.1
    obtain ⟨bits, w1, w2, w3, w4⟩ := writeSeptets_ok (encodesAs_self fun c hc => (hch c hc).2.2)
      (bits := tagHead .sgtin198 f x) (f := 58) (k := 20) (by omega) (by rw [htk]; exact fun c hc => (hch c hc).2.1)
    simp only [TagValue.scheme, tagFilter] at *
    rw [w1] at hw
    refine ⟨bits, hw, by rw [w2]; exact h0, ?_, ?_, ?_, ?_, ?_, ?_⟩
    · rw [readBits_congr (b := tagHead .sgtin198 f x) (fun a _ _ => w4 a (by omega)), h1]
      rfl
    · rw [readBits_congr (b := tagHead .sgtin198 f x) (fun a _ _ => w4 a (by omega)), h2]
      rfl
    · rw [readBits_congr (b := tagHead .sgtin198 f x) (fun a _ _ => w4 a (by omega)), h3, hp]
    · rw [readBits_congr (b := tagHead .sgtin198 f x) (fun a _ _ => w4 a (by omega)), h4]
    · rw [readBits_congr (b := tagHead .sgtin198 f x) (fun a _ _ => w4 a (by omega)), h5]
    · have := fieldSeptets_of_writes (bits := tagHead .sgtin198 f x) (by omega) w2 w3 w4
        (fun a h h' => h6 a (by omega) (by omega))
      rw [htk] at this; exact this
  | sscc96 f p cp f2 =>
    have hb : 14 + x.row.bits1 + x.row.bits2 = 72 := hb
    refine ⟨_, hw, h0, h1, h2, by rw [h3, hp], h4, h5, fun a ha hb => h6 a (by omega) hb⟩

/-- Reading what was written, with any padding after it, gives the value back (R300). -/
theorem tagRead_written {t : TagValue} {x : TagFields} {bits z : List Bool} (h : TagPasses t x)
    (e : TagWritten t x bits) : tagRead t.scheme ⟨bits ++ z, true⟩ = .ok t := by
  have hx := tagCheck_fits h.check
  have hb := schemeTable_row hx.row
  have ht := totalBits_ge _ hx.row
  have hl := e.len
  have hpr := hx.row
  rw [h.part] at hpr
  have pd := partDecode_ok (b := ⟨bits ++ z, true⟩) (f := 11) (schemeTable_cases t.scheme) (row := x.row) rfl
    (by simp only; rw [readBits_append_left (by omega), e.pt]; exact hpr) (by unfold BitBuffer.len; simp; omega)
  simp only [Nat.cast_ofNat] at pd
  rw [readBits_append_left (by omega), readBits_append_left (by omega), readBits_append_left (by omega), e.pt,
    e.f1, e.f2, h.p1, h.p2] at pd
  unfold tagRead
  simp only
  rw [readBits_append_left (by omega), e.hd, if_neg (by simp), pd]
  simp only
  rw [readBits_append_left (by omega), e.fl]
  have hsr := e.sr
  cases t with
  | sgtin96 f p cp f2 serial =>
    simp only [TagValue.scheme] at *
    have hl : bits.length = 96 := hl
    rw [readBits_append_left (by omega), hsr]; rfl
  | sgtin198 f p cp f2 serial =>
    simp only [TagValue.scheme] at *
    have hl : bits.length = 198 := hl
    have := s7Decode_eq (b := ⟨bits ++ z, true⟩) (f := 58) (k := 20) rfl (by unfold BitBuffer.len; simp; omega)
    simp only [Nat.cast_ofNat] at this
    rw [show (140 : Int) = ((7 * 20 : Nat) : Int) by rfl, this]
    rw [fieldSeptets_append_left (by omega), hsr]
    have hser := h.ser
    simp only [serialWF, Bool.and_eq_true, decide_eq_true_eq, List.all_eq_true, bne_iff_ne] at hser
    have hch : ∀ c ∈ serial, 1 ≤ c ∧ c ≤ 127 ∧ c ≠ 0x25 := fun c hc => ⟨(hser.2 c hc).1.1, (hser.2 c hc).1.2, (hser.2 c hc).2⟩
    rw [(decodeSeptets_eq_ok_iff _ _ _).mpr (spells_plain serial _ hch)]; rfl
  | sscc96 f p cp f2 => rfl

theorem hexchar_hexval (c : Nat) (h : isHex c = true) : hexchar (hexval c) = upperHex c := by
  simp only [isHex, Bool.or_eq_true, Bool.and_eq_true, decide_eq_true_eq] at h
  unfold hexval hexchar upperHex
  split_ifs <;> omega
/-- The hex text of a buffer is a text in upper case exactly when the buffer and its padding are the text's bits. -/
theorem hexText_eq_iff {bits : List Bool} {h : Str} (hh : ∀ c ∈ h, isHex c = true) :
    hexText bits = h.map upperHex ↔ bits ++ List.replicate (hexPadding bits.length) false = hexBits h := by
  have e : h.map upperHex = nibblesToHex (hexBits h) := by
    rw [nibblesToHex_hexBits _ hh]; exact (List.map_congr_left fun c hc => hexchar_hexval c (hh c hc)).symm
  rw [e]
  constructor
  · intro k
    have := congrArg hexBits k
    rwa [hexBits_hexText, hexBits_nibblesToHex h.length _ (by simp)] at this
  · intro k; unfold hexText; rw [k]
/-- Everything `TagDecode` reads when it answers a value (R261). -/
structure TagReads (sch : Scheme) (B : List Bool) (t : TagValue) (pr : PartRow) : Prop where
  scheme : t.scheme = sch
  header : readBits B 0 8 = (schemeDesc sch).binaryHeader.toNat
  fl : tagFilter t = readBits B 8 3
  pt : tagPartition t = readBits B 11 3
  row : (schemeTable sch)[tagPartition t]? = some pr
  cp : tagCompanyPrefix t = pad (dec (readBits B 14 pr.bits1)) pr.digits1
  f2 : tagField2 t = pad (dec (readBits B (14 + pr.bits1) pr.bits2)) pr.digits2
  sr : match t with
    | .sgtin96 _ _ _ _ serial => serial = dec (readBits B 58 38)
    | .sgtin198 _ _ _ _ serial => Spells (fieldSeptets B 58 20) serial
    | .sscc96 .. => True
theorem tagRead_reads {sch : Scheme} {B : List Bool} {t : TagValue} (hl : B.length = 4 * (schemeDesc sch).hexLength)
    (h : tagRead sch ⟨B, true⟩ = .ok t) : ∃ row, TagReads sch B t row := by
  unfold tagRead at h
  simp only at h
  by_cases hd : readBits B 0 8 ≠ (schemeDesc sch).binaryHeader.toNat
  · rw [if_pos hd] at h; simp at h
  rw [if_neg hd] at h
  have hd : readBits B 0 8 = (schemeDesc sch).binaryHeader.toNat := not_not.mp hd
  rcases hp : partDecode ⟨B, true⟩ 11 (schemeTable sch) with e | ⟨p, cp, f2⟩
  · simp [hp] at h
  simp only [hp] at h
  obtain ⟨row, q1, -, -, -, q2, q3, q4⟩ := partDecode_eq_ok hp
  simp only [show (11 : Int).toNat = 11 by rfl] at q2 q3 q4
  refine ⟨row, ?_⟩
  cases sch with
  | sgtin96 => simp only [Except.ok.injEq] at h; subst h; exact ⟨rfl, hd, rfl, q2, q1, q3, q4, rfl⟩
  | sgtin198 =>
    have hl : B.length = 208 := by rw [hl]; decide
    have := s7Decode_eq (b := ⟨B, true⟩) (f := 58) (k := 20) rfl (by unfold BitBuffer.len; simp; omega)
    have this' : s7Decode ⟨B, true⟩ 58 140 = decodeSeptets 0 (fieldSeptets B 58 20) := by simpa using this
    simp only [this'] at h
    rcases hs : decodeSeptets 0 (fieldSeptets B 58 20) with e | serial
    · simp [hs] at h
    · simp only [hs, Except.ok.injEq] at h; subst h
      exact ⟨rfl, hd, rfl, q2, q1, q3, q4, (decodeSeptets_eq_ok_iff _ _ _).mp hs⟩
  | sscc96 => simp only [Except.ok.injEq] at h; subst h; exact ⟨rfl, hd, rfl, q2, q1, q3, q4, trivial⟩
/-- Septets without `%` and without a character after a zero are the string and zeros (R302). -/
theorem spells_no_escape {qs : List Nat} {out : Str} (h : Spells qs out) (hq : ∀ q ∈ qs, q ≠ 0x25)
    (hz : ∀ i j, i < j → j < qs.length → qs[i]? = some 0 → qs[j]? = some 0) :
    qs = out ++ List.replicate (qs.length - out.length) 0 := by
  induction h with
  | fieldEnd => simp
  | terminator rest =>
    apply List.ext_getElem?
    intro j
    by_cases hj : j < (0 :: rest).length
    · simp only [List.nil_append, List.length_nil, Nat.sub_zero]
      rw [List.getElem?_replicate, if_pos hj]
      rcases j with _ | j
      · rfl
      · exact hz 0 (j+1) (by omega) hj rfl
    · rw [List.getElem?_eq_none (by omega), List.getElem?_eq_none (by simp at *; omega)]
  | char c rest out h0 h1 _ ih =>
    have := ih (fun q h => hq q (by simp [h])) (fun i j a b c => by
      have := hz (i + 1) (j + 1) (by omega) (by simpa using b) (by simpa using c)
      simpa using this)
    simp only [List.cons_append, List.length_cons, Nat.add_sub_add_right]
    rw [← this]
  | escape h1 h2 rest out _ _ _ _ => exact absurd rfl (hq 0x25 (by simp))
end Sys2Proof.Machine
end

