-- ==== Sys2Proof/Tests/Slice0.lean ====
section
/-! SUPPORT. Tests: the decoding of a written-out record for every constructor, the WellFormed smoke tests, at most two
small steps per instruction with the results of `95_test_vectors.md` (the vector's number in the comment), and for every
statement with hypotheses a witness that they can be met. -/

namespace Sys2Proof.Tests

open Sys2Proof Sys2Proof.Machine

/-! ## Helpers -/

/-- The state of a next outcome. -/
def after : Host.Outcome State Fault Refusal → State
  | .next s => s
  | .fault _ => State.reset
  | .refused _ => State.reset

/-- A step of one instruction. -/
def run (i : Instr) (s : State) : State := after (exec i s)

/-- Every instruction answers with the state of `run`. -/
theorem exec_run (i : Instr) (s : State) : exec i s = .next (run i s) := by
  obtain ⟨t, h, -⟩ := exec_ends i s
  simp [run, after, h]

/-- The reset state with a zero buffer of n bits. -/
def zeros (n : Nat) : State := State.reset.withBuffer (List.replicate n false)

/-- The reset state with the buffer of a hex text. -/
def hex (t : String) : State := State.reset.withBuffer (hexBits (str t))

/-- A zero buffer of 3 bits with something in every other register, as an earlier command could have left it. -/
def stale : State :=
  { zeros 3 with status := 0x80000501#32, erra := 5#64, errb := 6#64, res := .str [65], sb := ⟨[true], true⟩, free := 7 }

/-- What the error registers hold, with the result. -/
def outcome (s : State) : Word32 × Word64 × Word64 × Res := (s.status, s.erra, s.errb, s.res)

/-- The reset state of a machine whose `BB_MAX_BITS` is 256. -/
def limited : State := { State.reset with cfg := { bbMaxBits := some 256 } }

/-- The reset state with one event of the host to come. -/
def withEvent (ev : HostEvent) : State := { State.reset with input := [ev] }

/-- The recurring hex texts of `95_test_vectors.md`. -/
def h96 : Str := str "302D28B329B0F6C000000001"
def hss : Str := str "3159542C8000000001000000"
def h198 : Str := str "3639542C82FB0258B266D1AB66EE1CB062C99B46AD9BB872C000"

/-- The tag values of S1, S5 and S4. -/
def v96 : TagValue := .sgtin96 1 3 (str "311112347") (str "0987") (str "1")
def v198 : TagValue := .sgtin198 1 6 (str "348338") (str "0781321") (str "12345678901234567890")
def vss : TagValue := .sscc96 2 6 (str "348338") (str "00000000001")

/-- The URI values of S2 and S4, and one of SGTIN-198. -/
def u96 : UriValue := ⟨.tag, str "sgtin-96", [str "1", str "311112347", str "0987", str "1"]⟩
def u198 : UriValue := ⟨.tag, str "sgtin-198", [str "1", str "348338", str "0781321", str "a/b"]⟩
def uss : UriValue := ⟨.tag, str "sscc-96", [str "2", str "348338", str "00000000001"]⟩

/-! ## Decoding: op[7:4] is the family, op[3:0] the function (R93), the operands in the fields of R91 -/

theorem test_decode_bbAlloc : decode { zeroCmd with op := 0b00010000#8, N := 198 } = .ok (.bbAlloc 198) := rfl
theorem test_decode_bbFromHex : decode { zeroCmd with op := 0b00010001#8, S1 := [65, 66] } = .ok (.bbFromHex [65, 66]) := rfl
theorem test_decode_bbToHex : decode { zeroCmd with op := 0b00010010#8, F := 1, S1 := [1] } = .ok .bbToHex := rfl
theorem test_decode_bbReadUint : decode { zeroCmd with op := 0b00010011#8, F := -1, N := 4 } = .ok (.bbReadUint (-1) 4) := rfl
theorem test_decode_bbWriteUint :
    decode { zeroCmd with op := 0b00010100#8, V := 5#64, F := 6, N := 3 } = .ok (.bbWriteUint 5#64 6 3) := rfl
theorem test_decode_bbReadByte : decode { zeroCmd with op := 0b00010101#8, F := 7, N := 8 } = .ok (.bbReadByte 7 8) := rfl
theorem test_decode_bbWriteByte :
    decode { zeroCmd with op := 0b00010110#8, V := 0x36#64, F := 0, N := 8 } = .ok (.bbWriteByte 0x36#64 0 8) := rfl
theorem test_decode_pcDecodeSgtin : decode { zeroCmd with op := 0b00100000#8, F := 11 } = .ok (.pcDecodeSgtin 11) := rfl
theorem test_decode_pcDecodeSscc : decode { zeroCmd with op := 0b00100001#8, F := 11 } = .ok (.pcDecodeSscc 11) := rfl
theorem test_decode_pcEncodeSgtin : decode { zeroCmd with op := 0b00100010#8, F := 11, P := 300, S1 := [49], S2 := [50] } =
    .ok (.pcEncodeSgtin 11 300 [49] [50]) := rfl
theorem test_decode_pcEncodeSscc : decode { zeroCmd with op := 0b00100011#8, F := 11, P := 6, S1 := [49], S2 := [50] } =
    .ok (.pcEncodeSscc 11 6 [49] [50]) := rfl
theorem test_decode_pcLen2part :
    decode { zeroCmd with op := 0b00100100#8, S1 := [49], S2 := [50] } = .ok (.pcLen2part [49]) := rfl
theorem test_decode_s7Decode : decode { zeroCmd with op := 0b00110000#8, F := 58, N := 140 } = .ok (.s7Decode 58 140) := rfl
theorem test_decode_s7Encode :
    decode { zeroCmd with op := 0b00110001#8, S1 := [65], F := 58, N := 140 } = .ok (.s7Encode [65] 58 140) := rfl
theorem test_decode_regDispatchBinary :
    decode { zeroCmd with op := 0b01000000#8, S1 := h96 } = .ok (.regDispatchBinary h96) := rfl
theorem test_decode_regDispatchUri : decode { zeroCmd with op := 0b01000001#8, U := uss } = .ok (.regDispatchUri uss) := rfl
theorem test_decode_sgtin96Decode : decode { zeroCmd with op := 0b01010000#8, S1 := h96 } = .ok (.sgtin96Decode h96) := rfl
theorem test_decode_sgtin96Encode : decode { zeroCmd with op := 0b01010001#8, T := v96 } = .ok (.sgtin96Encode v96) := rfl
theorem test_decode_sgtin96ToUri : decode { zeroCmd with op := 0b01010010#8, T := v96 } = .ok (.sgtin96ToUri v96) := rfl
theorem test_decode_sgtin96FromUri : decode { zeroCmd with op := 0b01010011#8, U := u96 } = .ok (.sgtin96FromUri u96) := rfl
theorem test_decode_sgtin96ToId : decode { zeroCmd with op := 0b01010100#8, T := v96 } = .ok (.sgtin96ToId v96) := rfl
theorem test_decode_sgtin198Decode : decode { zeroCmd with op := 0b01100000#8, S1 := h198 } = .ok (.sgtin198Decode h198) := rfl
theorem test_decode_sgtin198Encode : decode { zeroCmd with op := 0b01100001#8, T := v198 } = .ok (.sgtin198Encode v198) := rfl
theorem test_decode_sgtin198ToUri : decode { zeroCmd with op := 0b01100010#8, T := v198 } = .ok (.sgtin198ToUri v198) := rfl
theorem test_decode_sgtin198FromUri : decode { zeroCmd with op := 0b01100011#8, U := u198 } = .ok (.sgtin198FromUri u198) := rfl
theorem test_decode_sgtin198ToId : decode { zeroCmd with op := 0b01100100#8, T := v198 } = .ok (.sgtin198ToId v198) := rfl
theorem test_decode_sscc96Decode : decode { zeroCmd with op := 0b01110000#8, S1 := hss } = .ok (.sscc96Decode hss) := rfl
theorem test_decode_sscc96Encode : decode { zeroCmd with op := 0b01110001#8, T := vss } = .ok (.sscc96Encode vss) := rfl
theorem test_decode_sscc96ToUri : decode { zeroCmd with op := 0b01110010#8, T := vss } = .ok (.sscc96ToUri vss) := rfl
theorem test_decode_sscc96FromUri : decode { zeroCmd with op := 0b01110011#8, U := uss } = .ok (.sscc96FromUri uss) := rfl
theorem test_decode_sscc96ToId : decode { zeroCmd with op := 0b01110100#8, T := vss } = .ok (.sscc96ToId vss) := rfl

/-- The bounds of R94's ranges name no instruction. -/
theorem test_decode_unassigned : ∀ w ∈ [0x00, 0x0F, 0x17, 0x1F, 0x25, 0x2F, 0x32, 0x3F, 0x42, 0x4F, 0x55, 0x5F, 0x65, 0x6F,
    0x75, 0xFF], decodeTableWord 8 w = none := by decide

/-- A command of the table is fetched and run as the first after reset. -/
theorem test_withFetchWord : (after (step (State.reset.withFetchWord 8 0x12))).status = 0x80000102#32 := by decide

/-! ## WellFormed: the operand type check of R95 refuses each wrong constructor -/

theorem test_illFormed_sgtin96Encode : (Instr.sgtin96Encode vss).wellFormed = false := by decide
theorem test_illFormed_sgtin96ToUri : (Instr.sgtin96ToUri v198).wellFormed = false := by decide
theorem test_illFormed_sgtin96ToId : (Instr.sgtin96ToId vss).wellFormed = false := by decide
theorem test_illFormed_sgtin198Encode : (Instr.sgtin198Encode v96).wellFormed = false := by decide
theorem test_illFormed_sgtin198ToUri : (Instr.sgtin198ToUri v96).wellFormed = false := by decide
theorem test_illFormed_sgtin198ToId : (Instr.sgtin198ToId vss).wellFormed = false := by decide
theorem test_illFormed_sscc96Encode : (Instr.sscc96Encode v96).wellFormed = false := by decide
theorem test_illFormed_sscc96ToUri : (Instr.sscc96ToUri v198).wellFormed = false := by decide
theorem test_illFormed_sscc96ToId : (Instr.sscc96ToId v96).wellFormed = false := by decide
theorem test_wellFormed : (Instr.sgtin96Encode v96).wellFormed = true ∧ (Instr.sgtin198ToUri v198).wellFormed = true ∧
    (Instr.sscc96ToId vss).wellFormed = true ∧ (Instr.bbAlloc (-1)).wellFormed = true := by decide

/-! ## Steps: the vectors of `95_test_vectors.md` -/

/-- B4: no limit saturates the information value. -/
theorem test_bbAlloc_negative : outcome (run (.bbAlloc (-1)) State.reset) =
    (0x80000202#32, 0#64, 0xFFFFFFFFFFFFFFFF#64, .none) := by decide
/-- B5: the capacity of a limited machine. -/
theorem test_bbAlloc_capacity : outcome (run (.bbAlloc 257) limited) = (0x80000602#32, 257#64, 256#64, .none) := by decide
/-- B6: the first bad character and its code. -/
theorem test_bbFromHex_bad : outcome (run (.bbFromHex (str "12G4")) State.reset) =
    (0x80000101#32, 2#64, 0x47#64, .none) := by decide
/-- L3 program 3: the first byte of HSS. -/
theorem test_bbFromHex_bits : (run (.bbFromHex hss) State.reset).bb.bits.take 8 =
    [false, false, true, true, false, false, false, true] := by decide
/-- B7: upper case, padded to 16 bits. -/
theorem test_bbToHex_pads : (run .bbToHex (hex "ab")).res = .str (str "AB00") := by decide
/-- B1: no buffer after reset. -/
theorem test_bbToHex_noBuffer : outcome (run .bbToHex State.reset) = (0x80000102#32, 0#64, 0#64, .none) := by decide
/-- B10: the widest field. -/
theorem test_bbReadUint_64 : (run (.bbReadUint 0 64) (hex "FFFFFFFFFFFFFFFF")).res = .uint 0xFFFFFFFFFFFFFFFF#64 := by decide
/-- B23: the company prefix of H96. -/
theorem test_bbReadUint_field : (run (.bbReadUint 14 30) (hex "302D28B329B0F6C000000001")).res = .uint 311112347#64 := by decide
/-- B20: a field that starts and ends inside a nibble. -/
theorem test_bbWriteUint_field : (run (.bbWriteUint 0x3FF#64 3 10) (zeros 16)).bb.bits = hexBits (str "1FF8") := by decide
/-- B21: a value that does not fit leaves the buffer. -/
theorem test_bbWriteUint_overflow : outcome (run (.bbWriteUint 8#64 0 3) (zeros 16)) =
    (0x80000502#32, 8#64, 3#64, .none) := by decide
/-- B23: the filter of H96. -/
theorem test_bbReadByte_field : (run (.bbReadByte 8 3) (hex "302D28B329B0F6C000000001")).res = .uint 1#64 := by decide
/-- B15: more than eight bits. -/
theorem test_bbReadByte_count : outcome (run (.bbReadByte 0 9) (hex "FFFFFFFFFFFFFFFF")) =
    (0x80000202#32, 1#64, 8#64, .none) := by decide
/-- B22: the header byte. -/
theorem test_bbWriteByte_field : (run (.bbWriteByte 0x36#64 0 8) (zeros 8)).bb.bits = hexBits (str "36") := by decide
/-- B16: a value of nine bits. -/
theorem test_bbWriteByte_overflow : outcome (run (.bbWriteByte 0x100#64 0 8) (hex "FFFF")) =
    (0x80000502#32, 256#64, 8#64, .none) := by decide
/-- P1. -/
theorem test_pcDecodeSgtin : (run (.pcDecodeSgtin 11) (hex "302D28B329B0F6C000000001")).res =
    .part 3 (str "311112347") (str "0987") := by decide
/-- P5: the selector is read before field 1 runs out. -/
theorem test_pcDecodeSgtin_bounds : outcome (run (.pcDecodeSgtin 20) (zeros 64)) =
    (0x80000402#32, 67#64, 64#64, .none) := by decide
/-- P2. -/
theorem test_pcDecodeSscc : (run (.pcDecodeSscc 11) (hex "3159542C8000000001000000")).res =
    .part 6 (str "348338") (str "00000000001") := by decide
/-- P7. -/
theorem test_pcEncodeSgtin : (run (.pcEncodeSgtin 11 3 (str "311112347") (str "0987")) (zeros 96)).bb.bits =
    List.replicate 11 false ++ natToBits 3 3 ++ natToBits 30 311112347 ++ natToBits 14 987 ++ List.replicate 38 false := by
  decide
/-- P17: the write phase invalidates the buffer. -/
theorem test_pcEncodeSgtin_poison : (run (.pcEncodeSgtin (-1) 3 (str "1") (str "1")) (zeros 96)).bb.valid = false ∧
    outcome (run (.pcEncodeSgtin (-1) 3 (str "1") (str "1")) (zeros 96)) = (0x80000302#32, 0#64, 0#64, .none) := by decide
/-- P8. -/
theorem test_pcEncodeSscc : (run (.pcEncodeSscc 11 6 (str "348338") (str "00000000001")) (zeros 96)).bb.bits =
    List.replicate 11 false ++ natToBits 3 6 ++ natToBits 20 348338 ++ natToBits 38 1 ++ List.replicate 24 false := by decide
/-- P9, for the SSCC table: no row 7, the buffer stays. -/
theorem test_pcEncodeSscc_row : outcome (run (.pcEncodeSscc 11 7 (str "1") (str "1")) (zeros 96)) =
    (0x80000501#32, 7#64, 0#64, .none) := by decide
/-- P19: only the length counts. -/
theorem test_pcLen2part : (run (.pcLen2part (str "ABCDEF")) State.reset).res = .uint 6#64 := by decide
/-- P19: the empty prefix. -/
theorem test_pcLen2part_empty : outcome (run (.pcLen2part []) State.reset) = (0x80000C01#32, 0#64, 0#64, .none) := by decide
/-- S3: an escape made by an escape (the septets of `%2541`). -/
theorem test_s7Decode_escape : (run (.s7Decode 0 28) (hex "4AD18800")).res = .str (str "A") := by decide
/-- S25, and S4 in a field of three septets: an escape cut off, an escape without hex digits. -/
theorem test_s7Decode_cutOff : outcome (run (.s7Decode 0 14) (hex "4A00")) = (0x80000801#32, 0#64, 0#64, .none) ∧
    outcome (run (.s7Decode 0 21) (hex "4A0000")) = (0x80000801#32, 0#64, 1#64, .none) := by decide
/-- S12: an input escape among plain characters. -/
theorem test_s7Encode : (run (.s7Encode (str "AB%41C") 0 28) (zeros 28)).bb.bits =
    natToBits 7 65 ++ natToBits 7 66 ++ natToBits 7 65 ++ natToBits 7 67 := by decide
/-- S21: a character above 127 invalidates the buffer. -/
theorem test_s7Encode_overflow : (run (.s7Encode [65, 128] 0 14) (zeros 14)).bb.valid = false ∧
    outcome (run (.s7Encode [65, 128] 0 14) (zeros 14)) = (0x80000502#32, 128#64, 7#64, .none) := by decide
/-- G1. -/
theorem test_regDispatchBinary : (run (.regDispatchBinary h96) State.reset).res = .tag v96 := by decide +kernel
/-- G2: a text too short for a header. -/
theorem test_regDispatchBinary_short : outcome (run (.regDispatchBinary (str "3")) State.reset) =
    (0x80000F01#32, 1#64, 2#64, .none) := by decide
/-- G8. -/
theorem test_regDispatchUri : (run (.regDispatchUri uss) State.reset).res = .tag vss := by decide +kernel
/-- G11: the token in upper case. -/
theorem test_regDispatchUri_case : outcome (run (.regDispatchUri ⟨.tag, str "SGTIN-96", u96.parts⟩) State.reset) =
    (0x80000103#32, 0#64, 0#64, .none) := by decide
/-- S1. -/
theorem test_sgtin96Decode : (run (.sgtin96Decode h96) State.reset).res = .tag v96 := by decide +kernel
/-- T2: the header of another scheme. -/
theorem test_sgtin96Decode_header : outcome (run (.sgtin96Decode (str "312D28B329B0F6C000000001")) State.reset) =
    (0x80000301#32, 0x31#64, 0x30#64, .none) := by decide +kernel
/-- T7. -/
theorem test_sgtin96Encode : (run (.sgtin96Encode (.sgtin96 7 0 (str "999999999999") (str "9") (str "0"))) State.reset).bb =
    ⟨hexBits (str "30E3A352943FFE4000000000"), true⟩ := by decide +kernel
/-- T13: a serial that is not canonical. -/
theorem test_sgtin96Encode_serial :
    outcome (run (.sgtin96Encode (.sgtin96 1 3 (str "311112347") (str "0987") (str "01"))) State.reset) =
    (0x80000E01#32, 0#64, 0#64, .none) := by decide +kernel
/-- T18: the filter is rendered as it is. -/
theorem test_sgtin96ToUri : (run (.sgtin96ToUri (.sgtin96 12 3 (str "311112347") (str "0987") (str "1"))) State.reset).res =
    .uri ⟨.tag, str "sgtin-96", [str "12", str "311112347", str "0987", str "1"]⟩ := by decide
/-- The reverse of S2. -/
theorem test_sgtin96FromUri : (run (.sgtin96FromUri u96) State.reset).res = .tag v96 := by decide +kernel
/-- T20: field 2 too short. -/
theorem test_sgtin96FromUri_field2 :
    outcome (run (.sgtin96FromUri ⟨.tag, str "sgtin-96", [str "1", str "311112347", str "987", str "1"]⟩) State.reset) =
    (0x80001001#32, 3#64, 4#64, .none) := by decide +kernel
/-- S3 of L1. -/
theorem test_sgtin96ToId : (run (.sgtin96ToId v96) State.reset).res =
    .uri ⟨.id, str "sgtin", [str "311112347", str "0987", str "1"]⟩ := by decide
/-- S5. -/
theorem test_sgtin198Decode : (run (.sgtin198Decode h198) State.reset).res = .tag v198 := by decide +kernel
/-- T30: a `%` before a zero septet. -/
theorem test_sgtin198Decode_escape :
    outcome (run (.sgtin198Decode (str "3639542C82FB02528066D1AB66EE1CB062C99B46AD9BB872C000")) State.reset) =
    (0x80000801#32, 0#64, 1#64, .none) := by decide +kernel
/-- T25: an input escape in the serial. -/
theorem test_sgtin198Encode :
    (run (.sgtin198Encode (.sgtin198 3 5 (str "0614141") (str "000001") (str "a%2Fb"))) State.reset).bb =
    ⟨(hexBits (str "3674257BF4000070AFC400000000000000000000000000000000")).take 198, true⟩ := by decide +kernel
/-- T27: a character above 127 leaves the buffer as it was. -/
theorem test_sgtin198Encode_overflow :
    (run (.sgtin198Encode (.sgtin198 3 5 (str "0614141") (str "000001") [0xE9])) (zeros 5)).bb = (zeros 5).bb ∧
    outcome (run (.sgtin198Encode (.sgtin198 3 5 (str "0614141") (str "000001") [0xE9])) (zeros 5)) =
      (0x80000502#32, 0xE9#64, 7#64, .none) := by decide +kernel
/-- X4: the operand of another scheme. -/
theorem test_sgtin198ToUri_type : outcome (run (.sgtin198ToUri v96) State.reset) =
    (0x80000204#32, 0x62#64, 0#64, .none) := by decide
/-- Any serial is taken as it is. -/
theorem test_sgtin198FromUri : (run (.sgtin198FromUri u198) State.reset).res =
    .tag (.sgtin198 1 6 (str "348338") (str "0781321") (str "a/b")) := by decide +kernel
/-- T37. -/
theorem test_sgtin198ToId : (run (.sgtin198ToId v198) State.reset).res =
    .uri ⟨.id, str "sgtin", [str "348338", str "0781321", str "12345678901234567890"]⟩ := by decide
/-- T31: the positions [72,96) are not read. -/
theorem test_sscc96Decode : (run (.sscc96Decode (str "3159542C8000000001ABCDEF")) State.reset).res = .tag vss := by
  decide +kernel
/-- T32: the length comes first. -/
theorem test_sscc96Decode_length : outcome (run (.sscc96Decode (str "3159542C800000000100000")) State.reset) =
    (0x80000201#32, 23#64, 24#64, .none) := by decide
/-- T33. -/
theorem test_sscc96Encode : (run (.sscc96Encode (.sscc96 0 0 (str "000000000000") (str "99999"))) State.reset).bb =
    ⟨hexBits (str "31000000000001869F000000"), true⟩ := by decide +kernel
/-- T34: six digits do not fit five. -/
theorem test_sscc96Encode_wide :
    outcome (run (.sscc96Encode (.sscc96 0 0 (str "000000000000") (str "100000"))) State.reset) =
    (0x80000601#32, 2#64, 6#64, .none) := by decide +kernel
/-- S4. -/
theorem test_sscc96ToUri : (run (.sscc96ToUri vss) State.reset).res = .uri uss := by decide
/-- T35: one part too many. -/
theorem test_sscc96FromUri_parts :
    outcome (run (.sscc96FromUri ⟨.tag, str "sscc-96", uss.parts ++ [str "5"]⟩) State.reset) =
    (0x80000B01#32, 4#64, 3#64, .none) := by decide
/-- T36. -/
theorem test_sscc96ToId : (run (.sscc96ToId vss) State.reset).res =
    .uri ⟨.id, str "sscc", [str "348338", str "00000000001"]⟩ := by decide

/-- STATUS of causes whose commands are tested for another cause above: the rows of R331, in the fields of R36. -/
theorem test_raise_status :
    [Cause.unknownHeader, .notDecimal, .uriKind, .uriScheme, .filter, .notMultipleOf7].map
      (fun c => (State.reset.raise ⟨c, 0, 0⟩).status) =
    [0x80000401#32, 0x80000701#32, 0x80000901#32, 0x80000A01#32, 0x80000D01#32, 0x80000702#32] := by decide

/-! ## Witnesses: for every statement with hypotheses, states and operands that meet them, at the bounds of its clauses -/

/-- A command record with an op value and nothing else. -/
def opCmd (op : Byte) : Cmd := { zeroCmd with op := op }

theorem witness_UnassignedOpsRaiseIllegalCommand : ∀ w ∈ [0x00#8, 0x0F#8, 0x17#8, 0x1F#8, 0x25#8, 0x2F#8, 0x32#8, 0x3F#8,
    0x42#8, 0x4F#8, 0x55#8, 0x5F#8, 0x65#8, 0x6F#8, 0x75#8, 0xFF#8],
    (withEvent (.command (opCmd w))).input = .command (opCmd w) :: [] ∧
    ((opCmd w).op.toNat ≤ 0x0F ∨ (0x17 ≤ (opCmd w).op.toNat ∧ (opCmd w).op.toNat ≤ 0x1F) ∨
      (0x25 ≤ (opCmd w).op.toNat ∧ (opCmd w).op.toNat ≤ 0x2F) ∨ (0x32 ≤ (opCmd w).op.toNat ∧ (opCmd w).op.toNat ≤ 0x3F) ∨
      (0x42 ≤ (opCmd w).op.toNat ∧ (opCmd w).op.toNat ≤ 0x4F) ∨ (0x55 ≤ (opCmd w).op.toNat ∧ (opCmd w).op.toNat ≤ 0x5F) ∨
      (0x65 ≤ (opCmd w).op.toNat ∧ (opCmd w).op.toNat ≤ 0x6F) ∨ 0x75 ≤ (opCmd w).op.toNat) := by decide

theorem witness_StepRunsTheDecodedCommand :
    (withEvent (.command (opCmd 0x12#8))).input = .command (opCmd 0x12#8) :: [] ∧ decode (opCmd 0x12#8) = .ok .bbToHex ∧
    State.reset.input = [] := ⟨rfl, rfl, rfl⟩

/-- One command that succeeds and one that fails; and two states with one `BB` that differ in every register, in which
one command succeeds and one fails. -/
theorem witness_EveryCommandRewritesTheOutcome :
    exec (.bbAlloc 0) State.reset = .next (run (.bbAlloc 0) State.reset) ∧ (run (.bbAlloc 0) State.reset).status = 0#32 ∧
    exec .bbToHex State.reset = .next (run .bbToHex State.reset) ∧ (run .bbToHex State.reset).status = 0x80000102#32 ∧
    (zeros 3).bb = stale.bb ∧ (zeros 3).cfg = stale.cfg ∧
    exec (.bbReadUint 0 3) (zeros 3) = .next (run (.bbReadUint 0 3) (zeros 3)) ∧
    exec (.bbReadUint 0 3) stale = .next (run (.bbReadUint 0 3) stale) ∧
    exec (.bbAlloc (-1)) (zeros 3) = .next (run (.bbAlloc (-1)) (zeros 3)) ∧
    exec (.bbAlloc (-1)) stale = .next (run (.bbAlloc (-1)) stale) :=
  ⟨rfl, by decide, rfl, by decide, rfl, rfl, rfl, rfl, rfl, rfl⟩

theorem witness_OnlyResetClearsErrSeen :
    step { withEvent (.reset none) with status := 0x80000102#32 } =
      .next (after (step { withEvent (.reset none) with status := 0x80000102#32 })) ∧
    statusErrSeen 0x80000102#32 = true ∧
    statusErrSeen (after (step { withEvent (.reset none) with status := 0x80000102#32 })).status = false :=
  ⟨rfl, by decide, by decide⟩

theorem witness_ResetInputGivesTheResetState :
    (withEvent (.reset none)).input = .reset none :: [] ∧
    (withEvent (.reset (some (opCmd 0x12#8)))).input = .reset (some (opCmd 0x12#8)) :: [] := ⟨rfl, rfl⟩

/-- Every register number, and register 4 with and without a buffer. -/
theorem witness_HostReadsTheRegisters :
    (withEvent (.read .status)).input = .read .status :: [] ∧
    [PortReg.status, .erra, .errb, .res, .bbLen, .bbValid].map PortReg.number = [0, 1, 2, 3, 4, 5] ∧
    (withEvent (.read .bbLen)).bb.valid = false ∧
    ({ zeros 0 with input := [.read .bbLen] } : State).bb.valid = true := by decide

theorem witness_EveryStepKeepsTheInvariant :
    Inv (withEvent (.command (opCmd 0x10#8))) ∧
    step (withEvent (.command (opCmd 0x10#8))) = .next (after (step (withEvent (.command (opCmd 0x10#8))))) :=
  ⟨⟨.inl ⟨false, by decide⟩, ⟨fun _ => ⟨rfl, rfl⟩, fun _ => rfl⟩, trivial, rfl, rfl⟩, rfl⟩

/-- Two states that differ in what is unspecified: without a buffer, and with one. -/
theorem witness_UnspecifiedContentsNeverShow :
    SameVisible State.reset { State.reset with bb := ⟨[true], false⟩, sb := ⟨[true], true⟩, free := 7 } ∧
    SameVisible (zeros 3) { zeros 3 with sb := ⟨[true], true⟩, free := 7 } :=
  ⟨⟨rfl, rfl, rfl, rfl, rfl, rfl, rfl, rfl, by decide⟩, ⟨rfl, rfl, rfl, rfl, rfl, rfl, rfl, rfl, fun _ => rfl⟩⟩

/-- The commands of both kinds, a buffer that stays valid and one that a failing PC.ENCODE invalidates. -/
theorem witness_CommandsWriteOnlyTheirState :
    exec (.bbReadUint 0 3) (zeros 3) = .next (run (.bbReadUint 0 3) (zeros 3)) ∧ writesBuffer (.bbReadUint 0 3) = false ∧
    usesScratchBuffer (.bbReadUint 0 3) = false ∧
    exec (.bbWriteUint 7#64 0 3) (zeros 3) = .next (run (.bbWriteUint 7#64 0 3) (zeros 3)) ∧
    writesBits (.bbWriteUint 7#64 0 3) = true ∧ (run (.bbWriteUint 7#64 0 3) (zeros 3)).bb.valid = true ∧
    (zeros 3).bb.valid = true ∧ mayPoison (.bbWriteUint 7#64 0 3) = false ∧
    exec (.pcEncodeSgtin (-1) 3 (str "1") (str "1")) (zeros 3) =
      .next (run (.pcEncodeSgtin (-1) 3 (str "1") (str "1")) (zeros 3)) ∧
    mayPoison (.pcEncodeSgtin (-1) 3 (str "1") (str "1")) = true ∧
    statusClass (run (.pcEncodeSgtin (-1) 3 (str "1") (str "1")) (zeros 3)).status ≠ 0#3 :=
  ⟨rfl, rfl, rfl, rfl, rfl, rfl, rfl, rfl, rfl, rfl, by decide⟩

/-- A failure that keeps the buffer and one that invalidates it. -/
theorem witness_ExceptionsKeepTheBuffer :
    exec (.bbAlloc (-1)) (zeros 3) = .next (run (.bbAlloc (-1)) (zeros 3)) ∧
    statusClass (run (.bbAlloc (-1)) (zeros 3)).status ≠ 0#3 ∧
    exec (.s7Encode [128] 0 7) (zeros 7) = .next (run (.s7Encode [128] 0 7) (zeros 7)) ∧
    statusClass (run (.s7Encode [128] 0 7) (zeros 7)).status ≠ 0#3 := ⟨rfl, by decide, rfl, by decide⟩

theorem witness_NoBufferUntilOneIsCreated :
    needsBuffer .bbToHex = true ∧ State.reset.bb.valid = false ∧ needsBuffer (.bbAlloc 0) = false ∧
    exec (.bbAlloc 0) State.reset = .next (run (.bbAlloc 0) State.reset) ∧ (zeros 0).bb.valid = true ∧
    exec .bbToHex (zeros 0) = .next (run .bbToHex (zeros 0)) := ⟨rfl, rfl, rfl, rfl, rfl, rfl⟩

/-- The op value, −1, one above the limit, and the limit itself. -/
theorem witness_AllocMakesAZeroBuffer :
    (opCmd 0x10#8).op = 0x10#8 ∧ (-1 : Int) < 0 ∧ limited.cfg.bbMaxBits = some 256 ∧ 256 < 257 ∧
    (∀ m, limited.cfg.bbMaxBits = some m → 256 ≤ m) ∧ (∀ m, State.reset.cfg.bbMaxBits = some m → 0 ≤ m) := by
  simp [opCmd, limited]

/-- A bad character first and last, a text of 260 bits in 256, one of 256. -/
theorem witness_FromHexMakesTheBufferOfTheText :
    (opCmd 0x11#8).op = 0x11#8 ∧ (∀ d ∈ ([] : Str), isHex d = true) ∧ isHex 71 = false ∧ (∀ d ∈ h96, isHex d = true) ∧
    (∀ d ∈ List.replicate 65 48, isHex d = true) ∧ limited.cfg.bbMaxBits = some 256 ∧
    256 < 4 * (List.replicate 65 48).length ∧ 4 * (List.replicate 64 48).length = 256 := by decide

theorem witness_ToHexRendersTheBuffer : (opCmd 0x12#8).op = 0x12#8 ∧ State.reset.bb.valid = false ∧
    (zeros 0).bb.valid = true ∧ (zeros 198).bb.valid = true := by decide

/-- A field of 64 bits, of 8 bits and of 1 bit that end at the buffer's end. -/
theorem witness_ReadsGiveTheFieldValue : (zeros 70).bb.valid = true ∧ 6 + 64 ≤ (zeros 70).bb.len ∧
    62 + 8 ≤ (zeros 70).bb.len ∧ 69 + 1 ≤ (zeros 70).bb.len := by decide

/-- No buffer, the widths 0, 65 and 9, the position −1, a field one past the end. -/
theorem witness_FieldAccessChecksInOrder : State.reset.bb.valid = false ∧ (zeros 70).bb.valid = true ∧
    ((0 : Int) < 1 ∨ (64 : Int) < 0) ∧ ((65 : Int) < 1 ∨ (64 : Int) < 65) ∧ ((9 : Int) < 1 ∨ (8 : Int) < 9) ∧
    ¬((8 : Int) < 1 ∨ (8 : Int) < 8) ∧ (-1 : Int) < 0 ∧ ((zeros 70).bb.len : Int) < 63 + 8 := by decide

/-- The largest value of 64 bits, and values at and below the bound of 3 bits. -/
theorem witness_WritesSetTheFieldAndNothingElse : (zeros 70).bb.valid = true ∧ 6 + 64 ≤ (zeros 70).bb.len ∧
    (0xFFFFFFFFFFFFFFFF#64).toNat < 2 ^ 64 ∧ 67 + 3 ≤ (zeros 70).bb.len ∧ 2 ^ 3 ≤ (8#64).toNat ∧ (7#64).toNat < 2 ^ 3 := by
  decide

theorem witness_WriteThenReadGivesTheValue :
    exec (.bbWriteUint 5#64 3 3) (zeros 8) = .next (run (.bbWriteUint 5#64 3 3) (zeros 8)) ∧
    statusClass (run (.bbWriteUint 5#64 3 3) (zeros 8)).status = 0#3 ∧
    exec (.bbWriteByte 5#64 3 3) (zeros 8) = .next (run (.bbWriteByte 5#64 3 3) (zeros 8)) ∧
    statusClass (run (.bbWriteByte 5#64 3 3) (zeros 8)).status = 0#3 ∧ (0 : Int) + 3 ≤ 3 ∧ (3 : Int) + 3 ≤ 6 ∧
    exec (.bbReadUint 6 2) (zeros 8) = .next ((zeros 8).succeed (.uint 0#64)) ∧
    exec (.bbReadByte 0 3) (zeros 8) = .next ((zeros 8).succeed (.uint 0#64)) :=
  ⟨rfl, by decide, rfl, by decide, by decide, by decide, rfl, rfl⟩

theorem witness_HexTextRoundTrips : (∀ c ∈ str "ab12", isHex c = true) ∧ (str "ab12").length % 4 = 0 ∧
    (∀ m, State.reset.cfg.bbMaxBits = some m → 4 * (str "ab12").length ≤ m) ∧ (zeros 198).bb.valid = true ∧
    (∀ m, (zeros 198).cfg.bbMaxBits = some m → 16 * (((zeros 198).bb.len + 15) / 16) ≤ m) := by
  refine ⟨by decide, by decide, fun m h => ?_, rfl, fun m h => ?_⟩ <;> cases h

/-- The first and the last row of each table, in the buffer that just holds them. -/
theorem witness_PartitionDecodeReadsTheFields :
    (zeros 58).bb.valid = true ∧ ptSgtin[fieldValue (zeros 58).bb.bits 11 3]? = some ⟨40, 12, 4, 1⟩ ∧
    11 + 3 + 40 + 4 ≤ (zeros 58).bb.len ∧ ptSscc[fieldValue (zeros 72).bb.bits 11 3]? = some ⟨40, 12, 18, 5⟩ ∧
    11 + 3 + 40 + 18 ≤ (zeros 72).bb.len ∧
    ptSgtin[fieldValue (hex "C00000000000").bb.bits 0 3]? = some ⟨20, 6, 24, 7⟩ ∧
    0 + 3 + 20 + 24 ≤ (hex "C00000000000").bb.len ∧
    ptSscc[fieldValue (hex "C000000000000000").bb.bits 0 3]? = some ⟨20, 6, 38, 11⟩ := by decide

/-- No buffer, −1, a selector past the end, a selector of 7, field 1 past the end, field 2 past the end. -/
theorem witness_PartitionDecodeChecksInOrder :
    State.reset.bb.valid = false ∧ (zeros 58).bb.valid = true ∧ (-1 : Int) < 0 ∧ ((zeros 58).bb.len : Int) < 56 + 3 ∧
    fieldValue (hex "E0").bb.bits 0 3 = 7 ∧ ptSgtin[fieldValue (zeros 58).bb.bits 55 3]? = some ⟨40, 12, 4, 1⟩ ∧
    (zeros 58).bb.len < 55 + 3 + 40 ∧ ¬(zeros 58).bb.len < 12 + 3 + 40 ∧ (zeros 58).bb.len < 12 + 3 + 40 + 4 := by decide

/-- Full-length operands of row 0, and short operands of row 6, in the buffer that just holds them. -/
theorem witness_PartitionEncodeWritesTheFields :
    (zeros 58).bb.valid = true ∧ ptSgtin[0]? = some ⟨40, 12, 4, 1⟩ ∧ (stripZ (str "999999999999")).length ≤ 12 ∧
    (stripZ (str "9")).length ≤ 1 ∧ parseDec (str "999999999999") = some 999999999999 ∧ parseDec (str "9") = some 9 ∧
    11 + 3 + 40 + 4 ≤ (zeros 58).bb.len ∧ ptSscc[6]? = some ⟨20, 6, 38, 11⟩ ∧ parseDec (str "0") = some 0 ∧
    (stripZ (str "0")).length ≤ 6 ∧ 0 + 3 + 20 + 38 ≤ (zeros 61).bb.len := by decide

/-- Each check in its turn on row 3 of the SGTIN table; p = 6 is the last row and p = 7 none. -/
theorem witness_PartitionEncodeChecksInOrder :
    State.reset.bb.valid = false ∧ (zeros 58).bb.valid = true ∧ 7 ≤ 7 ∧ ¬7 ≤ 6 ∧ ptSgtin[6]? = some ⟨20, 6, 24, 7⟩ ∧
    ptSgtin[3]? = some ⟨30, 9, 14, 4⟩ ∧ 9 < (stripZ (str "1234567890")).length ∧ 4 < (stripZ (str "12345")).length ∧
    ¬4 < (stripZ (str "01234")).length ∧ parseDec [] = none ∧ parseDec (str "12a4") = none ∧
    parseDec (str "1") = some 1 ∧ (-1 : Int) < 0 ∧ (zeros 58).bb.len < 56 + 3 ∧ (zeros 58).bb.len < 55 + 3 + 30 ∧
    ¬(zeros 58).bb.len < 12 + 3 + 30 ∧ (zeros 58).bb.len < 12 + 3 + 30 + 14 := by decide

theorem witness_Len2PartLooksUpTheLength : (opCmd 0x24#8).op = 0x24#8 ∧ 6 ≤ (str "348338").length ∧
    (str "123456789012").length ≤ 12 ∧ (str "12345").length < 6 ∧ 12 < (str "1234567890123").length := by decide

/-- A field below 10^digits (P1) and one above it (P3). -/
theorem witness_DecodedStringsArePadded :
    exec (.pcDecodeSgtin 0) (zeros 58) = .next (run (.pcDecodeSgtin 0) (zeros 58)) ∧
    (run (.pcDecodeSgtin 0) (zeros 58)).res = .part 0 (str "000000000000") (str "0") ∧
    exec (.pcDecodeSgtin 0) (hex "DFFFFE000000") = .next (run (.pcDecodeSgtin 0) (hex "DFFFFE000000")) ∧
    (run (.pcDecodeSgtin 0) (hex "DFFFFE000000")).res = .part 6 (str "1048575") (str "0000000") :=
  ⟨rfl, by decide, rfl, by decide⟩

/-- Operands of the table's lengths, and shorter ones. -/
theorem witness_PartitionEncodeThenDecode :
    exec (.pcEncodeSgtin 0 6 (str "348338") (str "0781321")) (zeros 58) =
      .next (run (.pcEncodeSgtin 0 6 (str "348338") (str "0781321")) (zeros 58)) ∧
    statusClass (run (.pcEncodeSgtin 0 6 (str "348338") (str "0781321")) (zeros 58)).status = 0#3 ∧
    statusClass (run (.pcEncodeSscc 0 6 (str "1") (str "2")) (zeros 61)).status = 0#3 := ⟨rfl, by decide, by decide⟩

/-- No buffer, −7, 8, −1, a field one septet past the end; a field of no septets passes. -/
theorem witness_SeptetFieldChecksInOrder : State.reset.bb.valid = false ∧ (zeros 14).bb.valid = true ∧ (-7 : Int) < 0 ∧
    (8 : Int) % 7 ≠ 0 ∧ (14 : Int) % 7 = 0 ∧ (-1 : Int) < 0 ∧ ((zeros 14).bb.len : Int) < 1 + 14 ∧
    ¬((zeros 14).bb.len : Int) < 14 + 0 := by decide

/-- The septets of "A" then zero, of a `%` the field ends after, of a `%` without hex digits. -/
theorem witness_S7DecodeReadsTheString : (hex "8200").bb.valid = true ∧ 0 + 7 * 2 ≤ (hex "8200").bb.len ∧
    Spells (fieldSeptets (hex "8200").bb.bits 0 2) [65] ∧ BadEscapeAt 0 (fieldSeptets (hex "4A00").bb.bits 0 2) 0 0 ∧
    BadEscapeAt 0 (fieldSeptets (hex "4A0000").bb.bits 0 3) 0 1 := by
  refine ⟨rfl, by decide, ?_, ?_, ?_⟩
  · have : fieldSeptets (hex "8200").bb.bits 0 2 = [65, 0] := by decide
    rw [this]; exact .char _ _ _ (by decide) (by decide) (.terminator _)
  · have : fieldSeptets (hex "4A00").bb.bits 0 2 = [0x25, 0] := by decide
    rw [this]; exact .cutOff _ _ (by decide)
  · have : fieldSeptets (hex "4A0000").bb.bits 0 3 = [0x25, 0, 0] := by decide
    rw [this]; exact .notHex _ _ _ _ (by decide)

/-- The input `A%41` gives two characters, the input of one character 127 one. -/
theorem witness_S7EncodeWritesTheString : (zeros 14).bb.valid = true ∧ 0 + 7 * 2 ≤ (zeros 14).bb.len ∧
    EncodesAs [65, 0x25, 52, 49] [65, 65] ∧ (∀ c ∈ [65, 65].take 2, c ≤ 127) ∧ EncodesAs [127] [127] ∧
    (∀ c ∈ [127].take 2, c ≤ 127) := by
  refine ⟨rfl, by decide, ?_, by decide, ?_, by decide⟩
  · exact .char _ _ _ (by intro _ _ _ h; simp at h) (.escape 52 49 _ _ (by decide) (by decide) .done)
  · exact .char _ _ _ (by intro _ _ _ h; simp at h) .done

theorem witness_S7EncodeOverflowInvalidates : (zeros 14).bb.valid = true ∧ 0 + 7 * 2 ≤ (zeros 14).bb.len ∧
    EncodesAs [65, 128] ([65] ++ 128 :: []) ∧ (∀ d ∈ [65], d ≤ 127) ∧ 127 < 128 ∧ [65].length < 2 := by
  refine ⟨rfl, by decide, ?_, by decide, by decide, by decide⟩
  exact .char _ _ _ (by intro _ _ _ h; simp at h) (.char _ _ _ (by intro _ _ _ h; simp at h) .done)

/-- The input `A%41B` into a field of zeros that is one septet too short. -/
theorem witness_SeptetStringsRoundTrip : (zeros 14).bb.valid = true ∧ 0 + 7 * 2 ≤ (zeros 14).bb.len ∧
    (∀ a, a < 14 → (zeros 14).bb.bits[a]? = some false) ∧ EncodesAs [65, 0x25, 52, 49, 66] [65, 65, 66] ∧
    (∀ c ∈ [65, 65, 66].take 2, 1 ≤ c ∧ c ≤ 127 ∧ c ≠ 0x25) ∧ (∀ c ∈ str "AB", c ≠ 0x25) := by
  refine ⟨rfl, by decide, by decide, ?_, by decide, by decide⟩
  exact .char _ _ _ (by intro _ _ _ h; simp at h)
    (.escape 52 49 _ _ (by decide) (by decide) (.char _ _ _ (by intro _ _ _ h; simp at h) .done))

/-- Texts of 0 and 1 characters, the three headers and one that is none, and each bad first character. -/
theorem witness_DispatchBinaryFollowsTheHeader : (opCmd 0x40#8).op = 0x40#8 ∧ ([] : Str).length < 2 ∧
    (str "3").length < 2 ∧ isHex 71 = false ∧ isHex 51 = true ∧ 16 * hexval 51 + hexval 48 = 0x30 ∧
    16 * hexval 51 + hexval 49 = 0x31 ∧ 16 * hexval 51 + hexval 54 = 0x36 ∧ 16 * hexval 51 + hexval 97 = 0x3A := by decide

theorem witness_DispatchUriFollowsTheToken : (opCmd 0x41#8).op = 0x41#8 ∧ u96.kind ≠ .id ∧
    u96.schemeToken = str "sgtin-96" ∧ u198.schemeToken = str "sgtin-198" ∧ uss.schemeToken = str "sscc-96" ∧
    str "sgtin" ≠ str "sgtin-96" := by decide

theorem witness_Sgtin96DecodeReadsTheFields : h96.length = 24 ∧ (∀ c ∈ h96, isHex c = true) ∧
    fieldValue (hexBits h96) 0 8 = 0x30 ∧ ptSgtin[fieldValue (hexBits h96) 11 3]? = some ⟨30, 9, 14, 4⟩ := by decide

/-- The text of T30, whose serial starts with `%` and a zero septet. -/
def t30 : Str := str "3639542C82FB02528066D1AB66EE1CB062C99B46AD9BB872C000"

/-- H198, whose serial is spelled, and T30, whose serial has a bad escape at septet 0. -/
theorem witness_Sgtin198DecodeReadsTheFields : h198.length = 52 ∧ (∀ c ∈ h198, isHex c = true) ∧
    fieldValue (hexBits h198) 0 8 = 0x36 ∧ ptSgtin[fieldValue (hexBits h198) 11 3]? = some ⟨20, 6, 24, 7⟩ ∧
    Spells (fieldSeptets (hexBits h198) 58 20) (str "12345678901234567890") ∧ t30.length = 52 ∧
    (∀ c ∈ t30, isHex c = true) ∧ fieldValue (hexBits t30) 0 8 = 0x36 ∧
    ptSgtin[fieldValue (hexBits t30) 11 3]? = some ⟨20, 6, 24, 7⟩ ∧ BadEscapeAt 0 (fieldSeptets (hexBits t30) 58 20) 0 1 := by
  refine ⟨by decide, by decide, by decide, by decide, (decodeSeptets_eq_ok_iff 0 _ _).mp (by decide +kernel), by decide,
    by decide, by decide, by decide, ?_⟩
  have : fieldSeptets (hexBits t30) 58 20 = 0x25 :: 0 :: ((fieldSeptets (hexBits t30) 58 20).drop 2) := by decide +kernel
  rw [this]; exact .notHex _ _ _ _ (by decide)

theorem witness_Sscc96DecodeReadsTheFields : hss.length = 24 ∧ (∀ c ∈ hss, isHex c = true) ∧
    fieldValue (hexBits hss) 0 8 = 0x31 ∧ ptSscc[fieldValue (hexBits hss) 11 3]? = some ⟨20, 6, 38, 11⟩ := by decide

/-- A text one short, a bad last character (T3), the header of another scheme (T2), the selector 7 (T4). -/
theorem witness_TagDecodeChecksInOrder : (str "3159542C800000000100000").length ≠ 24 ∧
    str "302D28B329B0F6C00000000G" = str "302D28B329B0F6C00000000" ++ 71 :: [] ∧
    (str "302D28B329B0F6C00000000G").length = 24 ∧ (∀ d ∈ str "302D28B329B0F6C00000000", isHex d = true) ∧
    isHex 71 = false ∧ (∀ d ∈ h96, isHex d = true) ∧ h96.length = 24 ∧ fieldValue (hexBits h96) 0 8 ≠ 0x31 ∧
    fieldValue (hexBits (str "303D28B329B0F6C000000001")) 0 8 = 0x30 ∧
    fieldValue (hexBits (str "303D28B329B0F6C000000001")) 11 3 = 7 := by decide

theorem witness_WrongLengthIsRejectedFirst : (str "3159542C800000000100000").length = 23 ∧
    (List.replicate 25 (71 : Nat)).length = 25 := by decide

/-- The value of S1 and the largest serial. -/
theorem witness_Sgtin96EncodeWritesTheFields : 7 ≤ 7 ∧ len2part (str "311112347").length = some 3 ∧
    ptSgtin[3]? = some ⟨30, 9, 14, 4⟩ ∧ (stripZ (str "311112347")).length ≤ 9 ∧ (stripZ (str "0987")).length ≤ 4 ∧
    parseDec (str "311112347") = some 311112347 ∧ parseDec (str "0987") = some 987 ∧
    parseDec (str "274877906943") = some 274877906943 ∧ 274877906943 < 2 ^ 38 ∧ str "274877906943" = dec 274877906943 := by
  decide +kernel

/-- A serial of seven-bit characters and one with the character E9. -/
theorem witness_Sgtin198EncodeWritesTheFields : 3 ≤ 7 ∧ len2part (str "0614141").length = some 5 ∧
    ptSgtin[5]? = some ⟨24, 7, 20, 6⟩ ∧ (stripZ (str "0614141")).length ≤ 7 ∧ (stripZ (str "000001")).length ≤ 6 ∧
    parseDec (str "0614141") = some 614141 ∧ parseDec (str "000001") = some 1 ∧ EncodesAs [65, 127] [65, 127] ∧
    (∀ c ∈ [65, 127].take 20, c ≤ 127) ∧ EncodesAs [65, 0xE9] ([65] ++ 0xE9 :: []) ∧ (∀ d ∈ [65], d ≤ 127) ∧
    127 < 0xE9 ∧ [65].length < 20 := by
  refine ⟨by decide, by decide, by decide, by decide, by decide, by decide, by decide, encodesAs_self (by decide),
    by decide, encodesAs_self (by decide), by decide, by decide, by decide⟩

theorem witness_Sscc96EncodeWritesTheFields : 2 ≤ 7 ∧ len2part (str "348338").length = some 6 ∧
    ptSscc[6]? = some ⟨20, 6, 38, 11⟩ ∧ (stripZ (str "348338")).length ≤ 6 ∧
    (stripZ (str "99999999999")).length ≤ 11 ∧ parseDec (str "348338") = some 348338 ∧
    parseDec (str "99999999999") = some 99999999999 := by decide

/-- Each check in its turn: filter 8 (7 passes), prefixes of 5 and 13 characters (6 and 12 pass), the fields of row 3. -/
theorem witness_TagEncodeChecksInOrder : 7 < 8 ∧ ¬7 < 7 ∧ (str "31111").length < 6 ∧ 12 < (str "3111123470000").length ∧
    ¬((str "348338").length < 6 ∨ 12 < (str "348338").length) ∧
    ¬((str "999999999999").length < 6 ∨ 12 < (str "999999999999").length) ∧
    (schemeTable v96.scheme)[12 - (tagCompanyPrefix v96).length]? = some ⟨30, 9, 14, 4⟩ ∧
    ¬9 < (stripZ (str "31111234A")).length ∧ parseDec (str "31111234A") = none ∧ 4 < (stripZ (str "12345")).length ∧
    parseDec [] = none ∧ parseDec (str "0987") = some 987 ∧ str "01" ≠ dec 1 ∧ ¬274877906944 < 2 ^ 38 := by decide

/-- The values of S1, S4 and S5, and the filter digits 0 and 7. -/
theorem witness_FromUriReadsTheParts : 0 ≤ 7 ∧ 7 ≤ 7 ∧ len2part (str "311112347").length = some 3 ∧
    (str "311112347").all isDigit = true ∧ (str "0987").all isDigit = true ∧ (str "0987").length = 4 ∧
    ptSgtin[3]? = some ⟨30, 9, 14, 4⟩ ∧ str "1" = dec 1 ∧ 1 < 2 ^ 38 ∧ len2part (str "348338").length = some 6 ∧
    (str "348338").all isDigit = true ∧ (str "00000000001").all isDigit = true ∧ (str "00000000001").length = 11 ∧
    ptSscc[6]? = some ⟨20, 6, 38, 11⟩ := by decide

/-- Each check in its turn, on changes of the value of S2. -/
theorem witness_FromUriChecksInOrder : u96.kind ≠ .id ∧ str "sgtin" ≠ str "sgtin-96" ∧ u96.schemeToken = str "sgtin-96" ∧
    u96.parts.length = 4 ∧ (u96.parts.getD 0 [] = [48 + 1]) ∧ (∀ d, d ≤ 7 → str "8" ≠ [48 + d]) ∧
    (str "31111").length < 6 ∧ 12 < (str "3111123470000").length ∧ (str "31111234A").all isDigit = false ∧
    (schemeTable .sgtin96)[12 - (u96.parts.getD 1 []).length]? = some ⟨30, 9, 14, 4⟩ ∧ (str "987").length ≠ 4 ∧
    (str "098A").all isDigit = false ∧ parseDec (str "1A") = none ∧ uss.parts.length = 3 := by decide

theorem witness_WrongOperandTypeIsRejected : vss.scheme ≠ .sgtin96 ∧ v96.scheme ≠ .sgtin198 ∧ v198.scheme ≠ .sscc96 := by
  decide

theorem witness_BinaryRoundTrip : tagWF v96 = true ∧ tagWF v198 = true ∧ tagWF vss = true ∧
    tagWF (.sgtin96 7 0 (str "999999999999") (str "9") (str "0")) = true := by decide +kernel

theorem witness_UriRoundTrip : tagWF v96 = true ∧ tagWF v198 = true ∧ tagWF vss = true := by decide +kernel

/-- A decode that gives a well-formed value, for each scheme. -/
theorem witness_DecodeThenEncode :
    exec (decodeInstr .sgtin96 h96) State.reset = .next (run (.sgtin96Decode h96) State.reset) ∧
    (run (.sgtin96Decode h96) State.reset).res = .tag v96 ∧ tagWF v96 = true ∧
    exec (decodeInstr .sgtin198 h198) State.reset = .next (run (.sgtin198Decode h198) State.reset) ∧
    (run (.sgtin198Decode h198) State.reset).res = .tag v198 ∧ tagWF v198 = true ∧
    exec (decodeInstr .sscc96 hss) State.reset = .next (run (.sscc96Decode hss) State.reset) ∧
    (run (.sscc96Decode hss) State.reset).res = .tag vss ∧ tagWF vss = true :=
  ⟨exec_run (.sgtin96Decode h96) _, by decide +kernel, by decide +kernel, exec_run (.sgtin198Decode h198) _,
    by decide +kernel, by decide +kernel, exec_run (.sscc96Decode hss) _, by decide +kernel, by decide +kernel⟩

end Sys2Proof.Tests
end

/-! # Proofs of the family 10_state: the architectural state, the invariant and what commands may write

Every statement about all commands is read off `EndsAs`, every statement about all steps off `EventEnds`. -/

namespace Sys2Proof.Machine

/-! ## STATUS: reserved bits, and the codes that name NO_BUFFER -/

/-- Bits 7..3 of STATUS are reserved (R36). -/
@[simp] theorem statusWord_reserved_low (e : Bool) (c : Byte) (k : BitVec 3) :
    (statusWord e c k).extractLsb' 3 5 = 0#5 := by
  apply BitVec.eq_of_getLsbD_eq
  intro i hi
  have h8 : ¬ 8 ≤ 3 + i := by omega
  have h31 : ¬ 3 + i = 31 := by omega
  simp [statusWord_getLsbD, h8, h31]

/-- Bits 30..16 of STATUS are reserved (R36). -/
@[simp] theorem statusWord_reserved_high (e : Bool) (c : Byte) (k : BitVec 3) :
    (statusWord e c k).extractLsb' 16 15 = 0#15 := by
  apply BitVec.eq_of_getLsbD_eq
  intro i hi
  have hk : k.getLsbD (16 + i) = false := BitVec.getLsbD_of_ge _ _ (by omega)
  have hc : c.getLsbD (16 + i - 8) = false := BitVec.getLsbD_of_ge _ _ (by omega)
  have h31 : ¬ 16 + i = 31 := by omega
  simp [statusWord_getLsbD, hk, hc, h31]

/-- The reset value of STATUS is that of a success with ERR_SEEN 0 (R51). -/
theorem statusWord_reset : (0#32 : Word32) = statusWord false 0#8 0#3 := by decide

/-- CLASS 2 with CAUSE 1 is RangeError(NO_BUFFER) and nothing else (R331). -/
theorem Cause.eq_noBuffer_of_codes {c : Cause} (hcls : c.cls.code = 2#3) (hcode : c.code = 0x01#8) : c = .noBuffer := by
  revert hcls hcode
  cases c <;> decide

/-! ## Commands: the two outcomes -/

/-- What no work of a command on its buffers touches: STATUS, which only its end writes, the parameter and the host's
side. -/
structure SameFrame (s u : State) : Prop where
  status : u.status = s.status
  cfg : u.cfg = s.cfg
  input : u.input = s.input
  reads : u.reads = s.reads

theorem SameFrame.refl (s : State) : SameFrame s s := ⟨rfl, rfl, rfl, rfl⟩

theorem sameFrame_withBuffer (s : State) (bits : List Bool) : SameFrame s (s.withBuffer bits) := ⟨rfl, rfl, rfl, rfl⟩

theorem sameFrame_poison (s : State) : SameFrame s s.poison := ⟨rfl, rfl, rfl, rfl⟩

theorem sameFrame_useScratch (s : State) : SameFrame s s.useScratch := ⟨rfl, rfl, rfl, rfl⟩

theorem sameFrame_useScratch_withBuffer (s : State) (bits : List Bool) :
    SameFrame s (s.useScratch.withBuffer bits) := ⟨rfl, rfl, rfl, rfl⟩

/-- What a command that answers has done is one of the ways of `EndsAs`. -/
theorem endsAs_of_exec {i : Instr} {s t : State} (h : exec i s = .next t) : EndsAs i s t := by
  obtain ⟨t', ht', hends⟩ := exec_ends i s
  cases ht'.symm.trans h
  exact hends

/-- After its work on the buffers a command ends in a success or in an exception (R36, R330). -/
theorem EndsAs.succeeds_or_raises {i : Instr} {s t : State} (h : EndsAs i s t) :
    ∃ u, SameFrame s u ∧ ((∃ r, ResLegal r ∧ t = u.succeed r) ∨ ∃ e, t = u.raise e) := by
  cases h with
  | result r hr _ => exact ⟨s, .refl s, .inl ⟨r, hr, rfl⟩⟩
  | fails e _ _ => exact ⟨s, .refl s, .inr ⟨e, rfl⟩⟩
  | writes bits => exact ⟨_, sameFrame_withBuffer s bits, .inl ⟨.none, trivial, rfl⟩⟩
  | poisons e => exact ⟨_, sameFrame_poison s, .inr ⟨e, rfl⟩⟩
  | creates bits => exact ⟨_, sameFrame_withBuffer s bits, .inl ⟨.none, trivial, rfl⟩⟩
  | scratchResult r _ _ hr => exact ⟨_, sameFrame_useScratch s, .inl ⟨r, hr, rfl⟩⟩
  | scratchFails e => exact ⟨_, sameFrame_useScratch s, .inr ⟨e, rfl⟩⟩
  | scratchCreates bits => exact ⟨_, sameFrame_useScratch_withBuffer s bits, .inl ⟨.none, trivial, rfl⟩⟩

/-- A command succeeds or fails, and its outcome says which (R36, R37, R330). -/
theorem EndsAs.outcome {i : Instr} {s t : State} (h : EndsAs i s t) :
    (t.status = statusWord (statusErrSeen s.status) 0#8 0#3 ∧ t.erra = 0#64 ∧ t.errb = 0#64) ∨
    (∃ c : Cause, t.status = statusWord true c.code c.cls.code ∧ t.res = .none) := by
  obtain ⟨u, hu, ⟨r, -, rfl⟩ | ⟨e, rfl⟩⟩ := h.succeeds_or_raises
  · exact .inl ⟨by simp [hu.status], rfl, rfl⟩
  · exact .inr ⟨e.cause, rfl, rfl⟩

/-- STATUS after a command follows from CLASS and CAUSE, and from ERR_SEEN before it (R36). -/
theorem EndsAs.status_eq {i : Instr} {s t : State} (h : EndsAs i s t) :
    t.status = statusWord (statusErrSeen s.status || decide (statusClass t.status ≠ 0#3)) (statusCause t.status)
      (statusClass t.status) := by
  obtain ⟨hst, -, -⟩ | ⟨c, hst, -⟩ := h.outcome
  · simp [hst]
  · simp [hst, c.cls_code_ne_zero]

/-- No command clears ERR_SEEN (R340). -/
theorem EndsAs.errSeen_kept {i : Instr} {s t : State} (h : EndsAs i s t) (hs : statusErrSeen s.status = true) :
    statusErrSeen t.status = true := by
  rw [h.status_eq]
  simp [hs]

/-! ## Commands: what they leave unchanged -/

/-- No command changes the parameter or the host's side (R52). -/
theorem EndsAs.frame {i : Instr} {s t : State} (h : EndsAs i s t) :
    t.cfg = s.cfg ∧ t.input = s.input ∧ t.reads = s.reads := by
  obtain ⟨u, hu, ⟨r, -, rfl⟩ | ⟨e, rfl⟩⟩ := h.succeeds_or_raises
  · exact ⟨hu.cfg, hu.input, hu.reads⟩
  · exact ⟨hu.cfg, hu.input, hu.reads⟩

/-- The commands that write bits are among those that write `BB`. -/
theorem writesBuffer_of_writesBits {i : Instr} (h : writesBits i = true) : writesBuffer i = true := by
  cases i <;> simp_all [writesBits, writesBuffer]

/-- The commands that may invalidate `BB` are among those that write it. -/
theorem writesBuffer_of_mayPoison {i : Instr} (h : mayPoison i = true) : writesBuffer i = true := by
  cases i <;> simp_all [mayPoison, writesBuffer]

/-- A command that R52 does not list as a writer of `BB` leaves it as it was. -/
theorem EndsAs.bb_eq {i : Instr} {s t : State} (h : EndsAs i s t) (hw : writesBuffer i = false) : t.bb = s.bb := by
  cases h with
  | result | fails | scratchResult | scratchFails => rfl
  | writes bits hb => simp [writesBuffer_of_writesBits hb] at hw
  | poisons e hp => simp [writesBuffer_of_mayPoison hp] at hw
  | creates bits hw' => simp [hw'] at hw
  | scratchCreates bits _ hw' => simp [hw'] at hw

/-- A valid `BB` stays valid, unless a write phase fails (R35, R52). -/
theorem EndsAs.valid_or_poisoned {i : Instr} {s t : State} (h : EndsAs i s t) (hv : s.bb.valid = true) :
    t.bb.valid = true ∨ (mayPoison i = true ∧ statusClass t.status ≠ 0#3) := by
  cases h with
  | result | fails | scratchResult | scratchFails => exact .inl hv
  | writes | creates | scratchCreates => exact .inl rfl
  | poisons e hp => exact .inr ⟨hp, by simpa using e.cause.cls_code_ne_zero⟩

/-- A command that does not work in `SB` leaves it as it was (log entry 10). -/
theorem EndsAs.sb_eq {i : Instr} {s t : State} (h : EndsAs i s t) (hu : usesScratchBuffer i = false) : t.sb = s.sb := by
  cases h with
  | result | fails | writes | poisons | creates => rfl
  | scratchResult r hu' | scratchFails e hu' | scratchCreates bits hu' => simp [hu'] at hu

/-- A command that writes bits keeps the length of a buffer that stays valid, and makes none valid (R34). -/
theorem EndsAs.len_eq {i : Instr} {s t : State} (h : EndsAs i s t) (hw : writesBits i = true)
    (hv : t.bb.valid = true) : s.bb.valid = true ∧ t.bb.len = s.bb.len := by
  cases h with
  | result | fails | scratchResult | scratchFails => exact ⟨hv, rfl⟩
  | writes bits _ hs hl => exact ⟨hs, hl⟩
  | poisons => simp at hv
  | creates bits _ hb => simp [hw] at hb
  | scratchCreates bits _ _ hb => simp [hw] at hb

/-! ## Commands: NO_BUFFER -/

/-- A command that needs `BB` raises NO_BUFFER while there is none (R35). -/
theorem EndsAs.eq_raise_noBuffer {i : Instr} {s t : State} (h : EndsAs i s t) (hn : needsBuffer i = true)
    (hv : s.bb.valid = false) : t = s.raise ⟨.noBuffer, 0, 0⟩ := by
  cases h with
  | result r _ hv' => simp [hv' hn] at hv
  | fails e _ he => rw [he hn hv]
  | writes bits _ hv' => simp [hv'] at hv
  | poisons e _ hv' => simp [hv'] at hv
  | creates bits _ _ hn' => simp [hn'] at hn
  | scratchResult r _ hn' => simp [hn'] at hn
  | scratchFails e _ hn' => simp [hn'] at hn
  | scratchCreates bits _ _ _ hn' => simp [hn'] at hn

theorem exec_noBuffer {i : Instr} {s : State} (hn : needsBuffer i = true) (hv : s.bb.valid = false) :
    exec i s = .next (s.raise ⟨.noBuffer, 0, 0⟩) := by
  obtain ⟨t, ht, hends⟩ := exec_ends i s
  rw [ht, hends.eq_raise_noBuffer hn hv]

/-- The codes of NO_BUFFER do not stand in STATUS after a success. -/
theorem succeed_not_noBuffer (s : State) (r : Res) :
    ¬(statusClass (s.succeed r).status = 2#3 ∧ statusCause (s.succeed r).status = 0x01#8) := by
  simp

/-- The codes of NO_BUFFER stand in STATUS after no other exception. -/
theorem raise_not_noBuffer (s : State) {e : Exc} (he : e.cause ≠ .noBuffer) :
    ¬(statusClass (s.raise e).status = 2#3 ∧ statusCause (s.raise e).status = 0x01#8) := by
  rintro ⟨hcls, hcause⟩
  exact he (Cause.eq_noBuffer_of_codes (by simpa using hcls) (by simpa using hcause))

/-- A command that does not need `BB`, or that finds it valid, does not raise NO_BUFFER. -/
theorem EndsAs.not_noBuffer {i : Instr} {s t : State} (h : EndsAs i s t)
    (hb : needsBuffer i = false ∨ s.bb.valid = true) :
    ¬(statusClass t.status = 2#3 ∧ statusCause t.status = 0x01#8) := by
  cases h with
  | result | writes | creates | scratchResult | scratchCreates => exact succeed_not_noBuffer _ _
  | fails e he _ =>
    refine raise_not_noBuffer _ fun hc => ?_
    obtain ⟨hn, hv⟩ := he hc
    simp [hn, hv] at hb
  | poisons e _ _ hc => exact raise_not_noBuffer _ hc
  | scratchFails e _ _ hc => exact raise_not_noBuffer _ hc

/-! ## Steps -/

/-- With no event the engine waits (R372). -/
theorem step_of_idle {s : State} (h : s.input = []) : step s = .next s := by
  simp [step, fetch, h]

/-- A step takes the host's next event (R30). -/
theorem step_of_event {s : State} {ev : HostEvent} {rest : List HostEvent} (h : s.input = ev :: rest) :
    step s = stepEvent ev { s with input := rest } := by
  simp [step, fetch, h]

/-- The ways the engine answers an event: a command that decodes, one that does not, the reset input, a read. -/
inductive EventEnds : HostEvent → State → State → Prop where
  | command {c : Cmd} {i : Instr} {s t : State} : decode c = .ok i → EndsAs i s t → EventEnds (.command c) s t
  | unassigned {c : Cmd} (e : DecodeError) (s : State) : decode c = .error e →
      EventEnds (.command c) s (s.raise (decodeExc e))
  | reset (cut : Option Cmd) (s : State) : EventEnds (.reset cut) s s.assertReset
  | read (r : PortReg) (s : State) : EventEnds (.read r) s (s.portRead r)

theorem eventEnds_of_stepEvent {ev : HostEvent} {s t : State} (h : stepEvent ev s = .next t) : EventEnds ev s t := by
  cases ev with
  | command c =>
    rcases hd : decode c with e | i
    · simp only [stepEvent, hd, Host.Outcome.next.injEq] at h
      exact h ▸ .unassigned e s hd
    · simp only [stepEvent, hd] at h
      exact .command hd (endsAs_of_exec h)
  | reset cut =>
    simp only [stepEvent, Host.Outcome.next.injEq] at h
    exact h ▸ .reset cut s
  | read r =>
    simp only [stepEvent, Host.Outcome.next.injEq] at h
    exact h ▸ .read r s

/-- Everything a step can do: wait, or answer the next event. -/
theorem step_cases {s t : State} (h : step s = .next t) :
    (s.input = [] ∧ t = s) ∨
      ∃ ev rest, s.input = ev :: rest ∧ EventEnds ev { s with input := rest } t := by
  rcases hi : s.input with _ | ⟨ev, rest⟩
  · rw [step_of_idle hi] at h
    cases h
    exact .inl ⟨rfl, rfl⟩
  · rw [step_of_event hi] at h
    exact .inr ⟨ev, rest, rfl, eventEnds_of_stepEvent h⟩

/-- Only the reset input clears ERR_SEEN (R340). -/
theorem EventEnds.errSeen_kept {ev : HostEvent} {s t : State} (h : EventEnds ev s t)
    (hs : statusErrSeen s.status = true) (ht : statusErrSeen t.status = false) : ∃ cut, ev = .reset cut := by
  cases h with
  | command _ hends => simp [hends.errSeen_kept hs] at ht
  | unassigned e s => simp at ht
  | reset cut => exact ⟨cut, rfl⟩
  | read r s => simp [hs] at ht

/-- What a read returns does not depend on the events still to come. -/
theorem portValue_withInput (s : State) (rest : List HostEvent) (r : PortReg) :
    ({ s with input := rest } : State).portValue r = s.portValue r := by
  cases r <;> rfl

/-! ## The invariant -/

/-- A machine with room for a buffer has room for every smaller one. -/
theorem withinCapacity_mono {cfg : Config} {m n : Nat} (hmn : m ≤ n) (h : withinCapacity cfg n = true) :
    withinCapacity cfg m = true := by
  unfold withinCapacity at *
  split at h
  · rfl
  · exact decide_eq_true (hmn.trans (of_decide_eq_true h))

/-- A success leaves a legal state when its result is legal and the buffer is. -/
theorem Inv.of_succeed {u : State} {r : Res} (hc : CapacityLegal u.cfg) (hb : Memory.wf u.cfg u.bb = true)
    (hr : ResLegal r) : Inv (u.succeed r) where
  status := .inl ⟨_, rfl⟩
  outcome := ⟨fun _ => ⟨rfl, rfl⟩, fun h => absurd (by simp) h⟩
  res := hr
  capacity := hc
  buffer := hb

/-- An exception leaves a legal state when the buffer is legal. -/
theorem Inv.of_raise {u : State} {e : Exc} (hc : CapacityLegal u.cfg) (hb : Memory.wf u.cfg u.bb = true) :
    Inv (u.raise e) where
  status := .inr ⟨_, rfl⟩
  outcome := ⟨fun h => absurd (by simpa using h) e.cause.cls_code_ne_zero, fun _ => rfl⟩
  res := trivial
  capacity := hc
  buffer := hb

/-- The invariant says nothing of the host's events to come. -/
theorem Inv.withInput {s : State} (h : Inv s) (rest : List HostEvent) : Inv { s with input := rest } :=
  ⟨h.status, h.outcome, h.res, h.capacity, h.buffer⟩

/-- Every command keeps the invariant: the buffer it leaves keeps its length, is invalid, is checked against
`BB_MAX_BITS`, or is a scheme's, of at most 208 bits. -/
theorem EndsAs.keeps_inv {i : Instr} {s t : State} (h : EndsAs i s t) (hs : Inv s) : Inv t := by
  cases h with
  | result r hr _ => exact .of_succeed hs.capacity hs.buffer hr
  | fails e _ _ => exact .of_raise hs.capacity hs.buffer
  | writes bits _ hv hl => exact .of_succeed hs.capacity (Memory.wf_of_length hs.buffer hv hl) trivial
  | poisons e => exact .of_raise hs.capacity (Memory.wf_invalid _ _)
  | creates bits _ _ _ hc => exact .of_succeed hs.capacity (Memory.wf_of_within hc) trivial
  | scratchResult r _ _ hr => exact .of_succeed hs.capacity hs.buffer hr
  | scratchFails e => exact .of_raise hs.capacity hs.buffer
  | scratchCreates bits _ _ _ _ hl =>
    exact .of_succeed hs.capacity (Memory.wf_of_within (withinCapacity_mono hl hs.capacity)) trivial

/-- The reset input gives a legal state. -/
theorem Inv.assertReset {s : State} (h : Inv s) : Inv s.assertReset where
  status := .inl ⟨false, statusWord_reset⟩
  outcome := ⟨fun _ => ⟨rfl, rfl⟩, fun _ => rfl⟩
  res := trivial
  capacity := h.capacity
  buffer := Memory.wf_invalid _ _

/-- The state after reset is legal (R51). -/
theorem Inv.reset : Inv State.reset where
  status := .inl ⟨false, statusWord_reset⟩
  outcome := ⟨fun _ => ⟨rfl, rfl⟩, fun _ => rfl⟩
  res := trivial
  capacity := rfl
  buffer := State.reset_wf

/-- Every answer to an event keeps the invariant. -/
theorem EventEnds.keeps_inv {ev : HostEvent} {s t : State} (h : EventEnds ev s t) (hs : Inv s) : Inv t := by
  cases h with
  | command _ hends => exact hends.keeps_inv hs
  | unassigned e => exact .of_raise hs.capacity hs.buffer
  | reset => exact hs.assertReset
  | read r => exact ⟨hs.status, hs.outcome, hs.res, hs.capacity, hs.buffer⟩

/-! ## Two states: what the outcome and the buffer of a command follow from -/

/-- The outcome of a command follows from its operands, the parameter and, for a command that needs it, `BB`. -/
theorem exec_sameOutcome (i : Instr) {s t s' t' : State} (hcfg : s.cfg = t.cfg)
    (hbb : needsBuffer i = true → s.bb = t.bb) (hs : exec i s = .next s') (ht : exec i t = .next t') :
    SameOutcome s' t' := by
  cases i with
  | bbAlloc n =>
    cases hs; cases ht
    rw [hcfg]
    split_ifs
    · exact raise_sameOutcome s t _
    · exact raise_sameOutcome s t _
    · exact succeed_sameOutcome _ _ _
  | bbFromHex s1 =>
    cases hs; cases ht
    rw [hcfg]
    split
    · exact raise_sameOutcome s t _
    · split_ifs
      · exact raise_sameOutcome s t _
      · exact succeed_sameOutcome _ _ _
  | bbToHex =>
    cases hs; cases ht
    rw [hbb rfl]
    split_ifs
    · exact raise_sameOutcome s t _
    · exact succeed_sameOutcome s t _
  | bbReadUint f n => cases hs; cases ht; exact runRead_sameOutcome (hbb rfl) f n 64
  | bbWriteUint v f n => cases hs; cases ht; exact runWrite_sameOutcome (hbb rfl) v f n 64
  | bbReadByte f n => cases hs; cases ht; exact runRead_sameOutcome (hbb rfl) f n 8
  | bbWriteByte v f n => cases hs; cases ht; exact runWrite_sameOutcome (hbb rfl) v f n 8
  | pcDecodeSgtin f => cases hs; cases ht; exact runPartDecode_sameOutcome (hbb rfl) _ f
  | pcDecodeSscc f => cases hs; cases ht; exact runPartDecode_sameOutcome (hbb rfl) _ f
  | pcEncodeSgtin f p s1 s2 => cases hs; cases ht; exact runPartEncode_sameOutcome (hbb rfl) _ f p s1 s2
  | pcEncodeSscc f p s1 s2 => cases hs; cases ht; exact runPartEncode_sameOutcome (hbb rfl) _ f p s1 s2
  | pcLen2part s1 =>
    cases hs; cases ht
    split
    · exact raise_sameOutcome s t _
    · exact succeed_sameOutcome s t _
  | s7Decode f n =>
    cases hs; cases ht
    rw [hbb rfl]
    exact conclude_sameOutcome s t _
  | s7Encode s1 f n =>
    cases hs; cases ht
    rw [hbb rfl]
    split
    · exact raise_sameOutcome s t _
    · split
      · exact raise_sameOutcome _ _ _
      · exact succeed_sameOutcome _ _ _
  | regDispatchBinary s1 =>
    cases hs; cases ht
    split
    · split_ifs
      · exact raise_sameOutcome s t _
      · exact raise_sameOutcome s t _
      · split
        · exact raise_sameOutcome s t _
        · exact runTagDecode_sameOutcome s t _ _
    · exact raise_sameOutcome s t _
  | regDispatchUri u =>
    cases hs; cases ht
    split_ifs
    · exact raise_sameOutcome s t _
    · split
      · exact raise_sameOutcome s t _
      · exact conclude_sameOutcome s t _
  | sgtin96Decode s1 | sgtin198Decode s1 | sscc96Decode s1 =>
    cases hs; cases ht
    exact runTagDecode_sameOutcome s t _ _
  | sgtin96Encode v | sgtin198Encode v | sscc96Encode v =>
    cases hs; cases ht
    exact withTagOperand_sameOutcome _ _ _ (runTagEncode_sameOutcome s t _ _)
  | sgtin96ToUri v | sgtin198ToUri v | sscc96ToUri v | sgtin96ToId v | sgtin198ToId v | sscc96ToId v =>
    cases hs; cases ht
    exact withTagOperand_sameOutcome _ _ _ (succeed_sameOutcome s t _)
  | sgtin96FromUri u | sgtin198FromUri u | sscc96FromUri u =>
    cases hs; cases ht
    exact conclude_sameOutcome s t _

/-- Two buffers look the same: both invalid, or both valid with the same bits (R35). -/
structure SameBuffer (b c : BitBuffer) : Prop where
  valid : b.valid = c.valid
  bits : b.valid = true → b.bits = c.bits

theorem SameBuffer.refl (b : BitBuffer) : SameBuffer b b := ⟨rfl, fun _ => rfl⟩

theorem SameBuffer.of_invalid {b c : BitBuffer} (hb : b.valid = false) (hc : c.valid = false) : SameBuffer b c :=
  ⟨by rw [hb, hc], fun h => by simp [hb] at h⟩

/-- A valid buffer looks like itself only. -/
theorem SameBuffer.eq_of_valid {b c : BitBuffer} (h : SameBuffer b c) (hv : b.valid = true) : b = c := by
  obtain ⟨bb, bv⟩ := b
  obtain ⟨cb, cv⟩ := c
  have hbits : bb = cb := h.bits hv
  have hvalid : bv = cv := h.valid
  rw [hbits, hvalid]

theorem runWrite_sameBuffer {s t : State} (h : s.bb = t.bb) (v : Word64) (f n : Int) (nmax : Nat) :
    SameBuffer (runWrite v f n nmax s).bb (runWrite v f n nmax t).bb := by
  unfold runWrite
  rw [h]
  rcases writeField t.bb f n 1 nmax v.toNat with e | bits
  · exact h ▸ .refl s.bb
  · exact .refl _

theorem runPartEncode_sameBuffer {s t : State} (h : s.bb = t.bb) (table : List PartRow) (f : Int) (p : Nat)
    (s1 s2 : Str) : SameBuffer (runPartEncode table f p s1 s2 s).bb (runPartEncode table f p s1 s2 t).bb := by
  have hsame : SameBuffer s.bb t.bb := h ▸ .refl s.bb
  unfold runPartEncode
  rw [h]
  split
  · exact hsame
  · split
    · exact hsame
    · split
      · exact .of_invalid rfl rfl
      · exact .refl _

theorem runTagEncode_sameBuffer {s t : State} (h : SameBuffer s.bb t.bb) (sch : Scheme) (v : TagValue) :
    SameBuffer (runTagEncode sch v s).bb (runTagEncode sch v t).bb := by
  unfold runTagEncode
  split
  · exact h
  · split
    · exact h
    · exact .refl _

theorem withTagOperand_sameBuffer {s t : State} (h : SameBuffer s.bb t.bb) (want : Scheme) (op : Byte) (v : TagValue)
    {run : State → State} (hrun : SameBuffer (run s).bb (run t).bb) :
    SameBuffer (withTagOperand want op v run s).bb (withTagOperand want op v run t).bb := by
  unfold withTagOperand
  split
  · exact hrun
  · exact h

/-- What can be seen of `BB` after a command that writes it follows from the operands, the parameter and what could be
seen of `BB` before. -/
theorem exec_writer_sameBuffer (i : Instr) (hw : writesBuffer i = true) {s t s' t' : State} (hcfg : s.cfg = t.cfg)
    (hsame : SameBuffer s.bb t.bb) (hbb : needsBuffer i = true → s.bb = t.bb) (hs : exec i s = .next s')
    (ht : exec i t = .next t') : SameBuffer s'.bb t'.bb := by
  cases i with
  | bbAlloc n =>
    cases hs; cases ht
    rw [hcfg]
    split_ifs
    · exact hsame
    · exact hsame
    · exact .refl _
  | bbFromHex s1 =>
    cases hs; cases ht
    rw [hcfg]
    split
    · exact hsame
    · split_ifs
      · exact hsame
      · exact .refl _
  | bbWriteUint v f n => cases hs; cases ht; exact runWrite_sameBuffer (hbb rfl) v f n 64
  | bbWriteByte v f n => cases hs; cases ht; exact runWrite_sameBuffer (hbb rfl) v f n 8
  | pcEncodeSgtin f p s1 s2 => cases hs; cases ht; exact runPartEncode_sameBuffer (hbb rfl) _ f p s1 s2
  | pcEncodeSscc f p s1 s2 => cases hs; cases ht; exact runPartEncode_sameBuffer (hbb rfl) _ f p s1 s2
  | s7Encode s1 f n =>
    cases hs; cases ht
    rw [hbb rfl]
    split
    · exact hsame
    · split
      · exact .of_invalid rfl rfl
      · exact .refl _
  | sgtin96Encode v | sgtin198Encode v | sscc96Encode v =>
    cases hs; cases ht
    exact withTagOperand_sameBuffer hsame _ _ _ (runTagEncode_sameBuffer hsame _ _)
  | _ => simp [writesBuffer] at hw

/-- What can be seen of `BB` after a command: as before it, or as the command's own write left it. -/
theorem exec_sameBuffer (i : Instr) {s t s' t' : State} (hcfg : s.cfg = t.cfg) (hsame : SameBuffer s.bb t.bb)
    (hbb : needsBuffer i = true → s.bb = t.bb) (hs : exec i s = .next s') (ht : exec i t = .next t') :
    SameBuffer s'.bb t'.bb := by
  rcases hw : writesBuffer i with _ | _
  · rw [(endsAs_of_exec hs).bb_eq hw, (endsAs_of_exec ht).bb_eq hw]
    exact hsame
  · exact exec_writer_sameBuffer i hw hcfg hsame hbb hs ht

theorem SameVisible.sameBuffer {s t : State} (h : SameVisible s t) : SameBuffer s.bb t.bb := ⟨h.valid, h.bits⟩

/-- An exception, taken in two states that look the same, leaves states that look the same. -/
theorem SameVisible.raise {s t : State} (h : SameVisible s t) (e : Exc) : SameVisible (s.raise e) (t.raise e) :=
  ⟨rfl, rfl, rfl, rfl, h.cfg, h.input, h.reads, h.valid, h.bits⟩

/-- Commands that end alike in two states that look the same leave states that look the same: STATUS follows from the
outcome and ERR_SEEN, and the rest of the state is as before. -/
theorem SameVisible.of_endsAs {i : Instr} {s t s' t' : State} (h : SameVisible s t) (hs : EndsAs i s s')
    (ht : EndsAs i t t') (hout : SameOutcome s' t') (hbuf : SameBuffer s'.bb t'.bb) : SameVisible s' t' := by
  obtain ⟨hcfgS, hinputS, hreadsS⟩ := hs.frame
  obtain ⟨hcfgT, hinputT, hreadsT⟩ := ht.frame
  exact {
    status := by rw [hs.status_eq, ht.status_eq, hout.cls, hout.cause, h.status]
    erra := hout.erra
    errb := hout.errb
    res := hout.res
    cfg := by rw [hcfgS, hcfgT, h.cfg]
    input := by rw [hinputS, hinputT, h.input]
    reads := by rw [hreadsS, hreadsT, h.reads]
    valid := hbuf.valid
    bits := hbuf.bits }

/-- Two states that look the same answer every command with states that look the same: a command that needs `BB` raises
NO_BUFFER in both or finds the same buffer, and every other command does not read `BB`. -/
theorem SameVisible.of_exec {i : Instr} {s t s' t' : State} (h : SameVisible s t) (hs : exec i s = .next s')
    (ht : exec i t = .next t') : SameVisible s' t' := by
  by_cases hno : needsBuffer i = true ∧ s.bb.valid = false
  · obtain ⟨hn, hv⟩ := hno
    cases (exec_noBuffer hn hv).symm.trans hs
    cases (exec_noBuffer hn (h.valid ▸ hv)).symm.trans ht
    exact h.raise _
  · have hbb : needsBuffer i = true → s.bb = t.bb := fun hn =>
      h.sameBuffer.eq_of_valid (by simpa [hn] using hno)
    exact h.of_endsAs (endsAs_of_exec hs) (endsAs_of_exec ht) (exec_sameOutcome i h.cfg hbb hs ht)
      (exec_sameBuffer i h.cfg h.sameBuffer hbb hs ht)

/-! ## The obligations -/

/-- Settles O13: waiting keeps the state, and every answer to an event keeps the invariant. -/
theorem everyStepKeepsTheInvariant : Obligations.EveryStepKeepsTheInvariant := by
  intro s t hs hstep
  obtain ⟨-, rfl⟩ | ⟨ev, rest, -, hev⟩ := step_cases hstep
  · exact hs
  · exact hev.keeps_inv (hs.withInput rest)

/-- Settles O15. -/
theorem unspecifiedContentsNeverShow : Obligations.UnspecifiedContentsNeverShow := by
  intro i s t h
  obtain ⟨s', hs, -⟩ := exec_ends i s
  obtain ⟨t', ht, -⟩ := exec_ends i t
  exact ⟨s', t', hs, ht, h.of_exec hs ht⟩

/-- Settles O9. -/
theorem everyCommandRewritesTheOutcome : Obligations.EveryCommandRewritesTheOutcome := by
  refine ⟨fun i s t h => (endsAs_of_exec h).outcome, fun i s s' t t' hbb hcfg hs hs' => ?_⟩
  obtain ⟨hcls, hcause, herra, herrb, hres⟩ := exec_sameOutcome i hcfg (fun _ => hbb) hs hs'
  exact ⟨hcls, hcause, herra, herrb, hres⟩

/-- Settles O10. -/
theorem onlyResetClearsErrSeen : Obligations.OnlyResetClearsErrSeen := by
  intro s t hstep hs ht
  obtain ⟨-, rfl⟩ | ⟨ev, rest, hin, hev⟩ := step_cases hstep
  · simp [hs] at ht
  · obtain ⟨cut, rfl⟩ := hev.errSeen_kept hs ht
    exact ⟨cut, rest, hin⟩

/-- Settles O16. -/
theorem commandsWriteOnlyTheirState : Obligations.CommandsWriteOnlyTheirState := by
  intro i s t h
  have hends := endsAs_of_exec h
  obtain ⟨hcfg, hinput, hreads⟩ := hends.frame
  exact ⟨hcfg, hinput, hreads, fun hw => ⟨hends.bb_eq hw, fun a => by rw [hends.bb_eq hw]⟩, hends.valid_or_poisoned,
    hends.sb_eq, hends.len_eq⟩

/-- Settles O18. -/
theorem noBufferUntilOneIsCreated : Obligations.NoBufferUntilOneIsCreated :=
  fun _ _ => ⟨exec_noBuffer, fun _ h => (endsAs_of_exec h).not_noBuffer⟩

/-- Settles O4. -/
theorem stepRunsTheDecodedCommand : Obligations.StepRunsTheDecodedCommand := by
  refine ⟨fun s c rest i hin hd => ?_, fun s => step_of_idle⟩
  rw [step_of_event hin]
  simp only [stepEvent, hd]

/-- Settles O7. -/
theorem successWritesTheRegisters : Obligations.SuccessWritesTheRegisters :=
  fun _ _ => ⟨by simp, by simp, by simp, by simp, by simp, rfl, rfl, rfl, rfl⟩

/-- Settles O11: the reset input gives `assertReset`, whatever command it cuts off. -/
theorem resetInputGivesTheResetState : Obligations.ResetInputGivesTheResetState := by
  refine ⟨⟨rfl, rfl, rfl, rfl, rfl⟩, fun s cut rest hin => ?_⟩
  have hstep : step s = .next ({ s with input := rest } : State).assertReset := step_of_event hin
  exact ⟨hstep, _, hstep, rfl, rfl, rfl, rfl, rfl, rfl, rfl, rfl⟩

/-- Settles O12: the value read is `portValue`, in which each register has its own number. -/
theorem hostReadsTheRegisters : Obligations.HostReadsTheRegisters := by
  intro s r rest hin
  refine ⟨s.portValue r, ?_, ?_⟩
  · rw [step_of_event hin, ← portValue_withInput s rest r]
    rfl
  · cases r <;> simp +contextual [State.portValue, PortReg.number]

/-- Settles O14. -/
theorem resetStateMeetsTheInvariant : Obligations.ResetStateMeetsTheInvariant := Inv.reset

/-- Settles O27: the tables are constants of seven rows. -/
theorem partitionTablesFitTheirSchemes : Obligations.PartitionTablesFitTheirSchemes :=
  ⟨rfl, rfl, by decide, by decide, by decide, by decide, by decide⟩

end Sys2Proof.Machine


/-! # Proofs of the family 30_encoding: the opcode map, its unassigned values and the operand type check

Everything about `decode` is read off `decode_cases`, which splits the opcode map once. -/

namespace Sys2Proof.Machine

/-! ## The op values without a format -/

/-- The ranges of R94. -/
def UnassignedRange (w : Nat) : Prop :=
  w ≤ 0x0F ∨ (0x17 ≤ w ∧ w ≤ 0x1F) ∨ (0x25 ≤ w ∧ w ≤ 0x2F) ∨ (0x32 ≤ w ∧ w ≤ 0x3F) ∨
    (0x42 ≤ w ∧ w ≤ 0x4F) ∨ (0x55 ≤ w ∧ w ≤ 0x5F) ∨ (0x65 ≤ w ∧ w ≤ 0x6F) ∨ 0x75 ≤ w

/-- The ranges of R94 are the gaps between the assigned op values of R93. -/
theorem opFormat_eq_none_iff (op : Byte) : opFormat op = none ↔ UnassignedRange op.toNat := by
  unfold opFormat UnassignedRange
  split
  case h_32 =>
    simp only [imp_false] at *
    simp only [true_iff]
    omega
  all_goals
    simp only [reduceCtorEq, false_iff]
    omega

/-! ## The opcode map -/

/-- The decoder selects by the number of the op byte; the encoder writes the byte. -/
theorem Byte.eq_ofNat_of_toNat {op : Byte} {n : Nat} (h : op.toNat = n) : op = BitVec.ofNat 8 n := by
  rw [← h, BitVec.ofNat_toNat, BitVec.setWidth_eq]

/-- Everything the decoder can answer: the instruction whose encoding is the record cut to its format's fields
(R90, R91, R93), or the error of an op value without a format (R94). -/
theorem decode_cases (c : Cmd) :
    (∃ i fmt, decode c = .ok i ∧ opFormat c.op = some fmt ∧ keepFields fmt c = encode i) ∨
    (decode c = .error (.unassignedOp c.op) ∧ opFormat c.op = none) := by
  obtain ⟨op, F, N, V, P, S1, S2, U, T⟩ := c
  unfold decode
  split
  case h_32 =>
    have hrange : UnassignedRange op.toNat := by
      simp only [imp_false] at *
      unfold UnassignedRange
      omega
    exact .inr ⟨rfl, (opFormat_eq_none_iff op).mpr hrange⟩
  all_goals
    rename_i hop
    obtain rfl := Byte.eq_ofNat_of_toNat hop
    exact .inl ⟨_, _, rfl, rfl, rfl⟩

/-- Decoding an encoded instruction gives it back: no two instructions share an op value (R93), and each operand
stands in the field it is read from (R91, R96). -/
@[simp] theorem decode_encode (i : Instr) : decode (encode i) = .ok i := by
  cases i <;> rfl

theorem encode_injective {i j : Instr} (h : encode i = encode j) : i = j := by
  have hdecode : (.ok i : Except DecodeError Instr) = .ok j := by rw [← decode_encode i, h, decode_encode]
  exact Except.ok.inj hdecode

theorem decode_eq_ok_iff (c : Cmd) (i : Instr) :
    decode c = .ok i ↔ ∃ fmt, opFormat c.op = some fmt ∧ keepFields fmt c = encode i := by
  obtain ⟨j, fmt, hj, hfmt, hkeep⟩ | ⟨herr, hnone⟩ := decode_cases c
  · constructor
    · intro hi
      obtain rfl : j = i := Except.ok.inj (hj.symm.trans hi)
      exact ⟨fmt, hfmt, hkeep⟩
    · rintro ⟨fmt', hfmt', hkeep'⟩
      obtain rfl : fmt = fmt' := Option.some.inj (hfmt.symm.trans hfmt')
      rw [hj, encode_injective (hkeep.symm.trans hkeep')]
  · simp [herr, hnone]

/-- The decoder rejects exactly the op values without a format (R94). -/
theorem decode_eq_error_iff (c : Cmd) : decode c = .error (.unassignedOp c.op) ↔ opFormat c.op = none := by
  obtain ⟨i, fmt, hi, hfmt, -⟩ | ⟨herr, hnone⟩ := decode_cases c
  · simp [hi, hfmt]
  · simp [herr, hnone]

/-! ## Commands with an unassigned op value -/

/-- `rec` keeps a value of 64 bits (R332). -/
theorem recInfo_of_lt {x : Nat} (h : x < 2 ^ 64) : recInfo x = BitVec.ofNat 64 x := if_pos h

/-- A command with an op value that `decode` rejects raises UNASSIGNED_OP with the op value (R94). -/
theorem step_of_decode_error {s : State} {c : Cmd} {rest : List HostEvent} (hin : s.input = .command c :: rest)
    (hd : decode c = .error (.unassignedOp c.op)) :
    step s = .next (({ s with input := rest } : State).raise ⟨.unassignedOp, c.op.toNat, 0⟩) := by
  rw [step_of_event hin]
  simp only [stepEvent, hd, decodeExc]

/-- What the exception of R94 writes: an op value is recorded as it is. -/
theorem raise_unassignedOp (s : State) (op : Byte) :
    s.raise ⟨.unassignedOp, op.toNat, 0⟩ =
      { s with status := statusWord true 0x01#8 4#3, erra := BitVec.ofNat 64 op.toNat, errb := 0#64, res := .none } := by
  have hop : op.toNat < 2 ^ 64 := op.isLt.trans (by decide)
  unfold State.raise
  rw [recInfo_of_lt hop]
  rfl

/-! ## The operand type check -/

theorem withTagOperand_of_ne {want : Scheme} {t : TagValue} (h : t.scheme ≠ want) (op : Byte) (run : State → State)
    (s : State) : withTagOperand want op t run s = s.raise ⟨.operandType, op.toNat, 0⟩ := if_neg h

/-- A command with a tag operand of another constructor raises OPERAND_TYPE with its own op value, and nothing else of
it is done (R95). -/
theorem exec_of_scheme_ne {i : Instr} {want : Scheme} {t : TagValue} (hi : i.tagOperand = some (want, t))
    (h : t.scheme ≠ want) (s : State) : exec i s = .next (s.raise ⟨.operandType, (encode i).op.toNat, 0⟩) := by
  cases i with
  | sgtin96Encode _ | sgtin96ToUri _ | sgtin96ToId _ | sgtin198Encode _ | sgtin198ToUri _ | sgtin198ToId _
  | sscc96Encode _ | sscc96ToUri _ | sscc96ToId _ =>
    cases hi
    exact congrArg Host.Outcome.next (withTagOperand_of_ne h _ _ s)
  | _ => cases hi

theorem AgreesButScratch.refl (s : State) : AgreesButScratch s s := rfl

/-! ## The obligations -/

/-- Settles O1. -/
theorem decodeAndEncodeAgree : Obligations.DecodeAndEncodeAgree := ⟨decode_encode, decode_eq_ok_iff⟩

/-- Settles O2: the ranges of R94 are the op values without a format, which are those `decode` rejects. -/
theorem unassignedOpsRaiseIllegalCommand : Obligations.UnassignedOpsRaiseIllegalCommand := by
  have hrejected (c : Cmd) : UnassignedRange c.op.toNat ↔ decode c = .error (.unassignedOp c.op) :=
    (opFormat_eq_none_iff c.op).symm.trans (decode_eq_error_iff c).symm
  refine ⟨hrejected, fun c s rest hillegal hin => ?_⟩
  rw [step_of_decode_error hin ((hrejected c).mp hillegal), raise_unassignedOp]

/-- Settles O3: each record is evaluated. -/
theorem wordsOfEveryFamilyDecode : Obligations.WordsOfEveryFamilyDecode := ⟨rfl, rfl, rfl, rfl, rfl, rfl, rfl⟩

/-- Settles O55: each command of the list takes the operand `t` and requires the scheme the list names. -/
theorem wrongOperandTypeIsRejected : Obligations.WrongOperandTypeIsRejected := by
  intro t s x hx hne
  have hlist : x.1.tagOperand = some (x.2.1, t) ∧ (encode x.1).op.toNat = x.2.2 := by
    simp only [List.mem_cons, List.not_mem_nil, or_false] at hx
    rcases hx with rfl | rfl | rfl | rfl | rfl | rfl | rfl | rfl | rfl <;> exact ⟨rfl, rfl⟩
  obtain ⟨htag, hop⟩ := hlist
  exact ⟨_, exec_of_scheme_ne htag hne s, hop ▸ .refl _⟩

end Sys2Proof.Machine

/-! # Proofs of the family 40_bitbuffer: the BitBuffer commands

Each command's cases are said once, as an equation of `exec`; the obligations read the bits of the buffer or the
characters of the text position by position. -/

namespace Sys2Proof.Machine

/-! ## Capacity -/

theorem withinCapacity_eq_true_iff (cfg : Config) (n : Nat) :
    withinCapacity cfg n = true ↔ ∀ m, cfg.bbMaxBits = some m → n ≤ m := by
  unfold withinCapacity
  cases cfg.bbMaxBits <;> simp

theorem withinCapacity_eq_false_of_lt {cfg : Config} {m n : Nat} (hm : cfg.bbMaxBits = some m) (h : m < n) :
    withinCapacity cfg n = false := by
  simp [withinCapacity, hm, h]

theorem capacityInfo_eq_getD (cfg : Config) : capacityInfo cfg = cfg.bbMaxBits.getD (2 ^ 64) := by
  unfold capacityInfo
  cases cfg.bbMaxBits <;> rfl

theorem capacityInfo_of_some {cfg : Config} {m : Nat} (hm : cfg.bbMaxBits = some m) : capacityInfo cfg = m := by
  rw [capacityInfo_eq_getD, hm, Option.getD_some]

/-! ## Hex text, character by character -/

/-- The scan stops at the first character that is no hex digit, whatever follows it (R143). -/
theorem firstNonHex_append_cons {good : Str} {c : Nat} (hgood : ∀ d ∈ good, isHex d = true) (hc : isHex c = false)
    (k : Nat) (rest : Str) : firstNonHex k (good ++ c :: rest) = some (k + good.length, c) := by
  induction good generalizing k with
  | nil => simp [firstNonHex, hc]
  | cons d ds ih =>
    obtain ⟨hd, hds⟩ := List.forall_mem_cons.mp hgood
    simp only [List.cons_append, firstNonHex, hd, if_true, ih hds, List.length_cons]
    congr 2
    omega

/-- Position 4k + j of the bits of a text is bit 3 − j of character k (R143). -/
theorem hexBits_getElem? {text : Str} {k j c : Nat} (hk : text[k]? = some c) (hj : j < 4) :
    (hexBits text)[4 * k + j]? = some ((hexval c).testBit (3 - j)) := by
  induction text generalizing k with
  | nil => simp at hk
  | cons d ds ih =>
    cases k with
    | zero =>
      obtain rfl : d = c := by simpa using hk
      rw [hexBits, List.getElem?_append_left (by simp; omega), natToBits_getElem? _ _ _ (by omega)]
      congr 2
      omega
    | succ k =>
      rw [hexBits, List.getElem?_append_right (by simp; omega), natToBits_length,
        show 4 * (k + 1) + j - 4 = 4 * k + j by omega]
      exact ih (by simpa using hk)

/-- Nibble `k` of a run of bits that goes on with zeros (R146). -/
def nibbleAt (bits : List Bool) (k : Nat) : Nat :=
  8 * (bits.getD (4 * k) false).toNat + 4 * (bits.getD (4 * k + 1) false).toNat +
    2 * (bits.getD (4 * k + 2) false).toNat + (bits.getD (4 * k + 3) false).toNat

theorem nibblesToHex_getElem? {bits : List Bool} {k : Nat} (h : 4 * k + 3 < bits.length) :
    (nibblesToHex bits)[k]? = some (hexchar (nibbleAt bits k)) := by
  fun_induction nibblesToHex bits generalizing k with
  | case1 b0 b1 b2 b3 rest ih =>
    cases k with
    | zero => rfl
    | succ k =>
      rw [List.getElem?_cons_succ, ih (by simp only [List.length_cons] at h; omega)]
      rfl
  | case2 bits hshort =>
    match bits, hshort with
    | b0 :: b1 :: b2 :: b3 :: rest, hshort => exact absurd rfl (hshort b0 b1 b2 b3 rest)
    | [], _ | [_], _ | [_, _], _ | [_, _, _], _ => simp at h

theorem getD_append_replicate_false (bits : List Bool) (p a : Nat) :
    (bits ++ List.replicate p false).getD a false = bits.getD a false := by
  simp only [List.getD_eq_getElem?_getD, List.getElem?_append, List.getElem?_replicate]
  split_ifs with h1 h2
  · rfl
  all_goals simp [List.getElem?_eq_none (Nat.le_of_not_lt h1)]

theorem nibbleAt_append_replicate_false (bits : List Bool) (p k : Nat) :
    nibbleAt (bits ++ List.replicate p false) k = nibbleAt bits k := by
  simp only [nibbleAt, getD_append_replicate_false]

/-- Character `k` of the hex text of a buffer (R146). -/
theorem hexText_getElem? {bits : List Bool} {k : Nat} (h : k < (hexText bits).length) :
    (hexText bits)[k]? = some (hexchar (nibbleAt bits k)) := by
  have hwhole := hexPadding_spec bits.length
  rw [hexText_length] at h
  rw [hexText, nibblesToHex_getElem?, nibbleAt_append_replicate_false]
  rw [List.length_append, List.length_replicate]
  omega

/-- The hex text of a text's bits is the text in upper case, where it needs no padding (R155). -/
theorem hexText_hexBits {text : Str} (hhex : ∀ c ∈ text, isHex c = true) (hlen : text.length % 4 = 0) :
    hexText (hexBits text) = text.map upperHex := by
  have hpad : hexPadding (hexBits text).length = 0 := by
    rw [hexBits_length]; unfold hexPadding; omega
  rw [hexText_eq_iff hhex, hpad, List.replicate_zero, List.append_nil]

/-- The bits of a buffer's hex text begin with the buffer (R155). -/
theorem hexBits_hexText_getElem? {bits : List Bool} {a : Nat} (h : a < bits.length) :
    (hexBits (hexText bits))[a]? = bits[a]? := by
  rw [hexBits_hexText, List.getElem?_append_left h]

/-- Behind the buffer the bits of its hex text are zeros (R155). -/
theorem hexBits_hexText_getElem?_padding {bits : List Bool} {a : Nat} (h : bits.length ≤ a)
    (hend : a < (hexBits (hexText bits)).length) : (hexBits (hexText bits))[a]? = some false := by
  rw [hexBits_hexText] at hend ⊢
  rw [List.length_append, List.length_replicate] at hend
  rw [List.getElem?_append_right h, List.getElem?_replicate_of_lt (Nat.sub_lt_left_of_lt_add h hend)]

/-! ## BB.ALLOC, BB.FROM_HEX and BB.TO_HEX -/

theorem exec_bbAlloc_of_neg {n : Int} (h : n < 0) (s : State) :
    exec (.bbAlloc n) s = .next (s.raise ⟨.bitCount, 0, capacityInfo s.cfg⟩) :=
  congrArg Host.Outcome.next (if_pos h)

theorem exec_bbAlloc_natCast (n : Nat) (s : State) :
    exec (.bbAlloc n) s = .next (if withinCapacity s.cfg n = false then s.raise ⟨.capacity, n, capacityInfo s.cfg⟩
      else committed (List.replicate n false) s) :=
  congrArg Host.Outcome.next (if_neg (by omega))

theorem exec_bbFromHex_of_nonHex {text : Str} {k c : Nat} (h : firstNonHex 0 text = some (k, c)) (s : State) :
    exec (.bbFromHex text) s = .next (s.raise ⟨.hexChar, k, c⟩) := by
  simp only [exec, execBbFromHex, h]

theorem exec_bbFromHex_of_hex {text : Str} (h : ∀ c ∈ text, isHex c = true) (s : State) :
    exec (.bbFromHex text) s = .next (if withinCapacity s.cfg (4 * text.length) = false then
      s.raise ⟨.capacity, 4 * text.length, capacityInfo s.cfg⟩ else committed (hexBits text) s) := by
  simp only [exec, execBbFromHex, (firstNonHex_none 0 text).mpr h]
  rfl

/-- BB.FROM_HEX of a hex text within the capacity makes the buffer of its bits (R143). -/
theorem exec_bbFromHex_succeeds {text : Str} {s : State} (h : ∀ c ∈ text, isHex c = true)
    (hcap : ∀ m, s.cfg.bbMaxBits = some m → 4 * text.length ≤ m) :
    exec (.bbFromHex text) s = .next (committed (hexBits text) s) := by
  rw [exec_bbFromHex_of_hex h, (withinCapacity_eq_true_iff ..).mpr hcap, if_neg (by decide)]

theorem exec_bbToHex_of_valid {s : State} (h : s.bb.valid = true) :
    exec .bbToHex s = .next (s.succeed (.str (hexText s.bb.bits))) :=
  congrArg Host.Outcome.next (if_neg (by simp [h]))

/-! ## Reading and writing fields -/

theorem runRead_of_access {s : State} {f n : Int} {nmax : Nat} (h : checkAccess s.bb f n 1 nmax = none) :
    runRead f n nmax s = s.succeed (.uint (BitVec.ofNat 64 (readBits s.bb.bits f.toNat n.toNat))) := by
  simp [runRead, readField, h, Except.map]

theorem runRead_of_denied {s : State} {f n : Int} {nmax : Nat} {e : Exc} (h : checkAccess s.bb f n 1 nmax = some e) :
    runRead f n nmax s = s.raise e := by
  simp [runRead, readField, h, Except.map]

/-- A read succeeds exactly where the access checks pass, with the number of the field (R141, R148). -/
theorem runRead_eq_succeed_iff (s : State) (f n : Int) (nmax : Nat) (r : Res) :
    runRead f n nmax s = s.succeed r ↔ checkAccess s.bb f n 1 nmax = none ∧
      r = .uint (BitVec.ofNat 64 (readBits s.bb.bits f.toNat n.toNat)) := by
  cases h : checkAccess s.bb f n 1 nmax with
  | none =>
    rw [runRead_of_access h]
    refine ⟨fun heq => ⟨rfl, (congrArg State.res heq).symm⟩, fun ⟨_, hr⟩ => by rw [hr]⟩
  | some e => simp [runRead_of_denied h, State.raise_ne_succeed]

theorem runWrite_of_denied (v : Word64) {s : State} {f n : Int} {nmax : Nat} {e : Exc}
    (h : checkAccess s.bb f n 1 nmax = some e) : runWrite v f n nmax s = s.raise e := by
  simp [runWrite, writeField, h, State.finishWrite]

/-- A write inside the buffer checks the value (R150) and then sets the field (R151). -/
theorem runWrite_of_access (v : Word64) {s : State} {f n : Int} {nmax : Nat}
    (h : checkAccess s.bb f n 1 nmax = none) : runWrite v f n nmax s =
      if 2 ^ n.toNat ≤ v.toNat then s.raise ⟨.valueOverflow, v.toNat, n.toNat⟩
      else committed (writeBits s.bb.bits f.toNat n.toNat v.toNat) s := by
  simp only [runWrite, writeField, h, checkValue]
  split_ifs <;> rfl

/-- A write that ends with CLASS 0 had its field inside the buffer and a value that fits (R141, R150). -/
theorem runWrite_of_success {v : Word64} {s : State} {f n : Int} {nmax : Nat}
    (h : statusClass (runWrite v f n nmax s).status = 0#3) :
    checkAccess s.bb f n 1 nmax = none ∧ v.toNat < 2 ^ n.toNat ∧
      runWrite v f n nmax s = committed (writeBits s.bb.bits f.toNat n.toNat v.toNat) s := by
  cases haccess : checkAccess s.bb f n 1 nmax with
  | some e => simp [runWrite_of_denied v haccess, Cause.cls_code_ne_zero] at h
  | none =>
    rw [runWrite_of_access v haccess] at h ⊢
    split_ifs at h ⊢ with hv
    · simp [Cause.cls_code_ne_zero] at h
    · exact ⟨rfl, Nat.lt_of_not_le hv, rfl⟩

/-- The access checks see the buffer's length and validity only (R141). -/
theorem checkAccess_congr {b c : BitBuffer} (hvalid : b.valid = c.valid) (hlen : b.len = c.len) (f n : Int)
    (nmin nmax : Nat) : checkAccess b f n nmin nmax = checkAccess c f n nmin nmax := by
  simp only [checkAccess, hvalid, hlen]

theorem checkAccess_of_inside {b : BitBuffer} {f n nmin nmax : Nat} (hv : b.valid = true) (h1 : nmin ≤ n)
    (h2 : n ≤ nmax) (h3 : f + n ≤ b.len) : checkAccess b f n nmin nmax = none := by
  rw [checkAccess_eq_none_iff]
  exact ⟨hv, by omega, by omega, by omega, by omega⟩

/-- A read of a field inside the buffer gives the sum of R10. -/
theorem runRead_of_inside {s : State} {f n nmax : Nat} (hv : s.bb.valid = true) (h1 : 1 ≤ n) (h2 : n ≤ nmax)
    (h3 : f + n ≤ s.bb.len) :
    runRead f n nmax s = s.succeed (.uint (BitVec.ofNat 64 (fieldValue s.bb.bits f n))) := by
  rw [runRead_of_access (checkAccess_of_inside hv h1 h2 h3), Int.toNat_natCast, Int.toNat_natCast,
    readBits_eq_fieldValue h3]

/-! ## Reading after writing (R154) -/

theorem end_le_length_of_access {b : BitBuffer} {f n : Int} {nmin nmax : Nat}
    (h : checkAccess b f n nmin nmax = none) : f.toNat + n.toNat ≤ b.bits.length := by
  obtain ⟨-, hn, -, hf, hend⟩ := (checkAccess_eq_none_iff ..).mp h
  unfold BitBuffer.len at hend
  omega

/-- A write inside the buffer keeps its length (R34), and so what the access checks answer. -/
theorem checkAccess_committed_writeBits {s : State} {f n : Int} {wmax : Nat} (hin : checkAccess s.bb f n 1 wmax = none)
    (v : Nat) (g m : Int) (nmin nmax : Nat) :
    checkAccess (committed (writeBits s.bb.bits f.toNat n.toNat v) s).bb g m nmin nmax =
      checkAccess s.bb g m nmin nmax := by
  obtain ⟨hv, -⟩ := (checkAccess_eq_none_iff ..).mp hin
  have hlen : (committed (writeBits s.bb.bits f.toNat n.toNat v) s).bb.len = s.bb.len :=
    writeBits_length v (end_le_length_of_access hin)
  exact checkAccess_congr hv.symm hlen g m nmin nmax

theorem runRead_committed_writeBits_same {v : Word64} {s : State} {f n : Int} {wmax : Nat}
    (hin : checkAccess s.bb f n 1 wmax = none) (hmax : wmax ≤ 64) (hfits : v.toNat < 2 ^ n.toNat) :
    runRead f n 64 (committed (writeBits s.bb.bits f.toNat n.toNat v.toNat) s) =
      (committed (writeBits s.bb.bits f.toNat n.toNat v.toNat) s).succeed (.uint v) := by
  obtain ⟨hv, hpos, hn, hf, hend⟩ := (checkAccess_eq_none_iff ..).mp hin
  have hread : checkAccess s.bb f n 1 64 = none := (checkAccess_eq_none_iff ..).mpr ⟨hv, hpos, by omega, hf, hend⟩
  have hvalue : readBits (writeBits s.bb.bits f.toNat n.toNat v.toNat) f.toNat n.toNat = v.toNat :=
    readBits_writeBits_same (end_le_length_of_access hin) hfits
  rw [runRead_eq_succeed_iff, checkAccess_committed_writeBits hin]
  refine ⟨hread, congrArg Res.uint ?_⟩
  calc v = BitVec.ofNat 64 v.toNat := by rw [BitVec.ofNat_toNat, BitVec.setWidth_eq]
    _ = _ := congrArg (BitVec.ofNat 64) hvalue.symm

theorem runRead_committed_writeBits_disjoint (v : Nat) {s : State} {f n g m : Int} {wmax rmax : Nat} {r : Res}
    (hin : checkAccess s.bb f n 1 wmax = none) (hdisj : g + m ≤ f ∨ f + n ≤ g)
    (hread : runRead g m rmax s = s.succeed r) :
    runRead g m rmax (committed (writeBits s.bb.bits f.toNat n.toNat v) s) =
      (committed (writeBits s.bb.bits f.toNat n.toNat v) s).succeed r := by
  obtain ⟨haccess, rfl⟩ := (runRead_eq_succeed_iff ..).mp hread
  obtain ⟨-, hn, -, hf, -⟩ := (checkAccess_eq_none_iff ..).mp hin
  obtain ⟨-, hm, -, hg, -⟩ := (checkAccess_eq_none_iff ..).mp haccess
  have hvalue : readBits (writeBits s.bb.bits f.toNat n.toNat v) g.toNat m.toNat =
      readBits s.bb.bits g.toNat m.toNat :=
    readBits_writeBits_disjoint v (end_le_length_of_access hin) (by omega)
  rw [runRead_eq_succeed_iff, checkAccess_committed_writeBits hin]
  exact ⟨haccess, congrArg (fun x => Res.uint (BitVec.ofNat 64 x)) hvalue.symm⟩

/-! ## The obligations -/

/-- Settles O19. -/
theorem allocMakesAZeroBuffer : Obligations.AllocMakesAZeroBuffer := by
  refine ⟨fun c hop => ?_, fun n s hneg => ?_, fun n m s hm hover => ?_, fun n s hcap => ?_⟩
  · simp only [decode, hop]
    rfl
  · rw [exec_bbAlloc_of_neg hneg, capacityInfo_eq_getD]
  · rw [exec_bbAlloc_natCast, if_pos (withinCapacity_eq_false_of_lt hm hover), capacityInfo_of_some hm]
  · refine ⟨List.replicate n false, ?_, List.length_replicate, fun i hi => List.getElem?_replicate_of_lt hi⟩
    rw [exec_bbAlloc_natCast, (withinCapacity_eq_true_iff ..).mpr hcap, if_neg (by decide)]

/-- Settles O20. -/
theorem fromHexMakesTheBufferOfTheText : Obligations.FromHexMakesTheBufferOfTheText := by
  refine ⟨fun c hop => ?_, fun good bad c s hgood hc => ?_, fun text m s hhex hm hover => ?_,
    fun text s hhex hcap => ?_⟩
  · simp only [decode, hop]
    rfl
  · have hfirst := firstNonHex_append_cons hgood hc 0 bad
    rw [Nat.zero_add] at hfirst
    exact exec_bbFromHex_of_nonHex hfirst s
  · rw [exec_bbFromHex_of_hex hhex, if_pos (withinCapacity_eq_false_of_lt hm hover), capacityInfo_of_some hm]
  · exact ⟨_, exec_bbFromHex_succeeds hhex hcap, hexBits_length text, fun k j c hk hj => hexBits_getElem? hk hj⟩

/-- Settles O21. -/
theorem toHexRendersTheBuffer : Obligations.ToHexRendersTheBuffer := by
  refine ⟨fun c hop => ?_, fun s hv => exec_noBuffer rfl hv, fun s hv => ?_⟩
  · simp only [decode, hop]
    rfl
  · exact ⟨_, exec_bbToHex_of_valid hv, hexText_length _, fun k hk => hexText_getElem? hk⟩

/-- Settles O22: both reads are `runRead`, with widths up to 64 and up to 8. -/
theorem readsGiveTheFieldValue : Obligations.ReadsGiveTheFieldValue := fun _ _ _ hv hpos hend =>
  ⟨fieldValue_lt hend, fun h64 => congrArg Host.Outcome.next (runRead_of_inside hv hpos h64 hend),
    fun h8 => congrArg Host.Outcome.next (runRead_of_inside hv hpos h8 hend)⟩

/-- Settles O23: whatever exception the access check answers is raised by each of the four commands. -/
theorem fieldAccessChecksInOrder : Obligations.FieldAccessChecksInOrder := by
  intro v f n s x hx
  have hdenied (e : Exc) (he : checkAccess s.bb f n 1 x.2 = some e) : exec x.1 s = .next (s.raise e) := by
    simp only [List.mem_cons, List.not_mem_nil, or_false] at hx
    rcases hx with rfl | rfl | rfl | rfl
    · exact congrArg Host.Outcome.next (runRead_of_denied he)
    · exact congrArg Host.Outcome.next (runWrite_of_denied v he)
    · exact congrArg Host.Outcome.next (runRead_of_denied he)
    · exact congrArg Host.Outcome.next (runWrite_of_denied v he)
  split_ifs with hv hn hf
  · exact hdenied _ (by simp [checkAccess, hv])
  · exact hdenied _ (by simp [checkAccess, hv, hn])
  · exact hdenied _ (by simp [checkAccess, hv, hn, hf])
  · exact fun hend => hdenied _ (by simp [checkAccess, hv, hn, hf, hend])

/-- Settles O24: both writes are `runWrite`, with widths up to 64 and up to 8. -/
theorem writesSetTheFieldAndNothingElse : Obligations.WritesSetTheFieldAndNothingElse := by
  intro v f n s hv hpos hend i hi
  have hrun : exec i s = .next (if 2 ^ n ≤ v.toNat then s.raise ⟨.valueOverflow, v.toNat, n⟩
      else committed (writeBits s.bb.bits f n v.toNat) s) := by
    rcases hi with ⟨rfl, hmax⟩ | ⟨rfl, hmax⟩ <;>
      exact congrArg Host.Outcome.next (runWrite_of_access v (checkAccess_of_inside hv hpos hmax hend))
  refine ⟨fun hover => by rw [hrun, if_pos hover], fun hfits => ?_⟩
  refine ⟨_, by rw [hrun, if_neg (Nat.not_le.mpr hfits)], writeBits_length _ hend, fun k hk => ?_, fun a ha => ?_⟩
  · rw [writeBits_getElem? _ _ hend, if_pos (by omega), Nat.add_sub_cancel_left]
  · rw [writeBits_getElem? _ _ hend, if_neg (by omega)]

/-- Settles O25: a write that succeeds, of either width, has set its field, and both reads are `runRead`. -/
theorem writeThenReadGivesTheValue : Obligations.WriteThenReadGivesTheValue := by
  intro v f n s t w hw hexec hclass
  have hrun : ∃ wmax ≤ 64, runWrite v f n wmax s = t := by
    simp only [List.mem_cons, List.not_mem_nil, or_false] at hw
    rcases hw with rfl | rfl
    · exact ⟨64, le_rfl, Host.Outcome.next.inj hexec⟩
    · exact ⟨8, by decide, Host.Outcome.next.inj hexec⟩
  obtain ⟨wmax, hmax, rfl⟩ := hrun
  obtain ⟨hin, hfits, hwritten⟩ := runWrite_of_success hclass
  rw [hwritten]
  refine ⟨congrArg Host.Outcome.next (runRead_committed_writeBits_same hin hmax hfits), fun g m r hdisj => ?_⟩
  exact ⟨
    fun hread => congrArg Host.Outcome.next
      (runRead_committed_writeBits_disjoint v.toNat hin hdisj (Host.Outcome.next.inj hread)),
    fun hread => congrArg Host.Outcome.next
      (runRead_committed_writeBits_disjoint v.toNat hin hdisj (Host.Outcome.next.inj hread))⟩

/-- Settles O26: `hexText_hexBits` is the round trip of texts, `hexBits_hexText` that of buffers. -/
theorem hexTextRoundTrips : Obligations.HexTextRoundTrips := by
  refine ⟨fun text s hhex hlen hcap => ?_, fun s hv hcap => ?_⟩
  · refine ⟨_, exec_bbFromHex_succeeds hhex hcap, ?_⟩
    rw [← hexText_hexBits hhex hlen]
    exact exec_bbToHex_of_valid rfl
  · have hlen : 4 * (hexText s.bb.bits).length = 16 * ((s.bb.len + 15) / 16) := by
      rw [hexText_length, BitBuffer.len]
      omega
    refine ⟨_, _, exec_bbToHex_of_valid hv, exec_bbFromHex_succeeds (hexText_isHex _) (hlen ▸ hcap), rfl,
      (hexBits_length _).trans hlen, fun a ha => hexBits_hexText_getElem? ha,
      fun a ha hend => hexBits_hexText_getElem?_padding ha hend⟩

end Sys2Proof.Machine

/-! # Proofs of the family 41_partition: the PartitionCodec commands

PC.DECODE and PC.ENCODE make the same three accesses: `partAccess` is the first exception of these, and both
procedures are said through it. -/

namespace Sys2Proof.Machine

/-! ## The access checks of a partition -/

/-- The first exception of the three accesses of a partition at `f`: the selector, field 1, field 2 (R181, R185). -/
def partAccess (b : BitBuffer) (f : Int) (row : PartRow) : Option Exc :=
  (checkAccess b f 3 1 64).or
    ((checkAccess b (f + 3) row.bits1 1 64).or (checkAccess b (f + 3 + row.bits1) row.bits2 1 64))

theorem checkAccess_of_neg {b : BitBuffer} {f : Int} {n nmin nmax : Nat} (hv : b.valid = true) (h1 : nmin ≤ n)
    (h2 : n ≤ nmax) (hneg : f < 0) : checkAccess b f n nmin nmax = some ⟨.negOffset, 0, 0⟩ := by
  rw [checkAccess, if_neg (by simp [hv]), if_neg (by omega), if_pos hneg]

/-- At a position from 0 on, an access of a legal width checks the end of the field only (R141). -/
theorem checkAccess_natCast {b : BitBuffer} {n nmin nmax : Nat} (hv : b.valid = true) (h1 : nmin ≤ n) (h2 : n ≤ nmax)
    (f : Nat) : checkAccess b f n nmin nmax = if b.len < f + n then some ⟨.outOfBounds, f + n, b.len⟩ else none := by
  rw [checkAccess, if_neg (by simp [hv]), if_neg (by omega), if_neg (by omega), ← Nat.cast_add, Int.toNat_natCast]
  simp only [Nat.cast_lt]

/-- The selector's access (R181, R185) at a position from 0 on. -/
theorem checkAccess_selector {b : BitBuffer} (hv : b.valid = true) (f : Nat) :
    checkAccess b f 3 1 64 = if b.len < f + 3 then some ⟨.outOfBounds, f + 3, b.len⟩ else none :=
  checkAccess_natCast (n := 3) hv (by decide) (by decide) f

theorem partAccess_of_selector_denied {b : BitBuffer} {f : Int} {e : Exc} (h : checkAccess b f 3 1 64 = some e)
    (row : PartRow) : partAccess b f row = some e := by
  rw [partAccess, h, Option.some_or]

/-- The accesses of a row of either table to a valid buffer, in their order. -/
theorem partAccess_eq {table : List PartRow} (ht : table = ptSgtin ∨ table = ptSscc) {p : Nat} {row : PartRow}
    (hrow : table[p]? = some row) {b : BitBuffer} (hv : b.valid = true) (f : Int) :
    partAccess b f row =
      if f < 0 then some ⟨.negOffset, 0, 0⟩
      else if b.len < f.toNat + 3 then some ⟨.outOfBounds, f.toNat + 3, b.len⟩
      else if b.len < f.toNat + 3 + row.bits1 then some ⟨.outOfBounds, f.toNat + 3 + row.bits1, b.len⟩
      else if b.len < f.toNat + 3 + row.bits1 + row.bits2 then
        some ⟨.outOfBounds, f.toNat + 3 + row.bits1 + row.bits2, b.len⟩
      else none := by
  obtain ⟨-, hpos1, hmax1, hpos2, hmax2, -⟩ := table_row ht hrow
  by_cases hneg : f < 0
  · rw [if_pos hneg]
    exact partAccess_of_selector_denied (checkAccess_of_neg (n := 3) hv (by decide) (by decide) hneg) row
  · obtain ⟨a, rfl⟩ := Int.eq_ofNat_of_zero_le (not_lt.mp hneg)
    have hfield1 := checkAccess_natCast hv hpos1 hmax1 (a + 3)
    have hfield2 := checkAccess_natCast hv hpos2 hmax2 (a + 3 + row.bits1)
    simp only [Nat.cast_add, Nat.cast_ofNat] at hfield1 hfield2
    rw [partAccess, checkAccess_selector hv, hfield1, hfield2, if_neg hneg, Int.toNat_natCast]
    split_ifs <;> rfl

/-- The accesses pass exactly where the whole partition is inside the buffer. -/
theorem partAccess_eq_none_iff {table : List PartRow} (ht : table = ptSgtin ∨ table = ptSscc) {p : Nat} {row : PartRow}
    (hrow : table[p]? = some row) {b : BitBuffer} (hv : b.valid = true) (f : Int) :
    partAccess b f row = none ↔ 0 ≤ f ∧ f.toNat + 3 + row.bits1 + row.bits2 ≤ b.len := by
  rw [partAccess_eq ht hrow hv]
  split_ifs with hneg hselector hfield1 hfield2 <;> simp <;> omega

theorem table_eq_none_iff {table : List PartRow} (ht : table = ptSgtin ∨ table = ptSscc) (p : Nat) :
    table[p]? = none ↔ 7 ≤ p := by
  rcases ht with rfl | rfl <;> exact List.getElem?_eq_none_iff

/-! ## PC.DECODE -/

theorem readField_of_access {b : BitBuffer} {f n : Int} {nmin nmax : Nat} (h : checkAccess b f n nmin nmax = none) :
    readField b f n nmin nmax = .ok (readBits b.bits f.toNat n.toNat) :=
  (readField_eq_ok_iff ..).mpr ⟨h, rfl⟩

/-- The selector that `PartDecode` reads (R181). -/
theorem readField_selector {b : BitBuffer} {f : Int} (h : checkAccess b f 3 1 64 = none) :
    readField b f 3 1 64 = .ok (readBits b.bits f.toNat 3) :=
  readField_of_access h

theorem partDecode_of_selector_denied {b : BitBuffer} {f : Int} {e : Exc} (h : checkAccess b f 3 1 64 = some e)
    (table : List PartRow) : partDecode b f table = .error e := by
  simp only [partDecode, (readField_eq_error_iff ..).mpr h]

theorem partDecode_of_no_row {b : BitBuffer} {f : Int} {table : List PartRow} (h : checkAccess b f 3 1 64 = none)
    (hrow : table[readBits b.bits f.toNat 3]? = none) :
    partDecode b f table = .error ⟨.partition, readBits b.bits f.toNat 3, 0⟩ := by
  simp only [partDecode, readField_selector h, hrow]

/-- Once the selector has a row, `PartDecode` raises what the three accesses raise (R181). -/
theorem partDecode_of_denied {b : BitBuffer} {f : Int} {table : List PartRow} {row : PartRow} {e : Exc}
    (hrow : table[readBits b.bits f.toNat 3]? = some row) (h : partAccess b f row = some e) :
    partDecode b f table = .error e := by
  cases hselector : checkAccess b f 3 1 64 with
  | some e0 =>
    rw [partAccess_of_selector_denied hselector] at h
    rw [partDecode_of_selector_denied hselector, Option.some.inj h]
  | none =>
    rw [partAccess, hselector, Option.none_or] at h
    simp only [partDecode, readField_selector hselector, hrow]
    cases hfield1 : checkAccess b (f + 3) row.bits1 1 64 with
    | some e1 =>
      rw [hfield1, Option.some_or] at h
      rw [(readField_eq_error_iff ..).mpr hfield1, Option.some.inj h]
    | none =>
      rw [hfield1, Option.none_or] at h
      rw [readField_of_access hfield1, (readField_eq_error_iff ..).mpr h]

theorem runPartDecode_of_error {table : List PartRow} {f : Int} {s : State} {e : Exc}
    (h : partDecode s.bb f table = .error e) : runPartDecode table f s = s.raise e := by
  rw [runPartDecode, h]
  rfl

/-- PC.DECODE of a partition inside the buffer (R181). -/
theorem runPartDecode_of_inside {table : List PartRow} (ht : table = ptSgtin ∨ table = ptSscc) {f : Nat} {s : State}
    {row : PartRow} (hv : s.bb.valid = true) (hrow : table[fieldValue s.bb.bits f 3]? = some row)
    (hend : f + 3 + row.bits1 + row.bits2 ≤ s.bb.len) :
    runPartDecode table f s = s.succeed (.part (fieldValue s.bb.bits f 3)
      (pad (dec (fieldValue s.bb.bits (f + 3) row.bits1)) row.digits1)
      (pad (dec (fieldValue s.bb.bits (f + 3 + row.bits1) row.bits2)) row.digits2)) := by
  unfold BitBuffer.len at hend
  rw [← readBits_eq_fieldValue (by omega)] at hrow
  rw [runPartDecode, partDecode_ok ht hv hrow hend, readBits_eq_fieldValue (by omega),
    readBits_eq_fieldValue (by omega), readBits_eq_fieldValue hend]
  rfl

/-- A PART result of PC.DECODE is what `PartDecode` answered. -/
theorem partDecode_of_res_eq_part {table : List PartRow} {f : Int} {s : State} {p : Nat} {a b : Str}
    (h : (runPartDecode table f s).res = .part p a b) : partDecode s.bb f table = .ok (p, a, b) := by
  cases hdecode : partDecode s.bb f table with
  | error e => simp [runPartDecode_of_error hdecode] at h
  | ok r =>
    obtain ⟨q, c, d⟩ := r
    simpa [runPartDecode, hdecode, Except.map] using h

/-- A padded rendering has exactly the pad's length for a number of no more digits (R190). -/
theorem pad_dec_length {n d : Nat} (hd : 0 < d) (h : n < 10 ^ d) : (pad (dec n) d).length = d := by
  rw [pad_length, max_eq_left (dec_length_le hd h)]

theorem le_pad_length (s : Str) (d : Nat) : d ≤ (pad s d).length := by
  rw [pad_length]
  exact le_max_left ..

/-- The PC.DECODE commands are `runPartDecode` of a table. -/
theorem exec_pcDecode_of_mem {f : Int} {x : Instr × List PartRow}
    (hx : x ∈ [(Instr.pcDecodeSgtin f, ptSgtin), (.pcDecodeSscc f, ptSscc)]) :
    (x.2 = ptSgtin ∨ x.2 = ptSscc) ∧ ∀ s, exec x.1 s = .next (runPartDecode x.2 f s) := by
  simp only [List.mem_cons, List.not_mem_nil, or_false] at hx
  rcases hx with rfl | rfl
  · exact ⟨.inl rfl, fun _ => rfl⟩
  · exact ⟨.inr rfl, fun _ => rfl⟩

/-! ## The bits PC.ENCODE writes -/

/-- The three contiguous writes of `PartEncodeWrite` (R185). -/
def partBits (bits : List Bool) (f : Nat) (row : PartRow) (p n1 n2 : Nat) : List Bool :=
  writeBits (writeBits (writeBits bits f 3 p) (f + 3) row.bits1 n1) (f + 3 + row.bits1) row.bits2 n2

section

variable {bits : List Bool} {f : Nat} {row : PartRow} (hend : f + 3 + row.bits1 + row.bits2 ≤ bits.length)
include hend

theorem writeBits_selector_length (p : Nat) : (writeBits bits f 3 p).length = bits.length :=
  writeBits_length p (by omega)

theorem writeBits_field1_length (p n1 : Nat) :
    (writeBits (writeBits bits f 3 p) (f + 3) row.bits1 n1).length = bits.length := by
  have hlen := writeBits_selector_length hend p
  rw [writeBits_length n1 (by omega), hlen]

theorem partBits_length (p n1 n2 : Nat) : (partBits bits f row p n1 n2).length = bits.length := by
  have hlen := writeBits_field1_length hend p n1
  rw [partBits, writeBits_length n2 (by omega), hlen]

theorem fieldValue_partBits_selector {p : Nat} (hp : p < 2 ^ 3) (n1 n2 : Nat) :
    fieldValue (partBits bits f row p n1 n2) f 3 = p := by
  have hlen0 := writeBits_selector_length hend p
  have hlen1 := writeBits_field1_length hend p n1
  rw [← readBits_eq_fieldValue (by rw [partBits_length hend]; omega), partBits,
    readBits_writeBits_disjoint _ (by omega) (by omega), readBits_writeBits_disjoint _ (by omega) (by omega),
    readBits_writeBits_same (by omega) hp]

theorem fieldValue_partBits_field1 (p : Nat) {n1 : Nat} (hn1 : n1 < 2 ^ row.bits1) (n2 : Nat) :
    fieldValue (partBits bits f row p n1 n2) (f + 3) row.bits1 = n1 := by
  have hlen0 := writeBits_selector_length hend p
  have hlen1 := writeBits_field1_length hend p n1
  rw [← readBits_eq_fieldValue (by rw [partBits_length hend]; omega), partBits,
    readBits_writeBits_disjoint _ (by omega) (by omega), readBits_writeBits_same (by omega) hn1]

theorem fieldValue_partBits_field2 (p n1 : Nat) {n2 : Nat} (hn2 : n2 < 2 ^ row.bits2) :
    fieldValue (partBits bits f row p n1 n2) (f + 3 + row.bits1) row.bits2 = n2 := by
  have hlen1 := writeBits_field1_length hend p n1
  rw [← readBits_eq_fieldValue (by rw [partBits_length hend]; omega), partBits,
    readBits_writeBits_same (by omega) hn2]

/-- No position outside the three fields changes. -/
theorem partBits_getElem?_outside (p n1 n2 : Nat) {a : Nat} (ha : a < f ∨ f + 3 + row.bits1 + row.bits2 ≤ a) :
    (partBits bits f row p n1 n2)[a]? = bits[a]? := by
  have hlen0 := writeBits_selector_length hend p
  have hlen1 := writeBits_field1_length hend p n1
  rw [partBits, writeBits_getElem? _ _ (by omega), if_neg (by omega), writeBits_getElem? _ _ (by omega),
    if_neg (by omega), writeBits_getElem? _ _ (by omega), if_neg (by omega)]

end

/-! ## PC.ENCODE -/

theorem writeField_of_denied {b : BitBuffer} {f n : Int} {nmin nmax : Nat} {e : Exc}
    (h : checkAccess b f n nmin nmax = some e) (v : Nat) : writeField b f n nmin nmax v = .error e := by
  simp only [writeField, h]

/-- A checked write keeps what every access check answers (R34). -/
theorem checkAccess_of_writeField {b : BitBuffer} {f n : Int} {nmin nmax v : Nat} {bits : List Bool}
    (h : writeField b f n nmin nmax v = .ok bits) (g m : Int) (lo hi : Nat) :
    checkAccess { b with bits := bits } g m lo hi = checkAccess b g m lo hi :=
  checkAccess_congr (b := { b with bits := bits }) (c := b) rfl (writeField_length h) g m lo hi

theorem writeField_of_access {b : BitBuffer} {f n : Int} {nmin nmax v : Nat} (h : checkAccess b f n nmin nmax = none)
    (hfits : v < 2 ^ n.toNat) : writeField b f n nmin nmax v = .ok (writeBits b.bits f.toNat n.toNat v) :=
  (writeField_eq_ok_iff ..).mpr ⟨h, hfits, rfl⟩

/-- With numbers that fit, `PartEncodeWrite` raises what the three accesses raise: a write that has succeeded changes
no later access (R185). -/
theorem partEncodeWrite_of_denied {b : BitBuffer} {f : Int} {row : PartRow} {p n1 : Nat} {e : Exc} (hp : p < 2 ^ 3)
    (hn1 : n1 < 2 ^ row.bits1) (n2 : Nat) (h : partAccess b f row = some e) :
    partEncodeWrite b f row p n1 n2 = .error e := by
  unfold partEncodeWrite
  cases hselector : checkAccess b f 3 1 64 with
  | some e0 =>
    rw [partAccess_of_selector_denied hselector] at h
    rw [writeField_of_denied hselector, Option.some.inj h]
  | none =>
    rw [partAccess, hselector, Option.none_or] at h
    have hwrite0 := writeField_of_access hselector hp
    simp only [hwrite0]
    cases hfield1 : checkAccess b (f + 3) row.bits1 1 64 with
    | some e1 =>
      rw [hfield1, Option.some_or] at h
      rw [writeField_of_denied ((checkAccess_of_writeField hwrite0 ..).trans hfield1), Option.some.inj h]
    | none =>
      rw [hfield1, Option.none_or] at h
      have hwrite1 := writeField_of_access ((checkAccess_of_writeField hwrite0 ..).trans hfield1)
        (v := n1) (by simpa using hn1)
      simp only [hwrite1]
      refine writeField_of_denied ?_ n2
      exact (checkAccess_of_writeField hwrite1 ..).trans ((checkAccess_of_writeField hwrite0 ..).trans h)

theorem runPartEncode_of_invalid {s : State} (hv : s.bb.valid = false) (table : List PartRow) (f : Int) (p : Nat)
    (s1 s2 : Str) : runPartEncode table f p s1 s2 s = s.raise ⟨.noBuffer, 0, 0⟩ :=
  if_pos hv

/-- An operand check leaves `BB` as it was (R186). -/
theorem runPartEncode_of_check_error {s : State} (hv : s.bb.valid = true) {table : List PartRow} {p : Nat}
    {s1 s2 : Str} {e : Exc} (h : partEncodeCheck table p s1 s2 = .error e) (f : Int) :
    runPartEncode table f p s1 s2 s = s.raise e := by
  simp [runPartEncode, hv, h]

section

variable {table : List PartRow} (ht : table = ptSgtin ∨ table = ptSscc) {p : Nat} {s1 s2 : Str} {row : PartRow}
  {n1 n2 : Nat} (hcheck : partEncodeCheck table p s1 s2 = .ok (row, n1, n2)) {s : State} (hv : s.bb.valid = true)
include ht hcheck

/-- What passed the operand checks fits its field, so `CheckValue` never raises (R185). -/
theorem partEncodeCheck_fits : p < 2 ^ 3 ∧ n1 < 2 ^ row.bits1 ∧ n2 < 2 ^ row.bits2 := by
  obtain ⟨hrow, hlen1, hlen2, hparse1, hparse2⟩ := (partEncodeCheck_eq_ok_iff ..).mp hcheck
  obtain ⟨hp, -, -, -, -, -, -, hfit1, hfit2, -⟩ := table_row ht hrow
  exact ⟨by omega, field_fits hparse1 hlen1 hfit1, field_fits hparse2 hlen2 hfit2⟩

include hv

/-- A denied access of the write phase invalidates `BB` (R186). -/
theorem runPartEncode_of_denied {f : Int} {e : Exc} (h : partAccess s.bb f row = some e) :
    runPartEncode table f p s1 s2 s = s.poison.raise e := by
  obtain ⟨hp, hn1, -⟩ := partEncodeCheck_fits ht hcheck
  simp [runPartEncode, hv, hcheck, partEncodeWrite_of_denied hp hn1 n2 h]

/-- PC.ENCODE of a partition inside the buffer (R185). -/
theorem runPartEncode_of_inside {f : Nat} (hend : f + 3 + row.bits1 + row.bits2 ≤ s.bb.len) :
    runPartEncode table f p s1 s2 s = committed (partBits s.bb.bits f row p n1 n2) s := by
  obtain ⟨hrow, -⟩ := (partEncodeCheck_eq_ok_iff ..).mp hcheck
  obtain ⟨-, hpos1, hmax1, hpos2, hmax2, -⟩ := table_row ht hrow
  obtain ⟨hp, hn1, hn2⟩ := partEncodeCheck_fits ht hcheck
  simp only [runPartEncode, hv, hcheck, partEncodeWrite_ok hv ⟨hpos1, hmax1⟩ ⟨hpos2, hmax2⟩ hend hp hn1 hn2]
  rfl

/-- PC.DECODE after a PC.ENCODE inside the buffer reads the three fields written (R191). -/
theorem runPartDecode_runPartEncode {f : Nat} (hend : f + 3 + row.bits1 + row.bits2 ≤ s.bb.len) :
    runPartDecode table f (runPartEncode table f p s1 s2 s) = (runPartEncode table f p s1 s2 s).succeed
      (.part p (pad (dec n1) row.digits1) (pad (dec n2) row.digits2)) := by
  obtain ⟨hrow, -⟩ := (partEncodeCheck_eq_ok_iff ..).mp hcheck
  obtain ⟨hp, hn1, hn2⟩ := partEncodeCheck_fits ht hcheck
  have hselector := fieldValue_partBits_selector hend hp n1 n2
  have hfield1 := fieldValue_partBits_field1 hend p hn1 n2
  have hfield2 := fieldValue_partBits_field2 hend p n1 hn2
  rw [runPartEncode_of_inside ht hcheck hv hend,
    runPartDecode_of_inside ht (s := committed (partBits s.bb.bits f row p n1 n2) s) (row := row) rfl
      ((congrArg (table[·]?) hselector).trans hrow) (hend.trans_eq (partBits_length hend p n1 n2).symm)]
  simp only [committed, State.succeed_bb, hselector, hfield1, hfield2]

end

theorem poisonedBy_poison_raise (e : Exc) (s : State) : PoisonedBy e s (s.poison.raise e) := ⟨rfl, rfl⟩

/-- A PC.ENCODE that ends with CLASS 0 passed the operand checks and had the whole partition inside the buffer. -/
theorem runPartEncode_of_success {table : List PartRow} (ht : table = ptSgtin ∨ table = ptSscc) {f : Int} {p : Nat}
    {s1 s2 : Str} {s : State} (h : statusClass (runPartEncode table f p s1 s2 s).status = 0#3) :
    ∃ row n1 n2, partEncodeCheck table p s1 s2 = .ok (row, n1, n2) ∧ s.bb.valid = true ∧ 0 ≤ f ∧
      f.toNat + 3 + row.bits1 + row.bits2 ≤ s.bb.len := by
  cases hv : s.bb.valid with
  | false => simp [runPartEncode_of_invalid hv, Cause.cls_code_ne_zero] at h
  | true =>
    cases hcheck : partEncodeCheck table p s1 s2 with
    | error e => simp [runPartEncode_of_check_error hv hcheck, Cause.cls_code_ne_zero] at h
    | ok r =>
      obtain ⟨row, n1, n2⟩ := r
      obtain ⟨hrow, -⟩ := (partEncodeCheck_eq_ok_iff ..).mp hcheck
      cases haccess : partAccess s.bb f row with
      | some e => simp [runPartEncode_of_denied ht hcheck hv haccess, Cause.cls_code_ne_zero] at h
      | none => exact ⟨row, n1, n2, rfl, rfl, (partAccess_eq_none_iff ht hrow hv f).mp haccess⟩

/-- A number whose string without its leading zeros has at most d characters is below 10 to the d. -/
theorem parseDec_lt {s : Str} {n d : Nat} (hparse : parseDec s = some n) (hlen : (stripZ s).length ≤ d) :
    n < 10 ^ d := by
  obtain ⟨-, hdigits, rfl⟩ := parseDec_some hparse
  rw [← decValue_stripZ]
  exact (decValue_lt (all_stripZ hdigits)).trans_le (Nat.pow_le_pow_right (by decide) hlen)

/-- An operand is its own padded rendering exactly when it has the pad's length (R191). -/
theorem pad_dec_eq_iff {s : Str} {n d : Nat} (hparse : parseDec s = some n) (hlen : (stripZ s).length ≤ d)
    (hd : 0 < d) : pad (dec n) d = s ↔ s.length = d := by
  constructor
  · rintro rfl
    exact pad_dec_length hd (parseDec_lt hparse hlen)
  · rintro rfl
    obtain ⟨hne, hdigits, rfl⟩ := parseDec_some hparse
    exact pad_dec_decValue hdigits hne

/-- The PC.ENCODE commands are `runPartEncode` of a table. -/
theorem exec_pcEncode_of_mem {f : Int} {p : Nat} {s1 s2 : Str} {x : Instr × List PartRow}
    (hx : x ∈ [(Instr.pcEncodeSgtin f p s1 s2, ptSgtin), (.pcEncodeSscc f p s1 s2, ptSscc)]) :
    (x.2 = ptSgtin ∨ x.2 = ptSscc) ∧ ∀ s, exec x.1 s = .next (runPartEncode x.2 f p s1 s2 s) := by
  simp only [List.mem_cons, List.not_mem_nil, or_false] at hx
  rcases hx with rfl | rfl
  · exact ⟨.inl rfl, fun _ => rfl⟩
  · exact ⟨.inr rfl, fun _ => rfl⟩

/-- The PC.ENCODE and PC.DECODE commands of one table. -/
theorem exec_pcEncode_pcDecode_of_mem {f : Int} {p : Nat} {s1 s2 : Str} {x : Instr × Instr × List PartRow}
    (hx : x ∈ [(Instr.pcEncodeSgtin f p s1 s2, Instr.pcDecodeSgtin f, ptSgtin),
      (.pcEncodeSscc f p s1 s2, .pcDecodeSscc f, ptSscc)]) :
    (x.2.2 = ptSgtin ∨ x.2.2 = ptSscc) ∧ (∀ s, exec x.1 s = .next (runPartEncode x.2.2 f p s1 s2 s)) ∧
      ∀ s, exec x.2.1 s = .next (runPartDecode x.2.2 f s) := by
  simp only [List.mem_cons, List.not_mem_nil, or_false] at hx
  rcases hx with rfl | rfl
  · exact ⟨.inl rfl, fun _ => rfl, fun _ => rfl⟩
  · exact ⟨.inr rfl, fun _ => rfl, fun _ => rfl⟩

/-! ## PC.LEN2PART -/

theorem exec_pcLen2part_of_none {s1 : Str} (h : len2part s1.length = none) (s : State) :
    exec (.pcLen2part s1) s = .next (s.raise ⟨.prefixLength, s1.length, 0⟩) := by
  simp only [exec, execPcLen2part, h]

theorem exec_pcLen2part_of_some {s1 : Str} {p : Nat} (h : len2part s1.length = some p) (s : State) :
    exec (.pcLen2part s1) s = .next (s.succeed (.uint (BitVec.ofNat 64 p))) := by
  simp only [exec, execPcLen2part, h]

/-! ## The obligations -/

/-- Settles O28. -/
theorem partitionDecodeReadsTheFields : Obligations.PartitionDecodeReadsTheFields := by
  intro f s x hx row hv hrow hend
  obtain ⟨htable, hexec⟩ := exec_pcDecode_of_mem hx
  rw [hexec, runPartDecode_of_inside htable hv hrow hend]

/-- Settles O29: before the selector is read its own access can fail, after it the accesses of its row. -/
theorem partitionDecodeChecksInOrder : Obligations.PartitionDecodeChecksInOrder := by
  intro f s x hx
  obtain ⟨htable, hexec⟩ := exec_pcDecode_of_mem hx
  have hraise (e : Exc) (he : partDecode s.bb f x.2 = .error e) : exec x.1 s = .next (s.raise e) := by
    rw [hexec, runPartDecode_of_error he]
  by_cases hinvalid : s.bb.valid = false
  · rw [if_pos hinvalid]
    exact hraise _ (partDecode_invalid hinvalid f x.2)
  have hv : s.bb.valid = true := by simpa using hinvalid
  rw [if_neg hinvalid]
  by_cases hneg : f < 0
  · rw [if_pos hneg]
    exact hraise _ (partDecode_of_selector_denied (checkAccess_of_neg (n := 3) hv (by decide) (by decide) hneg) x.2)
  obtain ⟨a, rfl⟩ := Int.eq_ofNat_of_zero_le (not_lt.mp hneg)
  have haccess := checkAccess_selector hv a
  rw [if_neg hneg]
  by_cases hselector : (s.bb.len : Int) < a + 3
  · rw [if_pos (by omega)] at haccess
    rw [if_pos hselector]
    exact hraise _ (partDecode_of_selector_denied haccess x.2)
  have hinside : a + 3 ≤ s.bb.len := by omega
  have hvalue : readBits s.bb.bits (a : Int).toNat 3 = fieldValue s.bb.bits a 3 := readBits_eq_fieldValue hinside
  rw [if_neg (not_lt.mpr hinside)] at haccess
  rw [if_neg hselector, Int.toNat_natCast]
  split_ifs with hseven
  · have hnone := partDecode_of_no_row haccess (table := x.2)
      (by rw [hvalue, table_eq_none_iff htable, hseven])
    rw [hvalue, hseven] at hnone
    exact hraise _ hnone
  · intro row hrow
    have hdenied (e : Exc) (he : partAccess s.bb a row = some e) : exec x.1 s = .next (s.raise e) :=
      hraise _ (partDecode_of_denied (by rw [hvalue, hrow]) he)
    rw [partAccess_eq htable hrow hv, if_neg hneg, Int.toNat_natCast, if_neg (not_lt.mpr hinside)] at hdenied
    split_ifs with hfield1
    · exact hdenied _ (if_pos hfield1)
    · exact fun hfield2 => hdenied _ (by rw [if_neg hfield1, if_pos hfield2])

/-- Settles O30. -/
theorem partitionEncodeWritesTheFields : Obligations.PartitionEncodeWritesTheFields := by
  intro f p n1 n2 s1 s2 row s x hx hv hrow hlen1 hlen2 hparse1 hparse2 hend
  obtain ⟨htable, hexec⟩ := exec_pcEncode_of_mem hx
  have hcheck := (partEncodeCheck_eq_ok_iff ..).mpr ⟨hrow, hlen1, hlen2, hparse1, hparse2⟩
  obtain ⟨hp, hn1, hn2⟩ := partEncodeCheck_fits htable hcheck
  exact ⟨partBits s.bb.bits f row p n1 n2, by rw [hexec, runPartEncode_of_inside htable hcheck hv hend],
    partBits_length hend p n1 n2, fieldValue_partBits_selector hend hp n1 n2, fieldValue_partBits_field1 hend p hn1 n2,
    fieldValue_partBits_field2 hend p n1 hn2, fun a ha => partBits_getElem?_outside hend p n1 n2 ha⟩

/-- Settles O31: an operand check raises, and once these have passed the write phase invalidates `BB` with what the
three accesses raise. -/
theorem partitionEncodeChecksInOrder : Obligations.PartitionEncodeChecksInOrder := by
  intro f p s1 s2 s x hx
  obtain ⟨htable, hexec⟩ := exec_pcEncode_of_mem hx
  by_cases hinvalid : s.bb.valid = false
  · rw [if_pos hinvalid, hexec, runPartEncode_of_invalid hinvalid]
  rw [if_neg hinvalid]
  have hv : s.bb.valid = true := by simpa using hinvalid
  have hraise (e : Exc) (he : partEncodeCheck x.2 p s1 s2 = .error e) : exec x.1 s = .next (s.raise e) := by
    rw [hexec, runPartEncode_of_check_error hv he]
  by_cases hp : 7 ≤ p
  · rw [if_pos hp]
    exact hraise _ (by simp [partEncodeCheck, (table_eq_none_iff htable p).mpr hp])
  rw [if_neg hp]
  intro row hrow
  split_ifs with hlen1 hlen2 hparse1 hparse2 hneg hselector hfield1
  · exact hraise _ (by simp [partEncodeCheck, hrow, hlen1])
  · exact hraise _ (by simp [partEncodeCheck, hrow, hlen1, hlen2])
  · exact hraise _ (by simp [partEncodeCheck, hrow, hlen1, hlen2, hparse1])
  · obtain ⟨n1, hn1⟩ := Option.ne_none_iff_exists'.mp hparse1
    exact hraise _ (by simp [partEncodeCheck, hrow, hlen1, hlen2, hn1, hparse2])
  all_goals
    obtain ⟨n1, hn1⟩ := Option.ne_none_iff_exists'.mp hparse1
    obtain ⟨n2, hn2⟩ := Option.ne_none_iff_exists'.mp hparse2
    have hcheck := (partEncodeCheck_eq_ok_iff ..).mpr ⟨hrow, not_lt.mp hlen1, not_lt.mp hlen2, hn1, hn2⟩
    have hpoison (e : Exc) (he : partAccess s.bb f row = some e) :
        ∃ t, exec x.1 s = .next t ∧ PoisonedBy e s t :=
      ⟨_, by rw [hexec, runPartEncode_of_denied htable hcheck hv he], poisonedBy_poison_raise e s⟩
    rw [partAccess_eq htable hrow hv] at hpoison
  · exact hpoison _ (if_pos hneg)
  · exact hpoison _ (by rw [if_neg hneg, if_pos hselector])
  · exact hpoison _ (by rw [if_neg hneg, if_neg hselector, if_pos hfield1])
  · exact fun hfield2 => hpoison _ (by rw [if_neg hneg, if_neg hselector, if_neg hfield1, if_pos hfield2])

/-- Settles O33: the strings are padded renderings of the fields. -/
theorem decodedStringsArePadded : Obligations.DecodedStringsArePadded := by
  intro f p a b s t x hx hrun hres
  obtain ⟨htable, hexec⟩ := exec_pcDecode_of_mem hx
  obtain rfl : runPartDecode x.2 f s = t := Host.Outcome.next.inj ((hexec s).symm.trans hrun)
  obtain ⟨row, hrow, -, hf, hend, -, rfl, rfl⟩ := partDecode_eq_ok (partDecode_of_res_eq_part hres)
  obtain ⟨-, -, -, -, -, hdigits1, hdigits2, -⟩ := table_row htable hrow
  unfold BitBuffer.len at hend
  rw [readBits_eq_fieldValue (by omega), readBits_eq_fieldValue (by omega)]
  exact ⟨row, hrow, le_pad_length _ _, le_pad_length _ _, parseDec_pad_dec _ _, parseDec_pad_dec _ _,
    pad_dec_length hdigits1, pad_dec_length hdigits2⟩

/-- Settles O34: a successful PC.ENCODE has written the three fields that PC.DECODE reads. -/
theorem partitionEncodeThenDecode : Obligations.PartitionEncodeThenDecode := by
  intro f p s1 s2 s t x hx hrun hclass
  obtain ⟨htable, hencode, hdecode⟩ := exec_pcEncode_pcDecode_of_mem hx
  obtain rfl : runPartEncode x.2.2 f p s1 s2 s = t := Host.Outcome.next.inj ((hencode s).symm.trans hrun)
  obtain ⟨row, n1, n2, hcheck, hv, hf, hend⟩ := runPartEncode_of_success htable hclass
  obtain ⟨hrow, hlen1, hlen2, hparse1, hparse2⟩ := (partEncodeCheck_eq_ok_iff ..).mp hcheck
  obtain ⟨a, rfl⟩ := Int.eq_ofNat_of_zero_le hf
  rw [Int.toNat_natCast] at hend
  obtain ⟨-, -, -, -, -, hdigits1, hdigits2, -⟩ := table_row htable hrow
  refine ⟨row, n1, n2, hrow, hparse1, hparse2, ?_, ?_⟩
  · rw [hdecode, runPartDecode_runPartEncode htable hcheck hv hend]
  · rw [pad_dec_eq_iff hparse1 hlen1 hdigits1, pad_dec_eq_iff hparse2 hlen2 hdigits2]
    obtain ⟨-, hall1, -⟩ := parseDec_some hparse1
    obtain ⟨-, hall2, -⟩ := parseDec_some hparse2
    simp only [hall1, hall2, and_true]

/-- Settles O32. -/
theorem len2PartLooksUpTheLength : Obligations.Len2PartLooksUpTheLength := by
  refine ⟨fun c hop => ?_, fun s1 s hmin hmax => ?_, fun s1 s hother => ?_⟩
  · simp only [decode, hop]
    rfl
  · exact exec_pcLen2part_of_some ((len2part_eq_some_iff ..).mpr ⟨hmin, hmax, rfl⟩) s
  · exact exec_pcLen2part_of_none ((len2part_eq_none_iff _).mpr hother) s

end Sys2Proof.Machine

/-! # Proofs of the family 42_sevenbit: the SevenBitStringCodec commands

The two commands are said once, by what the field check and the septet loops answer; each obligation then reads what
its loop does off the laws of the loop. -/

namespace Sys2Proof.Machine

/-! ## The commands by what their procedures answer -/

/-- An exception of the field check ends S7.DECODE and S7.ENCODE before they touch `BB` (R213, R217). -/
theorem exec_s7_of_check_error {s1 : Str} {f n : Int} {s : State} {i : Instr}
    (hi : i ∈ [Instr.s7Decode f n, .s7Encode s1 f n]) {e : Exc} (h : checkSeptetField s.bb f n = some e) :
    exec i s = .next (s.raise e) := by
  simp only [List.mem_cons, List.not_mem_nil, or_false] at hi
  rcases hi with rfl | rfl
  · simp only [exec, execS7Decode, s7Decode, h, Except.map, State.conclude_error]
  · simp only [exec, execS7Encode, h]

/-- The write loop on the operands of a command whose field is `k` septets from position `f` on (R210, R215). -/
theorem writeSeptets_of_operands (bits : List Bool) (f k : Nat) (s1 : Str) :
    writeSeptets bits (f : Int).toNat (((7 * k : Nat) : Int).toNat / 7) s1 = writeSeptets bits f k s1 := by
  rw [Int.toNat_natCast, Int.toNat_natCast, Nat.mul_div_cancel_left k (by decide)]

section

variable {f k : Nat} {s : State} (hv : s.bb.valid = true) (hend : f + 7 * k ≤ s.bb.len)
include hv hend

/-- S7.DECODE of septets that spell a string (R212, R213). -/
theorem exec_s7Decode_of_spells {out : Str} (h : Spells (fieldSeptets s.bb.bits f k) out) :
    exec (.s7Decode f (7 * k : Nat)) s = .next (s.succeed (.str out)) := by
  have hloop := (decodeSeptets_eq_ok_iff 0 _ _).mpr h
  simp only [exec, execS7Decode, s7Decode_eq hv hend, hloop, Except.map, State.conclude_ok]

/-- S7.DECODE of septets with a bad escape (R212, R213). -/
theorem exec_s7Decode_of_badEscape {j why : Nat} (h : BadEscapeAt 0 (fieldSeptets s.bb.bits f k) j why) :
    exec (.s7Decode f (7 * k : Nat)) s = .next (s.raise ⟨.badEscape, j, why⟩) := by
  have hloop := decodeSeptets_of_badEscape h
  simp only [exec, execS7Decode, s7Decode_eq hv hend, hloop, Except.map, State.conclude_error]

/-- S7.ENCODE commits what the write loop has written (R215, R217). -/
theorem exec_s7Encode_of_writes {s1 : Str} {bits : List Bool} (h : writeSeptets s.bb.bits f k s1 = .ok bits) :
    exec (.s7Encode s1 f (7 * k : Nat)) s = .next (committed bits s) := by
  simp only [exec, execS7Encode, checkSeptetField_ok hv hend, writeSeptets_of_operands, h]
  rfl

/-- An exception of the write loop invalidates `BB` (R216). -/
theorem exec_s7Encode_of_overflow {s1 : Str} {e : Exc} (h : writeSeptets s.bb.bits f k s1 = .error e) :
    exec (.s7Encode s1 f (7 * k : Nat)) s = .next (s.poison.raise e) := by
  simp only [exec, execS7Encode, checkSeptetField_ok hv hend, writeSeptets_of_operands, h]

end

/-! ## The obligations -/

/-- Settles O35. -/
theorem septetFieldChecksInOrder : Obligations.SeptetFieldChecksInOrder := by
  intro s1 f n s i hi
  have hraise (e : Exc) (he : checkSeptetField s.bb f n = some e) : exec i s = .next (s.raise e) :=
    exec_s7_of_check_error hi he
  unfold checkSeptetField at hraise
  split_ifs with hinvalid hcount hseven hneg
  · exact hraise _ (if_pos hinvalid)
  · exact hraise _ (by rw [if_neg hinvalid, if_pos hcount])
  · exact hraise _ (by rw [if_neg hinvalid, if_neg hcount, if_pos hseven])
  · exact hraise _ (by rw [if_neg hinvalid, if_neg hcount, if_neg hseven, if_pos hneg])
  · exact fun hbounds =>
      hraise _ (by rw [if_neg hinvalid, if_neg hcount, if_neg hseven, if_neg hneg, if_pos hbounds])

/-- Settles O36. -/
theorem s7DecodeReadsTheString : Obligations.S7DecodeReadsTheString :=
  fun _ _ _ hv hend => ⟨fun _ => exec_s7Decode_of_spells hv hend, fun _ _ => exec_s7Decode_of_badEscape hv hend,
    spells_or_badEscape 0 _⟩

/-- Settles O37: the septets written lie inside the buffer, so they read back as the sum of R10. -/
theorem s7EncodeWritesTheString : Obligations.S7EncodeWritesTheString := by
  intro s1 cs f k s hv hend hcs hseven
  obtain ⟨bits, hwrite, hlen, hread, hframe⟩ := writeSeptets_ok hcs hend hseven
  refine ⟨bits, exec_s7Encode_of_writes hv hend hwrite, hlen, fun i c hc => ?_, hframe⟩
  have hi : i < k := (List.getElem?_eq_some_iff.mp hc).1.trans_le (List.length_take_le k cs)
  have hinside : f + 7 * i + 7 ≤ bits.length := by
    unfold BitBuffer.len at hend
    omega
  rw [← readBits_eq_fieldValue hinside, hread i c hc]

/-- Settles O38. -/
theorem s7EncodeOverflowInvalidates : Obligations.S7EncodeOverflowInvalidates := by
  intro s1 good bad c f k s hv hend hcs hgood hc hk
  have hoverflow : writeSeptets s.bb.bits f k s1 = .error ⟨.valueOverflow, c, 7⟩ :=
    writeSeptets_overflow hcs hgood hc hk
  exact ⟨_, exec_s7Encode_of_overflow hv hend hoverflow, poisonedBy_poison_raise _ s⟩

/-- Settles O39: the field then holds the characters written and zeros after them, which spell these characters. -/
theorem septetStringsRoundTrip : Obligations.SeptetStringsRoundTrip := by
  refine ⟨fun s1 cs f k s hv hend hzeros hcs hplain => ?_, fun s1 => encodesAs_self⟩
  obtain ⟨bits, hwrite, hlen, hread, hframe⟩ := writeSeptets_ok hcs hend fun c hc => (hplain c hc).2.1
  have hfield : fieldSeptets bits f k = cs.take k ++ List.replicate (k - (cs.take k).length) 0 :=
    fieldSeptets_of_writes hend hlen hread hframe hzeros
  have hspells : Spells (fieldSeptets (committed bits s).bb.bits f k) (cs.take k) :=
    hfield ▸ spells_plain _ _ hplain
  exact ⟨committed bits s, exec_s7Encode_of_writes hv hend hwrite,
    exec_s7Decode_of_spells (s := committed bits s) rfl (hend.trans_eq hlen.symm) hspells⟩

end Sys2Proof.Machine

/-! # Proofs of the family 43_registry: the TagSchemeRegistry commands

The two dispatch tables are said once, as the tables of R241; each dispatch is then the selected scheme's own command
on the same operand. -/

namespace Sys2Proof.Machine

/-! ## The dispatch tables -/

/-- The header table of R241. -/
theorem headerLookup_eq (h : Nat) :
    headerLookup h = if h = 0x30 then some .sgtin96 else if h = 0x31 then some .sscc96
      else if h = 0x36 then some .sgtin198 else none := by
  split_ifs with h30 h31 h36
  · subst h30; rfl
  · subst h31; rfl
  · subst h36; rfl
  · simp only [headerLookup, List.find?_eq_none, List.forall_mem_cons, beq_iff_eq]
    exact ⟨Ne.symm h30, Ne.symm h31, Ne.symm h36, List.forall_mem_nil _⟩

/-- The token table of R241. -/
theorem tokenLookup_eq (tok : Str) :
    tokenLookup tok = if tok = str "sgtin-96" then some .sgtin96 else if tok = str "sgtin-198" then some .sgtin198
      else if tok = str "sscc-96" then some .sscc96 else none := by
  split_ifs with h96 h198 hss
  · subst h96; rfl
  · subst h198; rfl
  · subst hss; rfl
  · simp only [tokenLookup, List.find?_eq_none, List.forall_mem_cons, beq_iff_eq]
    exact ⟨Ne.symm h96, Ne.symm h198, Ne.symm hss, List.forall_mem_nil _⟩

/-! ## The commands of a scheme by their shared procedures -/

theorem exec_decodeInstr (sch : Scheme) (text : Str) (s : State) :
    exec (decodeInstr sch text) s = .next (runTagDecode sch text s) := by
  cases sch <;> rfl

theorem exec_fromUriInstr (sch : Scheme) (u : UriValue) (s : State) :
    exec (fromUriInstr sch u) s = .next (s.conclude ((fromUri sch u).map Res.tag)) := by
  cases sch <;> rfl

/-! ## REG.DISPATCH_BINARY -/

theorem exec_regDispatchBinary_of_short {text : Str} (h : text.length < 2) (s : State) :
    exec (.regDispatchBinary text) s = .next (s.raise ⟨.shortText, text.length, 2⟩) := by
  match text with
  | [] | [_] => rfl
  | _ :: _ :: rest =>
    simp only [List.length_cons] at h
    omega

section

variable {c0 c1 : Nat} (rest : Str) (s : State)

theorem exec_regDispatchBinary_of_nonHex_first (h0 : isHex c0 = false) :
    exec (.regDispatchBinary (c0 :: c1 :: rest)) s = .next (s.raise ⟨.hexChar, 0, c0⟩) :=
  congrArg Host.Outcome.next (if_pos h0)

variable (h0 : ¬isHex c0 = false)
include h0

theorem exec_regDispatchBinary_of_nonHex_second (h1 : isHex c1 = false) :
    exec (.regDispatchBinary (c0 :: c1 :: rest)) s = .next (s.raise ⟨.hexChar, 1, c1⟩) :=
  congrArg Host.Outcome.next ((if_neg h0).trans (if_pos h1))

variable (h1 : ¬isHex c1 = false)
include h1

theorem exec_regDispatchBinary_of_unknown (h : headerLookup (16 * hexval c0 + hexval c1) = none) :
    exec (.regDispatchBinary (c0 :: c1 :: rest)) s =
      .next (s.raise ⟨.unknownHeader, 16 * hexval c0 + hexval c1, 0⟩) := by
  simp only [exec, execRegDispatchBinary, if_neg h0, if_neg h1, h]

/-- A header byte of the table selects the scheme, whose DECODE gets the whole text (R242, R243). -/
theorem exec_regDispatchBinary_of_header {sch : Scheme} (h : headerLookup (16 * hexval c0 + hexval c1) = some sch) :
    exec (.regDispatchBinary (c0 :: c1 :: rest)) s = exec (decodeInstr sch (c0 :: c1 :: rest)) s := by
  rw [exec_decodeInstr]
  simp only [exec, execRegDispatchBinary, if_neg h0, if_neg h1, h]

/-- The dispatch against the scheme's own DECODE, which answers next as every command does. -/
theorem exec_regDispatchBinary_agrees {sch : Scheme} (h : headerLookup (16 * hexval c0 + hexval c1) = some sch) :
    ∃ t, exec (.regDispatchBinary (c0 :: c1 :: rest)) s = .next t ∧
      ∃ u, exec (decodeInstr sch (c0 :: c1 :: rest)) s = .next u ∧ AgreesButScratch t u := by
  have hdecode := exec_decodeInstr sch (c0 :: c1 :: rest) s
  exact ⟨_, (exec_regDispatchBinary_of_header rest s h0 h1 h).trans hdecode, _, hdecode, .refl _⟩

end

/-! ## REG.DISPATCH_URI -/

theorem exec_regDispatchUri_of_id {u : UriValue} (h : u.kind = .id) (s : State) :
    exec (.regDispatchUri u) s = .next (s.raise ⟨.uriKind, 0, 1⟩) :=
  congrArg Host.Outcome.next (if_pos (by rw [h]; decide))

/-- There are two kinds of URI (R47). -/
theorem uriKind_eq_tag_of_ne_id {k : UriKind} (h : k ≠ .id) : k = .tag := by
  cases k
  · exact absurd rfl h
  · rfl

section

variable {u : UriValue} (hkind : u.kind = .tag) (s : State)
include hkind

theorem exec_regDispatchUri_of_unknown (h : tokenLookup u.schemeToken = none) :
    exec (.regDispatchUri u) s = .next (s.raise ⟨.unknownScheme, 0, 0⟩) := by
  simp only [exec, execRegDispatchUri, if_neg (not_not.mpr hkind), h]

/-- A token of the table selects the scheme, whose FROM_URI gets the same value (R244). -/
theorem exec_regDispatchUri_of_token {sch : Scheme} (h : tokenLookup u.schemeToken = some sch) :
    exec (.regDispatchUri u) s = exec (fromUriInstr sch u) s := by
  rw [exec_fromUriInstr]
  simp only [exec, execRegDispatchUri, if_neg (not_not.mpr hkind), h]

end

/-! ## The obligations -/

/-- Settles O40: past the checks of the two characters, the byte they spell falls in a row of the header table or in
none. -/
theorem dispatchBinaryFollowsTheHeader : Obligations.DispatchBinaryFollowsTheHeader := by
  refine ⟨fun c hop => ?_, fun text s hshort => ?_, fun c0 c1 rest s => ?_⟩
  · simp only [decode, hop]
    rfl
  · exact ⟨_, exec_regDispatchBinary_of_short hshort s, .refl _⟩
  · split_ifs with h0 h1 h30 h31 h36
    · exact ⟨_, exec_regDispatchBinary_of_nonHex_first rest s h0, .refl _⟩
    · exact ⟨_, exec_regDispatchBinary_of_nonHex_second rest s h0 h1, .refl _⟩
    · exact exec_regDispatchBinary_agrees rest s h0 h1 (by rw [headerLookup_eq, if_pos h30])
    · exact exec_regDispatchBinary_agrees rest s h0 h1 (by rw [headerLookup_eq, if_neg h30, if_pos h31])
    · exact exec_regDispatchBinary_agrees rest s h0 h1 (by rw [headerLookup_eq, if_neg h30, if_neg h31, if_pos h36])
    · have hnone : headerLookup (16 * hexval c0 + hexval c1) = none := by
        rw [headerLookup_eq, if_neg h30, if_neg h31, if_neg h36]
      exact ⟨_, exec_regDispatchBinary_of_unknown rest s h0 h1 hnone, .refl _⟩

/-- Settles O41: the token of a tag URI is in a row of the token table or in none. -/
theorem dispatchUriFollowsTheToken : Obligations.DispatchUriFollowsTheToken := by
  refine ⟨fun c hop => ?_, fun u s => ?_⟩
  · simp only [decode, hop]
    rfl
  · split_ifs with hid h96 h198 hss
    · exact exec_regDispatchUri_of_id hid s
    all_goals have htag : u.kind = .tag := uriKind_eq_tag_of_ne_id hid
    · exact exec_regDispatchUri_of_token htag s (by rw [tokenLookup_eq, if_pos h96])
    · exact exec_regDispatchUri_of_token htag s (by rw [tokenLookup_eq, if_neg h96, if_pos h198])
    · exact exec_regDispatchUri_of_token htag s (by rw [tokenLookup_eq, if_neg h96, if_neg h198, if_pos hss])
    · exact exec_regDispatchUri_of_unknown htag s (by rw [tokenLookup_eq, if_neg h96, if_neg h198, if_neg hss])

end Sys2Proof.Machine

/-! # Proofs of the family 44_tagcodec: the tag commands

A tag command ends by what its procedure answers, whatever the state: `tagDecode` for DECODE (R261), `tagEncode` for
ENCODE (R262), `fromUri` and `toUri` for the URIs (R263, R264). Each obligation is read off the answer. -/

namespace Sys2Proof.Machine

/-! ## States that agree but for the scratch buffer -/

theorem agreesButScratch_conclude (s : State) (r : Except Exc Res) :
    AgreesButScratch (s.useScratch.conclude r) (s.conclude r) := by
  cases r <;> rfl

theorem agreesButScratch_finishWrite (s : State) (r : Except Exc (List Bool)) :
    AgreesButScratch (s.useScratch.finishWrite r) (s.finishWrite r) := by
  cases r <;> rfl

section

variable {t u : State} (h : AgreesButScratch t u)
include h

theorem AgreesButScratch.bb_eq : t.bb = u.bb := by
  rw [← show { t with sb := u.sb, free := u.free } = u from h]

theorem AgreesButScratch.status_eq : t.status = u.status := by
  rw [← show { t with sb := u.sb, free := u.free } = u from h]

theorem AgreesButScratch.res_eq : t.res = u.res := by
  rw [← show { t with sb := u.sb, free := u.free } = u from h]

end

/-! ## DECODE by the answer of `TagDecode` -/

/-- What `TagDecode` answers for a text (R261). -/
def tagDecode (sch : Scheme) (text : Str) : Except Exc TagValue := (tagLoad sch text).bind (tagRead sch)

theorem exec_decodeInstr_agrees (sch : Scheme) (text : Str) (s : State) :
    ∃ u, exec (decodeInstr sch text) s = .next u ∧
      AgreesButScratch u (s.conclude ((tagDecode sch text).map Res.tag)) := by
  refine ⟨_, exec_decodeInstr sch text s, ?_⟩
  unfold runTagDecode tagDecode
  cases tagLoad sch text with
  | error e => exact .refl _
  | ok sb => exact agreesButScratch_conclude s _

theorem exec_decodeInstr_of_value {sch : Scheme} {text : Str} {t : TagValue} (h : tagDecode sch text = .ok t)
    (s : State) : ∃ u, exec (decodeInstr sch text) s = .next u ∧ AgreesButScratch u (s.succeed (.tag t)) := by
  have hagrees := exec_decodeInstr_agrees sch text s
  rw [h] at hagrees
  exact hagrees

theorem exec_decodeInstr_of_error {sch : Scheme} {text : Str} {e : Exc} (h : tagDecode sch text = .error e)
    (s : State) : ∃ u, exec (decodeInstr sch text) s = .next u ∧ AgreesButScratch u (s.raise e) := by
  have hagrees := exec_decodeInstr_agrees sch text s
  rw [h] at hagrees
  exact hagrees

/-- A TAG result of DECODE is what `TagDecode` answered. -/
theorem tagDecode_of_res_eq_tag {sch : Scheme} {text : Str} {s u : State} {t : TagValue}
    (hexec : exec (decodeInstr sch text) s = .next u) (hres : u.res = .tag t) : tagDecode sch text = .ok t := by
  obtain ⟨v, hv, hagrees⟩ := exec_decodeInstr_agrees sch text s
  obtain rfl : u = v := Host.Outcome.next.inj (hexec.symm.trans hv)
  rw [hagrees.res_eq] at hres
  cases h : tagDecode sch text with
  | error e => simp [h, Except.map] at hres
  | ok v => simpa [h, Except.map] using hres

/-- A text that loads is read (R261). -/
theorem tagDecode_of_hex {sch : Scheme} {text : Str} (hlen : text.length = (schemeDesc sch).hexLength)
    (hhex : ∀ c ∈ text, isHex c = true) : tagDecode sch text = tagRead sch ⟨hexBits text, true⟩ := by
  rw [tagDecode, (tagLoad_eq_ok_iff ..).mpr ⟨hlen, hhex, rfl⟩]
  rfl

theorem tagDecode_eq_ok_iff (sch : Scheme) (text : Str) (t : TagValue) :
    tagDecode sch text = .ok t ↔ text.length = (schemeDesc sch).hexLength ∧ (∀ c ∈ text, isHex c = true) ∧
      tagRead sch ⟨hexBits text, true⟩ = .ok t := by
  constructor
  · intro h
    cases hload : tagLoad sch text with
    | error e => simp [tagDecode, hload, Except.bind] at h
    | ok sb =>
      obtain ⟨hlen, hhex, -⟩ := (tagLoad_eq_ok_iff ..).mp hload
      exact ⟨hlen, hhex, (tagDecode_of_hex hlen hhex).symm.trans h⟩
  · rintro ⟨hlen, hhex, hread⟩
    rw [tagDecode_of_hex hlen hhex, hread]

/-! ## ENCODE by the answer of `TagEncode` -/

/-- What `TagEncode` answers for a value: the bits of its encoding (R262). -/
def tagEncode (sch : Scheme) (t : TagValue) : Except Exc (List Bool) := (tagCheck sch t).bind (tagWrite sch t)

theorem exec_encodeInstr (t : TagValue) (s : State) :
    exec (encodeInstr t) s = .next (runTagEncode t.scheme t s) := by
  cases t <;> rfl

theorem exec_encodeInstr_agrees (t : TagValue) (s : State) :
    ∃ u, exec (encodeInstr t) s = .next u ∧ AgreesButScratch u (s.finishWrite (tagEncode t.scheme t)) := by
  refine ⟨_, exec_encodeInstr t s, ?_⟩
  unfold runTagEncode tagEncode
  cases tagCheck t.scheme t with
  | error e => exact .refl _
  | ok x =>
    have hfinish := agreesButScratch_finishWrite s (tagWrite t.scheme t x)
    simp only [Except.bind]
    cases hwrite : tagWrite t.scheme t x <;> rw [hwrite] at hfinish <;> exact hfinish

theorem exec_encodeInstr_of_bits {t : TagValue} {bits : List Bool} (h : tagEncode t.scheme t = .ok bits) (s : State) :
    ∃ u, exec (encodeInstr t) s = .next u ∧ AgreesButScratch u (committed bits s) := by
  have hagrees := exec_encodeInstr_agrees t s
  rw [h] at hagrees
  exact hagrees

theorem exec_encodeInstr_of_error {t : TagValue} {e : Exc} (h : tagEncode t.scheme t = .error e) (s : State) :
    ∃ u, exec (encodeInstr t) s = .next u ∧ AgreesButScratch u (s.raise e) := by
  have hagrees := exec_encodeInstr_agrees t s
  rw [h] at hagrees
  exact hagrees

theorem tagEncode_of_check_error {sch : Scheme} {t : TagValue} {e : Exc} (h : tagCheck sch t = .error e) :
    tagEncode sch t = .error e := by
  rw [tagEncode, h]
  rfl

theorem tagEncode_of_check {sch : Scheme} {t : TagValue} {x : TagFields} (h : tagCheck sch t = .ok x) :
    tagEncode sch t = tagWrite sch t x := by
  rw [tagEncode, h]
  rfl

/-- BB.TO_HEX after an ENCODE that has succeeded gives the hex text of the encoding (R146). -/
theorem exec_bbToHex_of_committed {bits : List Bool} {s u : State} (h : AgreesButScratch u (committed bits s)) :
    exec .bbToHex u = .next (u.succeed (.str (hexText bits))) := by
  have hbb : u.bb = ⟨bits, true⟩ := h.bb_eq
  rw [exec_bbToHex_of_valid (by rw [hbb]), hbb]

/-- A scheme's text is the hex text of its bits (R40, R147). -/
theorem hexLength_eq (sch : Scheme) :
    (schemeDesc sch).hexLength = 4 * (((schemeDesc sch).totalBits.toNat + 15) / 16) := by
  cases sch <;> rfl

/-! ## Well-formed values: ENCODE, TO_HEX, DECODE (R300) -/

section

variable {t : TagValue} {x : TagFields} {bits : List Bool} (hpass : TagPasses t x) (hwritten : TagWritten t x bits)
include hpass hwritten

theorem tagEncode_of_written : tagEncode t.scheme t = .ok bits := by
  rw [tagEncode_of_check hpass.check, hwritten.w]

theorem tagDecode_hexText_of_written : tagDecode t.scheme (hexText bits) = .ok t := by
  have hlen : (hexText bits).length = (schemeDesc t.scheme).hexLength := by
    rw [hexText_length, hwritten.len, hexLength_eq]
  rw [tagDecode_of_hex hlen (hexText_isHex bits), hexBits_hexText, tagRead_written hpass hwritten]

end

/-- A well-formed value has an encoding, and the encoding's text decodes to the value. -/
theorem exists_encoding_of_tagWF {t : TagValue} (h : tagWF t = true) :
    ∃ bits, tagEncode t.scheme t = .ok bits ∧ tagDecode t.scheme (hexText bits) = .ok t := by
  obtain ⟨x, hpass⟩ := tagWF_passes h
  obtain ⟨bits, hwritten⟩ := tagWrite_writes hpass
  exact ⟨bits, tagEncode_of_written hpass hwritten, tagDecode_hexText_of_written hpass hwritten⟩

theorem tagCheck_sgtin96_partition (filter p q : Nat) (cp f2 serial : Str) :
    tagCheck .sgtin96 (.sgtin96 filter p cp f2 serial) = tagCheck .sgtin96 (.sgtin96 filter q cp f2 serial) := by
  simp only [tagCheck]
  rfl

theorem tagWrite_sgtin96_partition (filter p q : Nat) (cp f2 serial : Str) :
    tagWrite .sgtin96 (.sgtin96 filter p cp f2 serial) = tagWrite .sgtin96 (.sgtin96 filter q cp f2 serial) := by
  funext x
  unfold tagWrite
  simp only [tagFilter]

/-- ENCODE does not read the stored partition (R262, D25). -/
theorem tagEncode_sgtin96_partition (filter p q : Nat) (cp f2 serial : Str) :
    tagEncode .sgtin96 (.sgtin96 filter p cp f2 serial) = tagEncode .sgtin96 (.sgtin96 filter q cp f2 serial) := by
  rw [tagEncode, tagCheck_sgtin96_partition filter p q, tagWrite_sgtin96_partition filter p q, tagEncode]

/-- The value of S1 (`95_test_vectors.md`), with the partition `p` stored in it; its own is 3. -/
def tagStoring (p : Nat) : TagValue := .sgtin96 1 p (str "311112347") (str "0987") (str "1")

/-- Settles O56: outside WF, a value that stores a partition other than its own comes back with its own. -/
theorem binaryRoundTrip : Obligations.BinaryRoundTrip := by
  constructor
  · intro t s hwf
    obtain ⟨bits, hencode, hdecode⟩ := exists_encoding_of_tagWF hwf
    obtain ⟨s1, hexec, hagrees⟩ := exec_encodeInstr_of_bits hencode s
    have hlen := ((tagDecode_eq_ok_iff ..).mp hdecode).1
    refine ⟨s1, hexText bits, hexec, ?_, exec_bbToHex_of_committed hagrees, hlen, fun s2 =>
      exec_decodeInstr_of_value hdecode s2⟩
    rw [hagrees.status_eq]
    exact statusClass_statusWord ..
  · obtain ⟨bits, hencode, hdecode⟩ := exists_encoding_of_tagWF (t := tagStoring 3) (by decide)
    have hstored : tagEncode .sgtin96 (tagStoring 0) = .ok bits :=
      (tagEncode_sgtin96_partition 1 0 3 _ _ _).trans hencode
    obtain ⟨s1, hexec1, hagrees1⟩ := exec_encodeInstr_of_bits (t := tagStoring 0) hstored State.reset
    obtain ⟨s3, hexec3, hagrees3⟩ := exec_decodeInstr_of_value hdecode (s1.succeed (.str (hexText bits)))
    refine ⟨tagStoring 0, State.reset, s1, _, s3, hexText bits, by decide, hexec1,
      exec_bbToHex_of_committed hagrees1, rfl, hexec3, ?_, ?_⟩
    · rw [hagrees3.status_eq]
      exact statusClass_statusWord ..
    · rw [hagrees3.res_eq]
      simp [tagStoring]

/-! ## A text that decodes to a well-formed value: ENCODE and TO_HEX (R302) -/

/-- A buffer and `k` zeros are a longer buffer exactly when the two agree and the rest of the longer is zero. -/
theorem append_zeros_eq_iff {a b : List Bool} {k : Nat} (hlen : b.length = a.length + k) :
    a ++ List.replicate k false = b ↔
      (∀ i, i < a.length → a[i]? = b[i]?) ∧ ∀ i, a.length ≤ i → i < b.length → b[i]? = some false := by
  constructor
  · rintro rfl
    refine ⟨fun i hi => (List.getElem?_append_left hi).symm, fun i hi hend => ?_⟩
    rw [List.getElem?_append_right hi, List.getElem?_replicate_of_lt (by omega)]
  · rintro ⟨hagree, hzeros⟩
    refine List.ext_getElem? fun i => ?_
    rcases lt_or_ge i a.length with hi | hi
    · rw [List.getElem?_append_left hi, hagree i hi]
    rcases lt_or_ge i b.length with hend | hend
    · rw [List.getElem?_append_right hi, List.getElem?_replicate_of_lt (by omega), hzeros i hi hend]
    · rw [List.getElem?_eq_none hend, List.getElem?_eq_none (by simp; omega)]

@[simp] theorem fieldSeptets_length (bits : List Bool) (f k : Nat) : (fieldSeptets bits f k).length = k := by
  simp [fieldSeptets]

/-- Two buffers hold the same septets exactly when they hold the same bits there (R210). -/
theorem fieldSeptets_eq_iff {a b : List Bool} {f k : Nat} (ha : f + 7 * k ≤ a.length) (hb : f + 7 * k ≤ b.length) :
    fieldSeptets a f k = fieldSeptets b f k ↔ ∀ i, f ≤ i → i < f + 7 * k → a[i]? = b[i]? := by
  rw [← septets_eq_fieldSeptets ha, ← septets_eq_fieldSeptets hb]
  constructor
  · intro h i hi hend
    have hseptet : readBits a (f + 7 * ((i - f) / 7)) 7 = readBits b (f + 7 * ((i - f) / 7)) 7 := by
      have hj : (i - f) / 7 < k := by omega
      simpa only [septets_getElem? hj, Option.some.injEq] using congrArg (·[(i - f) / 7]?) h
    exact getElem?_eq_of_readBits_eq (by omega) (by omega) hseptet i (by omega) (by omega)
  · intro h
    refine List.ext_getElem? fun j => ?_
    rcases lt_or_ge j k with hj | hj
    · rw [septets_getElem? hj, septets_getElem? hj, readBits_congr fun i hi hend => h i (by omega) (by omega)]
    · rw [List.getElem?_eq_none (by simpa using hj), List.getElem?_eq_none (by simpa using hj)]

/-- The characters of a serial in WF (R49). -/
def PlainChars (out : Str) : Prop := ∀ c ∈ out, 1 ≤ c ∧ c ≤ 127 ∧ c ≠ 0x25

/-- Septets that spell plain characters are these and zeros exactly when no septet is `%` and only zeros follow a zero
(R212, R302). -/
theorem plain_append_zeros_eq_iff {qs : List Nat} {out : Str} (hspells : Spells qs out) (hplain : PlainChars out) :
    out ++ List.replicate (qs.length - out.length) 0 = qs ↔ (∀ q ∈ qs, q ≠ 0x25) ∧
      ∀ i j, i < j → j < qs.length → qs[i]? = some 0 → qs[j]? = some 0 := by
  refine ⟨fun h => ⟨fun q hq => ?_, fun i j hij hj hi => ?_⟩, fun ⟨hescape, hzeros⟩ =>
    (spells_no_escape hspells hescape hzeros).symm⟩
  · rw [← h, List.mem_append, List.mem_replicate] at hq
    rcases hq with hq | ⟨-, rfl⟩
    · exact (hplain q hq).2.2
    · decide
  · rw [← h] at hi ⊢
    rcases lt_or_ge i out.length with hout | hout
    · rw [List.getElem?_append_left hout] at hi
      have := hplain 0 (List.mem_of_getElem? hi)
      omega
    · rw [List.getElem?_append_right (by omega), List.getElem?_replicate_of_lt (by omega)]

theorem dec_injective {m n : Nat} (h : dec m = dec n) : m = n := by
  simpa only [parseDec_dec, Option.some.injEq] using congrArg parseDec h

theorem pad_dec_injective {m n d : Nat} (h : pad (dec m) d = pad (dec n) d) : m = n := by
  simpa only [parseDec_pad_dec, Option.some.injEq] using congrArg parseDec h

/-- The serial of a well-formed SGTIN-198 value is plain and fits its field (R49). -/
theorem plainChars_of_serialWF {filter p : Nat} {cp f2 serial : Str}
    (h : serialWF (.sgtin198 filter p cp f2 serial) = true) : serial.length ≤ 20 ∧ PlainChars serial := by
  simp only [serialWF, Bool.and_eq_true, decide_eq_true_eq, List.all_eq_true, bne_iff_ne] at h
  obtain ⟨hlen, hchars⟩ := h
  refine ⟨hlen, fun c hc => ?_⟩
  obtain ⟨⟨hpos, hseven⟩, hescape⟩ := hchars c hc
  exact ⟨hpos, hseven, hescape⟩

/-- What R302 asks of the bits of a text for ENCODE to give the text back: those `TagDecode` does not read are zero,
and the septets of an SGTIN-198 serial hold no escape and nothing after a zero. -/
def Canonical (sch : Scheme) (B : List Bool) : Prop :=
  match sch with
  | .sgtin96 => True
  | .sgtin198 => (∀ a, 198 ≤ a → a < 208 → B[a]? = some false) ∧ (∀ q ∈ fieldSeptets B 58 20, q ≠ 0x25) ∧
      (∀ i j, i < j → j < 20 → (fieldSeptets B 58 20)[i]? = some 0 → (fieldSeptets B 58 20)[j]? = some 0)
  | .sscc96 => ∀ a, 72 ≤ a → a < 96 → B[a]? = some false

section

variable {t : TagValue} {x : TagFields} {bits B : List Bool} {row : PartRow} (hpass : TagPasses t x)
  (hwritten : TagWritten t x bits) (hreads : TagReads t.scheme B t row)
  (hB : B.length = 4 * (schemeDesc t.scheme).hexLength)
include hpass hwritten hreads hB

/-- What ENCODE writes for a value agrees with the bits the value was read from, up to the end of field 2. -/
theorem written_agrees_head {a : Nat} (ha : a < 14 + x.row.bits1 + x.row.bits2) : bits[a]? = B[a]? := by
  have hfits := tagCheck_fits hpass.check
  have hend := totalBits_ge _ hfits.row
  have hlen := hwritten.len
  have hscheme := hexLength_eq t.scheme
  obtain rfl : x.row = row := by
    have hrow := hfits.row
    rw [hpass.part, hreads.row] at hrow
    exact (Option.some.inj hrow).symm
  have hn1 : x.n1 = readBits B 14 x.row.bits1 := pad_dec_injective (hpass.p1.trans hreads.cp)
  have hn2 : x.n2 = readBits B (14 + x.row.bits1) x.row.bits2 := pad_dec_injective (hpass.p2.trans hreads.f2)
  have hagree {f n : Nat} (hfield : f + n ≤ 14 + x.row.bits1 + x.row.bits2)
      (hread : readBits bits f n = readBits B f n) (hf : f ≤ a) (hn : a < f + n) : bits[a]? = B[a]? :=
    getElem?_eq_of_readBits_eq (by omega) (by omega) hread a hf hn
  rcases lt_or_ge a 8 with h8 | h8
  · exact hagree (by omega) (hwritten.hd.trans hreads.header.symm) (Nat.zero_le a) (by omega)
  rcases lt_or_ge a 11 with h11 | h11
  · exact hagree (by omega) (hwritten.fl.trans hreads.fl) h8 h11
  rcases lt_or_ge a 14 with h14 | h14
  · exact hagree (by omega) (hwritten.pt.trans hreads.pt) h11 h14
  rcases lt_or_ge a (14 + x.row.bits1) with hfield1 | hfield1
  · exact hagree (by omega) (hwritten.f1.trans hn1) h14 hfield1
  · exact hagree le_rfl (hwritten.f2.trans hn2) hfield1 ha

/-- The bits written, with the padding of their hex text, are the bits read exactly when these are canonical. -/
theorem written_eq_iff_canonical :
    bits ++ List.replicate (hexPadding bits.length) false = B ↔ Canonical t.scheme B := by
  have hhead {a : Nat} := written_agrees_head (a := a) hpass hwritten hreads hB
  have hend := schemeTable_row (tagCheck_fits hpass.check).row
  have hlen := hwritten.len
  have hserial := hwritten.sr
  have hserialB := hreads.sr
  cases t with
  | sgtin96 filter p cp f2 serial =>
    replace hB : B.length = 96 := hB
    replace hlen : bits.length = 96 := hlen
    replace hend : 14 + x.row.bits1 + x.row.bits2 = 58 := hend
    have hread : readBits bits 58 38 = readBits B 58 38 := dec_injective (hserial.trans hserialB)
    rw [hlen, append_zeros_eq_iff (by rw [hB, hlen]; rfl), hlen, hB]
    refine iff_of_true ⟨fun a ha => ?_, fun a _ _ => by omega⟩ trivial
    rcases lt_or_ge a 58 with h58 | h58
    · exact hhead (by omega)
    · exact getElem?_eq_of_readBits_eq (by omega) (by omega) hread a h58 ha
  | sgtin198 filter p cp f2 serial =>
    replace hB : B.length = 208 := hB
    replace hlen : bits.length = 198 := hlen
    replace hend : 14 + x.row.bits1 + x.row.bits2 = 58 := hend
    obtain ⟨-, hplain⟩ := plainChars_of_serialWF hpass.ser
    have hseptets := plain_append_zeros_eq_iff hserialB hplain
    rw [fieldSeptets_length, ← show fieldSeptets bits 58 20 = _ from hserial,
      fieldSeptets_eq_iff (by omega) (by omega)] at hseptets
    rw [hlen, append_zeros_eq_iff (by rw [hB, hlen]; rfl), hlen, hB, TagValue.scheme, Canonical, ← hseptets, and_comm]
    refine and_congr_right fun _ => ⟨fun h a _ hend => h a hend, fun h a ha => ?_⟩
    rcases lt_or_ge a 58 with h58 | h58
    · exact hhead (by omega)
    · exact h a h58 ha
  | sscc96 filter p cp f2 =>
    replace hB : B.length = 96 := hB
    replace hlen : bits.length = 96 := hlen
    replace hend : 14 + x.row.bits1 + x.row.bits2 = 72 := hend
    rw [hlen, append_zeros_eq_iff (by rw [hB, hlen]; rfl), hlen, hB, TagValue.scheme, Canonical]
    refine ⟨fun ⟨h, _⟩ a ha h96 => (h a h96).symm.trans (hserial a ha h96),
      fun h => ⟨fun a ha => ?_, fun a _ _ => by omega⟩⟩
    rcases lt_or_ge a 72 with h72 | h72
    · exact hhead (by omega)
    · exact (hserial a h72 ha).trans (h a h72 ha).symm

end

/-- Settles O58. -/
theorem decodeThenEncode : Obligations.DecodeThenEncode := by
  intro sch h t s s1 hexec hres hwf
  obtain ⟨hlen, hhex, hread⟩ := (tagDecode_eq_ok_iff ..).mp (tagDecode_of_res_eq_tag hexec hres)
  have hB : (hexBits h).length = 4 * (schemeDesc sch).hexLength := by rw [hexBits_length, hlen]
  obtain ⟨row, hreads⟩ := tagRead_reads hB hread
  obtain rfl : t.scheme = sch := hreads.scheme
  obtain ⟨x, hpass⟩ := tagWF_passes hwf
  obtain ⟨bits, hwritten⟩ := tagWrite_writes hpass
  obtain ⟨s2, hexec2, hagrees⟩ := exec_encodeInstr_of_bits (tagEncode_of_written hpass hwritten) s1
  refine ⟨s2, hexText bits, hexec2, exec_bbToHex_of_committed hagrees, ?_⟩
  rw [hexText_eq_iff hhex]
  exact written_eq_iff_canonical hpass hwritten hreads hB

/-! ## DECODE: the checks of the text (R261) -/

theorem tagDecode_of_length {sch : Scheme} {text : Str} (h : text.length ≠ (schemeDesc sch).hexLength) :
    tagDecode sch text = .error ⟨.length, text.length, (schemeDesc sch).hexLength⟩ := by
  rw [tagDecode, tagLoad, if_pos h]
  rfl

theorem tagDecode_of_nonHex {sch : Scheme} {good bad : Str} {c : Nat}
    (hlen : (good ++ c :: bad).length = (schemeDesc sch).hexLength) (hgood : ∀ d ∈ good, isHex d = true)
    (hc : isHex c = false) : tagDecode sch (good ++ c :: bad) = .error ⟨.hexChar, good.length, c⟩ := by
  rw [tagDecode, tagLoad, if_neg (not_not.mpr hlen), firstNonHex_append_cons hgood hc, Nat.zero_add]
  rfl

/-! ## DECODE: the fields (R101 to R103, R261) -/

/-- The last step of `TagDecode`: the value, with the serial of its scheme (R270, R280, R290). -/
def decodedTag (sch : Scheme) (B : List Bool) (filter p : Nat) (cp f2 : Str) : Except Exc TagValue :=
  match sch with
  | .sgtin96 => .ok (.sgtin96 filter p cp f2 (dec (fieldValue B 58 38)))
  | .sgtin198 => (decodeSeptets 0 (fieldSeptets B 58 20)).map (.sgtin198 filter p cp f2)
  | .sscc96 => .ok (.sscc96 filter p cp f2)

theorem ninetySix_le_totalBits (sch : Scheme) : 96 ≤ (schemeDesc sch).totalBits.toNat := by
  cases sch <;> decide

section

variable {sch : Scheme} {B : List Bool} (hlen : (schemeDesc sch).totalBits.toNat ≤ B.length)
include hlen

theorem tagRead_of_header_ne (hhd : fieldValue B 0 8 ≠ (schemeDesc sch).binaryHeader.toNat) :
    tagRead sch ⟨B, true⟩ = .error ⟨.header, fieldValue B 0 8, (schemeDesc sch).binaryHeader.toNat⟩ := by
  have h96 := ninetySix_le_totalBits sch
  have hread : readBits B 0 8 = fieldValue B 0 8 := readBits_eq_fieldValue (by omega)
  rw [tagRead, hread, if_pos hhd]

variable (hhd : fieldValue B 0 8 = (schemeDesc sch).binaryHeader.toNat)
include hhd

theorem tagRead_of_partition_seven (hseven : fieldValue B 11 3 = 7) :
    tagRead sch ⟨B, true⟩ = .error ⟨.partition, 7, 0⟩ := by
  have h96 := ninetySix_le_totalBits sch
  have hread : readBits B 0 8 = fieldValue B 0 8 := readBits_eq_fieldValue (by omega)
  have hselector : readBits B 11 3 = 7 := (readBits_eq_fieldValue (by omega)).trans hseven
  have haccess : checkAccess ⟨B, true⟩ (11 : Nat) 3 1 64 = none := by
    rw [checkAccess_selector rfl, if_neg (by simp only [BitBuffer.len]; omega)]
  have hpart : partDecode ⟨B, true⟩ 11 (schemeTable sch) = .error ⟨.partition, 7, 0⟩ :=
    hselector ▸ partDecode_of_no_row haccess ((table_eq_none_iff (schemeTable_cases sch) _).mpr hselector.ge)
  rw [tagRead, hread, if_neg (not_not.mpr hhd), hpart]

/-- A selector with a row: the partition's fields, then the serial. -/
theorem tagRead_of_row {row : PartRow} (hrow : (schemeTable sch)[fieldValue B 11 3]? = some row) :
    tagRead sch ⟨B, true⟩ = decodedTag sch B (fieldValue B 8 3) (fieldValue B 11 3)
      (pad (dec (fieldValue B 14 row.bits1)) row.digits1)
      (pad (dec (fieldValue B (14 + row.bits1) row.bits2)) row.digits2) := by
  have hend := totalBits_ge sch hrow
  have hread {f n : Nat} (h : f + n ≤ (schemeDesc sch).totalBits.toNat) : readBits B f n = fieldValue B f n :=
    readBits_eq_fieldValue (h.trans hlen)
  have hpart := partDecode_ok (b := ⟨B, true⟩) (f := 11) (schemeTable_cases sch) rfl
    ((congrArg ((schemeTable sch)[·]?) (hread (by omega))).trans hrow) (by simp only [BitBuffer.len]; omega)
  simp only [Nat.cast_ofNat, hread (f := 11) (n := 3) (by omega), hread (f := 11 + 3) (n := row.bits1) (by omega),
    hread (f := 11 + 3 + row.bits1) (n := row.bits2) (by omega)] at hpart
  rw [tagRead, hread (by omega), hread (by omega), if_neg (not_not.mpr hhd), hpart]
  cases sch with
  | sgtin96 => simp only [decodedTag, hread (f := 58) (n := 38) (by decide)]
  | sgtin198 =>
    have hserial : s7Decode ⟨B, true⟩ 58 140 = decodeSeptets 0 (fieldSeptets B 58 20) :=
      s7Decode_eq (f := 58) (k := 20) rfl hlen
    simp only [decodedTag, hserial]
    cases decodeSeptets 0 (fieldSeptets B 58 20) <;> rfl
  | sscc96 => rfl

end

/-! ## DECODE and REG.DISPATCH_BINARY of a text with the scheme's header -/

theorem readBits_hexBits_header {c0 c1 : Nat} {rest : Str} (h0 : isHex c0 = true) (h1 : isHex c1 = true) :
    readBits (hexBits (c0 :: c1 :: rest)) 0 8 = 16 * hexval c0 + hexval c1 := by
  have hbyte : ((hexBits (c0 :: c1 :: rest)).drop 0).take 8 = natToBits 4 (hexval c0) ++ natToBits 4 (hexval c1) := by
    rw [hexBits, hexBits, List.drop_zero, ← List.append_assoc, List.take_append_of_le_length (by simp),
      List.take_of_length_le (by simp)]
  rw [readBits, hbyte, bitsToNat_append, bitsToNat_natToBits_of_lt (hexval_lt h0),
    bitsToNat_natToBits_of_lt (hexval_lt h1), natToBits_length, Nat.mul_comm]
  rfl

theorem headerLookup_binaryHeader (sch : Scheme) : headerLookup (schemeDesc sch).binaryHeader.toNat = some sch := by
  cases sch <;> rfl

/-- The bits of a text of the scheme's length hold its encoding. -/
theorem totalBits_le_hexBits_length {sch : Scheme} {text : Str} (h : text.length = (schemeDesc sch).hexLength) :
    (schemeDesc sch).totalBits.toNat ≤ (hexBits text).length := by
  rw [hexBits_length, h, hexLength_eq]
  omega

section

variable {sch : Scheme} {text : Str} (hlen : text.length = (schemeDesc sch).hexLength)
  (hhex : ∀ c ∈ text, isHex c = true) (hhd : fieldValue (hexBits text) 0 8 = (schemeDesc sch).binaryHeader.toNat)
include hlen hhex hhd

/-- REG.DISPATCH_BINARY of a text with the scheme's header is the scheme's DECODE of it (R242). -/
theorem exec_regDispatchBinary_eq_decode (s : State) :
    exec (.regDispatchBinary text) s = exec (decodeInstr sch text) s := by
  have hlong : 24 ≤ text.length := by
    have h96 := ninetySix_le_totalBits sch
    rw [hlen, hexLength_eq]
    omega
  match text, hlen, hhex, hhd, hlong with
  | c0 :: c1 :: rest, _, hhex, hhd, _ =>
    have h0 : isHex c0 = true := hhex c0 (by simp)
    have h1 : isHex c1 = true := hhex c1 (by simp)
    refine exec_regDispatchBinary_of_header rest s (by simp [h0]) (by simp [h1]) ?_
    rw [← readBits_hexBits_header (rest := rest) h0 h1, readBits_eq_fieldValue (by simp; omega), hhd,
      headerLookup_binaryHeader]

theorem exec_decode_or_dispatch {i : Instr} (hi : i ∈ [decodeInstr sch text, .regDispatchBinary text]) (s : State) :
    exec i s = exec (decodeInstr sch text) s := by
  simp only [List.mem_cons, List.not_mem_nil, or_false] at hi
  rcases hi with rfl | rfl
  · rfl
  · exact exec_regDispatchBinary_eq_decode hlen hhex hhd s

theorem tagDecode_of_row {row : PartRow}
    (hrow : (schemeTable sch)[fieldValue (hexBits text) 11 3]? = some row) :
    tagDecode sch text = decodedTag sch (hexBits text) (fieldValue (hexBits text) 8 3)
      (fieldValue (hexBits text) 11 3) (pad (dec (fieldValue (hexBits text) 14 row.bits1)) row.digits1)
      (pad (dec (fieldValue (hexBits text) (14 + row.bits1) row.bits2)) row.digits2) := by
  rw [tagDecode_of_hex hlen hhex, tagRead_of_row (totalBits_le_hexBits_length hlen) hhd hrow]

end

/-! ## The obligations on DECODE -/

/-- Settles O42. -/
theorem sgtin96DecodeReadsTheFields : Obligations.Sgtin96DecodeReadsTheFields := by
  intro text row s hlen hhex hhd hrow i hi
  rw [exec_decode_or_dispatch (sch := .sgtin96) hlen hhex hhd hi]
  exact exec_decodeInstr_of_value (tagDecode_of_row (sch := .sgtin96) hlen hhex hhd hrow) s

/-- Settles O43: the septets of the serial spell a string or have a bad escape, as the loop answers. -/
theorem sgtin198DecodeReadsTheFields : Obligations.Sgtin198DecodeReadsTheFields := by
  intro text row s hlen hhex hhd hrow i hi
  rw [exec_decode_or_dispatch (sch := .sgtin198) hlen hhex hhd hi]
  have hdecode := tagDecode_of_row (sch := .sgtin198) hlen hhex hhd hrow
  refine ⟨fun serial hspells => exec_decodeInstr_of_value (hdecode.trans ?_) s,
    fun j why hbad => exec_decodeInstr_of_error (hdecode.trans ?_) s⟩
  · rw [decodedTag, (decodeSeptets_eq_ok_iff ..).mpr hspells]
    rfl
  · rw [decodedTag, decodeSeptets_of_badEscape hbad]
    rfl

/-- Settles O44. -/
theorem sscc96DecodeReadsTheFields : Obligations.Sscc96DecodeReadsTheFields := by
  intro text row s hlen hhex hhd hrow i hi
  rw [exec_decode_or_dispatch (sch := .sscc96) hlen hhex hhd hi]
  exact exec_decodeInstr_of_value (tagDecode_of_row (sch := .sscc96) hlen hhex hhd hrow) s

/-- Settles O45: the numbers of the list are those of the scheme's descriptor. -/
theorem tagDecodeChecksInOrder : Obligations.TagDecodeChecksInOrder := by
  intro text s x hx
  have hdesc : x.2.1 = (schemeDesc x.1).hexLength ∧ x.2.2 = (schemeDesc x.1).binaryHeader.toNat := by
    simp only [List.mem_cons, List.not_mem_nil, or_false] at hx
    rcases hx with rfl | rfl | rfl <;> exact ⟨rfl, rfl⟩
  obtain ⟨hlength, hheader⟩ := hdesc
  rw [hlength, hheader]
  refine ⟨fun hlen => exec_decodeInstr_of_error (tagDecode_of_length hlen) s, ?_, fun hlen hhex hhd => ?_,
    fun hlen hhex hhd hseven => ?_⟩
  · rintro good c bad rfl hlen hgood hc
    exact exec_decodeInstr_of_error (tagDecode_of_nonHex hlen hgood hc) s
  · refine exec_decodeInstr_of_error ((tagDecode_of_hex hlen hhex).trans ?_) s
    exact tagRead_of_header_ne (totalBits_le_hexBits_length hlen) hhd
  · refine exec_decodeInstr_of_error ((tagDecode_of_hex hlen hhex).trans ?_) s
    exact tagRead_of_partition_seven (totalBits_le_hexBits_length hlen) hhd hseven

/-- Settles O46: both schemes have texts of 24 characters. -/
theorem wrongLengthIsRejectedFirst : Obligations.WrongLengthIsRejectedFirst := by
  intro text s i hi
  have hraise {n : Nat} (hlen : text.length = n) (hn : n ≠ 24) :
      ∃ t, exec i s = .next t ∧ AgreesButScratch t (s.raise ⟨.length, n, 24⟩) := by
    subst hlen
    simp only [List.mem_cons, List.not_mem_nil, or_false] at hi
    rcases hi with rfl | rfl
    · exact exec_decodeInstr_of_error (tagDecode_of_length (sch := .sgtin96) hn) s
    · exact exec_decodeInstr_of_error (tagDecode_of_length (sch := .sscc96) hn) s
  exact ⟨fun hlen => hraise hlen (by decide), fun hlen => hraise hlen (by decide)⟩

/-! ## ENCODE: the fields (R101 to R103, R262) -/

theorem fieldValue_congr {a b : List Bool} {f n : Nat} (h : ∀ i, f ≤ i → i < f + n → a[i]? = b[i]?) :
    fieldValue a f n = fieldValue b f n := by
  refine congrArg List.sum (List.map_congr_left fun i hi => ?_)
  rw [List.getD_eq_getElem?_getD, List.getD_eq_getElem?_getD,
    h (f + i) (by omega) (by have := List.mem_range.mp hi; omega)]

/-- The fields of the layout up to the serial, as the checks of `TagEncode` have found them. -/
structure HeadFields (sch : Scheme) (filter : Nat) (x : TagFields) (bits : List Bool) : Prop where
  length : bits.length = (schemeDesc sch).totalBits.toNat
  header : fieldValue bits 0 8 = (schemeDesc sch).binaryHeader.toNat
  filter : fieldValue bits 8 3 = filter
  partition : fieldValue bits 11 3 = x.partition
  field1 : fieldValue bits 14 x.row.bits1 = x.n1
  field2 : fieldValue bits (14 + x.row.bits1) x.row.bits2 = x.n2

/-- A buffer of the scheme's length that agrees with `tagHead` up to the end of field 2 has its fields. -/
theorem headFields_of_agrees {sch : Scheme} {filter : Nat} {x : TagFields} {bits : List Bool}
    (hfits : TagFieldsFit sch x) (hf : filter ≤ 7) (hlen : bits.length = (schemeDesc sch).totalBits.toNat)
    (hagree : ∀ i, i < 14 + x.row.bits1 + x.row.bits2 → bits[i]? = (tagHead sch filter x)[i]?) :
    HeadFields sch filter x bits := by
  have hend := totalBits_ge sch hfits.row
  obtain ⟨hheadLen, hheader, hfilter, hpartition, hfield1, hfield2, -⟩ := tagHead_spec hfits hf
  have hfield {f n v : Nat} (h : readBits (tagHead sch filter x) f n = v)
      (hinside : f + n ≤ 14 + x.row.bits1 + x.row.bits2) : fieldValue bits f n = v := by
    rw [fieldValue_congr fun i _ hi => hagree i (by omega), ← readBits_eq_fieldValue (by omega), h]
  exact ⟨hlen, hfield hheader (by omega), hfield hfilter (by omega), hfield hpartition (by omega),
    hfield hfield1 (by omega), hfield hfield2 le_rfl⟩

/-- The serial of an SGTIN value starts where the fields of the partition end (R101, R102). -/
theorem tagHead_end_sgtin {sch : Scheme} {x : TagFields} (hfits : TagFieldsFit sch x) (hsch : sch ≠ .sscc96) :
    14 + x.row.bits1 + x.row.bits2 = 58 :=
  (schemeTable_row hfits.row).trans (if_neg hsch)

/-! ## ENCODE: the checks in order (R262, R266) -/

theorem tagCheck_of_filter {t : TagValue} (h : 7 < tagFilter t) (sch : Scheme) :
    tagCheck sch t = .error ⟨.filter, 0, 0⟩ := if_pos h

theorem serialCheck_eq_error_of_not {serial : Str}
    (h : ¬∃ n, parseDec serial = some n ∧ n < 2 ^ 38 ∧ serial = dec n) :
    serialCheck serial = .error ⟨.serial, 0, 0⟩ := by
  cases hcheck : serialCheck serial with
  | error e => rw [serialCheck_error hcheck]
  | ok n => exact absurd ⟨n, (serialCheck_eq_ok_iff ..).mp hcheck⟩ h

section

variable {sch : Scheme} {t : TagValue} (hfilter : ¬7 < tagFilter t)
include hfilter

theorem tagCheck_of_prefix (h : len2part (tagCompanyPrefix t).length = none) :
    tagCheck sch t = .error ⟨.prefixLength, (tagCompanyPrefix t).length, 0⟩ := by
  rw [tagCheck, if_neg hfilter, h]

variable {p : Nat} (hprefix : len2part (tagCompanyPrefix t).length = some p)
include hprefix

theorem tagCheck_of_part_error {e : Exc}
    (h : partEncodeCheck (schemeTable sch) p (tagCompanyPrefix t) (tagField2 t) = .error e) :
    tagCheck sch t = .error e := by
  rw [tagCheck, if_neg hfilter, hprefix]
  simp only [h]

theorem tagCheck_of_serial_error {row : PartRow} {n1 n2 : Nat}
    (hpart : partEncodeCheck (schemeTable sch) p (tagCompanyPrefix t) (tagField2 t) = .ok (row, n1, n2))
    {f q : Nat} {cp item serial : Str} (ht : t = .sgtin96 f q cp item serial) {e : Exc}
    (h : serialCheck serial = .error e) : tagCheck sch t = .error e := by
  rw [tagCheck, if_neg hfilter, hprefix]
  subst ht
  simp only [hpart, h]

end

/-! ## The obligations on ENCODE -/

/-- Settles O47. -/
theorem sgtin96EncodeWritesTheFields : Obligations.Sgtin96EncodeWritesTheFields := by
  intro filter stored p n1 n2 n cp item serial row s hf hp hrow hlen1 hlen2 hparse1 hparse2 hparse hn hserial
  have hcheck : tagCheck .sgtin96 (.sgtin96 filter stored cp item serial) = .ok ⟨p, row, n1, n2, n⟩ :=
    (tagCheck_eq_ok_iff ..).mpr ⟨hf, hp, hrow, hlen1, hlen2, hparse1, hparse2,
      (serialCheck_eq_ok_iff ..).mpr ⟨hparse, hn, hserial⟩⟩
  have hfits := tagCheck_fits hcheck
  have hend : 14 + row.bits1 + row.bits2 = 58 := tagHead_end_sgtin hfits (by decide)
  have hinside : 58 + 38 ≤ (tagHead .sgtin96 filter ⟨p, row, n1, n2, n⟩).length := (tagHead_length hfits filter).ge
  have hlen := (writeBits_length n hinside).trans (tagHead_length hfits filter)
  have hhead := headFields_of_agrees hfits hf hlen fun i hi => by
    rw [writeBits_getElem? _ _ hinside, if_neg (by simp only at hi; omega)]
  obtain ⟨u, hexec, hagrees⟩ := exec_encodeInstr_of_bits ((tagEncode_of_check hcheck).trans (tagWrite_eq hfits)) s
  exact ⟨u, _, hexec, hagrees, hhead.length, hhead.header, hhead.filter, hhead.partition, hhead.field1, hhead.field2,
    (readBits_eq_fieldValue hlen.ge).symm.trans (readBits_writeBits_same hinside hn)⟩

/-- Settles O48: the write loop starts from the zeros after the partition's fields. -/
theorem sgtin198EncodeWritesTheFields : Obligations.Sgtin198EncodeWritesTheFields := by
  intro filter stored p n1 n2 cp item serial cs row s hf hp hrow hlen1 hlen2 hparse1 hparse2 hcs
  have hcheck : tagCheck .sgtin198 (.sgtin198 filter stored cp item serial) = .ok ⟨p, row, n1, n2, 0⟩ :=
    (tagCheck_eq_ok_iff ..).mpr ⟨hf, hp, hrow, hlen1, hlen2, hparse1, hparse2, rfl⟩
  have hfits := tagCheck_fits hcheck
  have hencode := (tagEncode_of_check hcheck).trans (tagWrite_eq hfits)
  refine ⟨fun hseven => ?_, fun good c bad hcut hgood hc hlen => ?_⟩
  · have hend : 14 + row.bits1 + row.bits2 = 58 := tagHead_end_sgtin hfits (by decide)
    have hinside : 58 + 7 * 20 ≤ (tagHead .sgtin198 filter ⟨p, row, n1, n2, 0⟩).length :=
      (tagHead_length hfits filter).ge
    obtain ⟨-, -, -, -, -, -, hzeros⟩ := tagHead_spec hfits hf
    obtain ⟨bits, hwrite, hlen, hread, hframe⟩ := writeSeptets_ok hcs hinside hseven
    have hhead := headFields_of_agrees hfits hf (hlen.trans (tagHead_length hfits filter)) fun i hi =>
      hframe i (.inl (hi.trans_eq hend))
    obtain ⟨u, hexec, hagrees⟩ := exec_encodeInstr_of_bits (hencode.trans hwrite) s
    exact ⟨u, bits, hexec, hagrees, hhead.length, hhead.header, hhead.filter, hhead.partition, hhead.field1,
      hhead.field2, fieldSeptets_of_writes hinside hlen hread hframe fun a ha h198 => hzeros a (hend.trans_le ha) h198⟩
  · subst hcut
    exact exec_encodeInstr_of_error (hencode.trans (writeSeptets_overflow hcs hgood hc hlen)) s

/-- Settles O49. -/
theorem sscc96EncodeWritesTheFields : Obligations.Sscc96EncodeWritesTheFields := by
  intro filter stored p n1 n2 cp ext row s hf hp hrow hlen1 hlen2 hparse1 hparse2
  have hcheck : tagCheck .sscc96 (.sscc96 filter stored cp ext) = .ok ⟨p, row, n1, n2, 0⟩ :=
    (tagCheck_eq_ok_iff ..).mpr ⟨hf, hp, hrow, hlen1, hlen2, hparse1, hparse2, rfl⟩
  have hfits := tagCheck_fits hcheck
  have hend : 14 + row.bits1 + row.bits2 = 72 := schemeTable_row hfits.row
  obtain ⟨-, -, -, -, -, -, hzeros⟩ := tagHead_spec hfits hf
  have hhead := headFields_of_agrees hfits hf (tagHead_length hfits filter) fun _ _ => rfl
  obtain ⟨u, hexec, hagrees⟩ := exec_encodeInstr_of_bits ((tagEncode_of_check hcheck).trans (tagWrite_eq hfits)) s
  exact ⟨u, _, hexec, hagrees, hhead.length, hhead.header, hhead.filter, hhead.partition, hhead.field1, hhead.field2,
    fun a ha h96 => hzeros a (hend.trans_le ha) h96⟩

/-- Settles O50: until the length has given a partition two checks can fail, then those of the fields. -/
theorem tagEncodeChecksInOrder : Obligations.TagEncodeChecksInOrder := by
  intro t s
  obtain ⟨u, hexec, hagrees⟩ := exec_encodeInstr_agrees t s
  have hraise (e : Exc) (he : tagCheck t.scheme t = .error e) : AgreesButScratch u (s.raise e) := by
    rw [tagEncode_of_check_error he] at hagrees
    exact hagrees
  refine ⟨u, hexec, ?_⟩
  by_cases hfilter : 7 < tagFilter t
  · rw [if_pos hfilter]
    exact hraise _ (tagCheck_of_filter hfilter _)
  rw [if_neg hfilter]
  by_cases hshort : (tagCompanyPrefix t).length < 6 ∨ 12 < (tagCompanyPrefix t).length
  · rw [if_pos hshort]
    exact hraise _ (tagCheck_of_prefix hfilter ((len2part_eq_none_iff _).mpr hshort))
  rw [if_neg hshort]
  intro row hrow
  have hprefix : len2part (tagCompanyPrefix t).length = some (12 - (tagCompanyPrefix t).length) :=
    (len2part_eq_some_iff ..).mpr ⟨by omega, by omega, rfl⟩
  have hpart (e : Exc) (he : partEncodeCheck (schemeTable t.scheme) (12 - (tagCompanyPrefix t).length)
      (tagCompanyPrefix t) (tagField2 t) = .error e) : AgreesButScratch u (s.raise e) :=
    hraise e (tagCheck_of_part_error hfilter hprefix he)
  split_ifs with hlen1 hlen2 hparse1 hparse2
  · exact hpart _ (by simp [partEncodeCheck, hrow, hlen1])
  · exact hpart _ (by simp [partEncodeCheck, hrow, hlen1, hlen2])
  · exact hpart _ (by simp [partEncodeCheck, hrow, hlen1, hlen2, hparse1])
  all_goals obtain ⟨n1, hn1⟩ := Option.ne_none_iff_exists'.mp hparse1
  · exact hpart _ (by simp [partEncodeCheck, hrow, hlen1, hlen2, hn1, hparse2])
  · obtain ⟨n2, hn2⟩ := Option.ne_none_iff_exists'.mp hparse2
    intro f q cp item serial ht hserial
    have hok := (partEncodeCheck_eq_ok_iff ..).mpr ⟨hrow, not_lt.mp hlen1, not_lt.mp hlen2, hn1, hn2⟩
    exact hraise _ (tagCheck_of_serial_error hfilter hprefix hok ht (serialCheck_eq_error_of_not hserial))

/-! ## TO_URI and TO_ID (R263, R265) -/

theorem exec_toUriInstr (t : TagValue) (s : State) :
    exec (toUriInstr t) s = .next (s.succeed (.uri (toUri t.scheme t))) := by
  cases t <;> rfl

/-! ## FROM_URI: the checks in order (R264) -/

theorem exec_fromUriInstr_of_value {sch : Scheme} {u : UriValue} {t : TagValue} (h : fromUri sch u = .ok t)
    (s : State) : exec (fromUriInstr sch u) s = .next (s.succeed (.tag t)) := by
  rw [exec_fromUriInstr, h]
  rfl

theorem exec_fromUriInstr_of_error {sch : Scheme} {u : UriValue} {e : Exc} (h : fromUri sch u = .error e)
    (s : State) : exec (fromUriInstr sch u) s = .next (s.raise e) := by
  rw [exec_fromUriInstr, h]
  rfl

/-- A filter part is one of the digits 0 to 7 (R264). -/
theorem filterDigit_eq_some_iff (part : Str) (d : Nat) : filterDigit part = some d ↔ d ≤ 7 ∧ part = [48 + d] := by
  match part with
  | [] | _ :: _ :: _ => simp [filterDigit]
  | [c] =>
    simp only [filterDigit, Option.ite_none_right_eq_some, Option.some.injEq, List.cons.injEq, and_true]
    omega

theorem filterDigit_eq_none_iff (part : Str) : filterDigit part = none ↔ ∀ d, d ≤ 7 → part ≠ [48 + d] := by
  simp only [Option.eq_none_iff_forall_ne_some, ne_eq, filterDigit_eq_some_iff, not_and]

section

variable {sch : Scheme} {u : UriValue}

theorem fromUri_of_kind (h : u.kind ≠ .tag) : fromUri sch u = .error ⟨.uriKind, 0, 1⟩ := if_pos h

variable (hkind : u.kind = .tag)
include hkind

theorem fromUri_of_token (h : u.schemeToken ≠ (schemeDesc sch).tagToken) :
    fromUri sch u = .error ⟨.uriScheme, 0, 0⟩ := by
  rw [fromUri, if_neg (not_not.mpr hkind), if_pos h]

variable (htoken : u.schemeToken = (schemeDesc sch).tagToken)
include htoken

theorem fromUri_of_count (h : u.parts.length ≠ uriPartCount sch) :
    fromUri sch u = .error ⟨.uriParts, u.parts.length, uriPartCount sch⟩ := by
  rw [fromUri, if_neg (not_not.mpr hkind), if_neg (not_not.mpr htoken), if_pos h]

theorem fromUri_eq_uriFields (h : u.parts.length = uriPartCount sch) :
    fromUri sch u =
      uriFields sch (u.parts.getD 0 []) (u.parts.getD 1 []) (u.parts.getD 2 []) (u.parts.getD 3 []) := by
  rw [fromUri, if_neg (not_not.mpr hkind), if_neg (not_not.mpr htoken), if_neg (not_not.mpr h)]

end

section

variable {sch : Scheme} {f cp f2 serial : Str}

theorem uriFields_of_filter (h : filterDigit f = none) : uriFields sch f cp f2 serial = .error ⟨.filter, 0, 0⟩ := by
  rw [uriFields, h]

variable {d : Nat} (hfilter : filterDigit f = some d)
include hfilter

theorem uriFields_of_prefix (h : len2part cp.length = none) :
    uriFields sch f cp f2 serial = .error ⟨.prefixLength, cp.length, 0⟩ := by
  simp only [uriFields, hfilter, h]

variable {p : Nat} (hprefix : len2part cp.length = some p)
include hprefix

theorem uriFields_of_prefix_nonDigit (h : cp.all isDigit = false) :
    uriFields sch f cp f2 serial = .error ⟨.notDecimal, 1, 0⟩ := by
  simp only [uriFields, hfilter, hprefix, if_pos h]

variable (hcp : ¬cp.all isDigit = false) {row : PartRow} (hrow : (schemeTable sch)[p]? = some row)
include hcp hrow

theorem uriFields_of_field2_length (h : f2.length ≠ row.digits2) :
    uriFields sch f cp f2 serial = .error ⟨.field2Length, f2.length, row.digits2⟩ := by
  simp only [uriFields, hfilter, hprefix, if_neg hcp, hrow, if_pos h]

variable (hlen : ¬f2.length ≠ row.digits2)
include hlen

theorem uriFields_of_field2_nonDigit (h : f2.all isDigit = false) :
    uriFields sch f cp f2 serial = .error ⟨.notDecimal, 2, 0⟩ := by
  simp only [uriFields, hfilter, hprefix, if_neg hcp, hrow, if_neg hlen, if_pos h]

theorem uriFields_eq_uriTag (h : ¬f2.all isDigit = false) :
    uriFields sch f cp f2 serial = uriTag sch d p cp f2 serial := by
  simp only [uriFields, hfilter, hprefix, if_neg hcp, hrow, if_neg hlen, if_neg h]

end

/-- The serial of an SGTIN-96 value is checked, and kept as it is (R264, R266). -/
theorem uriTag_sgtin96_of_serialCheck {serial : Str} {n : Nat} (h : serialCheck serial = .ok n) (d p : Nat)
    (cp f2 : Str) : uriTag .sgtin96 d p cp f2 serial = .ok (.sgtin96 d p cp f2 serial) := by
  simp only [uriTag, h]

theorem uriTag_sgtin96_of_serial_error {serial : Str} {e : Exc} (h : serialCheck serial = .error e) (d p : Nat)
    (cp f2 : Str) : uriTag .sgtin96 d p cp f2 serial = .error e := by
  simp only [uriTag, h]

/-! ## FROM_URI and REG.DISPATCH_URI of a tag URI with the scheme's token -/

theorem tokenLookup_tagToken (sch : Scheme) : tokenLookup (schemeDesc sch).tagToken = some sch := by
  cases sch <;> rfl

/-- REG.DISPATCH_URI of a tag URI with the scheme's token is the scheme's FROM_URI of it (R244). -/
theorem exec_fromUri_or_dispatch {sch : Scheme} {u : UriValue} (hkind : u.kind = .tag)
    (htoken : u.schemeToken = (schemeDesc sch).tagToken) {i : Instr}
    (hi : i ∈ [fromUriInstr sch u, .regDispatchUri u]) (s : State) : exec i s = exec (fromUriInstr sch u) s := by
  simp only [List.mem_cons, List.not_mem_nil, or_false] at hi
  rcases hi with rfl | rfl
  · rfl
  · exact exec_regDispatchUri_of_token hkind s (by rw [htoken, tokenLookup_tagToken])

/-- Both commands give the value of the parts, where these give one. -/
theorem exec_fromUri_or_dispatch_of_parts {sch : Scheme} {parts : List Str} {i : Instr}
    (hi : i ∈ [fromUriInstr sch ⟨.tag, (schemeDesc sch).tagToken, parts⟩,
      .regDispatchUri ⟨.tag, (schemeDesc sch).tagToken, parts⟩]) (hcount : parts.length = uriPartCount sch)
    {t : TagValue} (h : uriFields sch (parts.getD 0 []) (parts.getD 1 []) (parts.getD 2 []) (parts.getD 3 []) = .ok t)
    (s : State) :
    exec i s = .next (s.succeed (.tag t)) := by
  rw [exec_fromUri_or_dispatch rfl rfl hi]
  exact exec_fromUriInstr_of_value ((fromUri_eq_uriFields rfl rfl hcount).trans h) s

/-! ## Well-formed values: TO_URI, FROM_URI (R301) -/

/-- The clauses of WF (R49). -/
theorem tagWF_eq_true_iff (t : TagValue) :
    tagWF t = true ↔ tagFilter t ≤ 7 ∧ len2part (tagCompanyPrefix t).length = some (tagPartition t) ∧
      (tagCompanyPrefix t).all isDigit = true ∧
      (∃ row, (schemeTable t.scheme)[tagPartition t]? = some row ∧ (tagField2 t).length = row.digits2) ∧
      (tagField2 t).all isDigit = true ∧ serialWF t = true := by
  unfold tagWF
  cases (schemeTable t.scheme)[tagPartition t]? <;> simp [and_assoc]

theorem serialWF_sgtin96_iff (filter p : Nat) (cp f2 serial : Str) :
    serialWF (.sgtin96 filter p cp f2 serial) = true ↔ ∃ n, serialCheck serial = .ok n := by
  simp only [serialCheck_eq_ok_iff, serialWF]
  cases parseDec serial <;> simp

/-- FROM_URI gives back what TO_URI has rendered: the filter digit is read, every other part is copied both ways. -/
theorem fromUri_toUri {t : TagValue} (h : tagWF t = true) : fromUri t.scheme (toUri t.scheme t) = .ok t := by
  obtain ⟨hf, hprefix, hcp, ⟨row, hrow, hlen⟩, hf2, hserial⟩ := (tagWF_eq_true_iff t).mp h
  have hfilter : filterDigit (dec (tagFilter t)) = some (tagFilter t) :=
    (filterDigit_eq_some_iff ..).mpr ⟨hf, by rw [dec_step, if_pos (by omega)]⟩
  have hfields (serial : Str) : uriFields t.scheme (dec (tagFilter t)) (tagCompanyPrefix t) (tagField2 t) serial =
      uriTag t.scheme (tagFilter t) (tagPartition t) (tagCompanyPrefix t) (tagField2 t) serial :=
    uriFields_eq_uriTag hfilter hprefix (by simp [hcp]) hrow (not_not.mpr hlen) (by simp [hf2])
  cases t with
  | sgtin96 filter p cp f2 serial =>
    obtain ⟨n, hn⟩ := (serialWF_sgtin96_iff ..).mp hserial
    exact (fromUri_eq_uriFields rfl rfl rfl).trans ((hfields serial).trans (uriTag_sgtin96_of_serialCheck hn ..))
  | sgtin198 filter p cp f2 serial => exact (fromUri_eq_uriFields rfl rfl rfl).trans (hfields serial)
  | sscc96 filter p cp f2 => exact (fromUri_eq_uriFields rfl rfl rfl).trans (hfields [])

/-! ## The obligations on URIs -/

/-- Settles O53. -/
theorem fromUriReadsTheParts : Obligations.FromUriReadsTheParts := by
  intro d p n cp f2 serial row s hd hp hcp hf2 hlen
  have hfields (sch : Scheme) (hrow : (schemeTable sch)[p]? = some row) (sn : Str) :
      uriFields sch [48 + d] cp f2 sn = uriTag sch d p cp f2 sn :=
    uriFields_eq_uriTag ((filterDigit_eq_some_iff ..).mpr ⟨hd, rfl⟩) hp (by simp [hcp]) hrow (not_not.mpr hlen)
      (by simp [hf2])
  refine ⟨fun hrow hserial hn i hi => ?_, fun hrow i hi => ?_, fun hrow i hi => ?_⟩
  · have hcheck : serialCheck serial = .ok n :=
      (serialCheck_eq_ok_iff ..).mpr ⟨hserial ▸ parseDec_dec n, hn, hserial⟩
    exact exec_fromUri_or_dispatch_of_parts (sch := .sgtin96) hi rfl
      ((hfields .sgtin96 hrow serial).trans (uriTag_sgtin96_of_serialCheck hcheck ..)) s
  · exact exec_fromUri_or_dispatch_of_parts (sch := .sgtin198) hi rfl (hfields .sgtin198 hrow serial) s
  · exact exec_fromUri_or_dispatch_of_parts (sch := .sscc96) hi rfl (hfields .sscc96 hrow []) s

/-- Settles O54: the token and the part count of the list are those of the scheme. -/
theorem fromUriChecksInOrder : Obligations.FromUriChecksInOrder := by
  intro u s x hx i part
  have hdesc : x.2.1 = (schemeDesc x.1).tagToken ∧ x.2.2 = uriPartCount x.1 := by
    simp only [List.mem_cons, List.not_mem_nil, or_false] at hx
    rcases hx with rfl | rfl | rfl <;> exact ⟨rfl, rfl⟩
  obtain ⟨htokens, hcounts⟩ := hdesc
  rw [htokens, hcounts]
  have hraise (e : Exc) (he : fromUri x.1 u = .error e) : exec i s = .next (s.raise e) :=
    exec_fromUriInstr_of_error he s
  by_cases hid : u.kind = .id
  · rw [if_pos hid]
    exact hraise _ (fromUri_of_kind (by simp [hid]))
  have hkind := uriKind_eq_tag_of_ne_id hid
  rw [if_neg hid]
  by_cases htoken : u.schemeToken ≠ (schemeDesc x.1).tagToken
  · rw [if_pos htoken]
    exact hraise _ (fromUri_of_token hkind htoken)
  rw [if_neg htoken]
  by_cases hcount : u.parts.length ≠ uriPartCount x.1
  · rw [if_pos hcount]
    exact hraise _ (fromUri_of_count hkind (not_not.mp htoken) hcount)
  rw [if_neg hcount]
  have hfields (e : Exc) (he : uriFields x.1 (part 0) (part 1) (part 2) (part 3) = .error e) :
      exec i s = .next (s.raise e) :=
    hraise e ((fromUri_eq_uriFields hkind (not_not.mp htoken) (not_not.mp hcount)).trans he)
  by_cases hdigit : ∀ d, d ≤ 7 → part 0 ≠ [48 + d]
  · rw [if_pos hdigit]
    exact hfields _ (uriFields_of_filter ((filterDigit_eq_none_iff _).mpr hdigit))
  rw [if_neg hdigit]
  rw [← filterDigit_eq_none_iff] at hdigit
  obtain ⟨d, hfilter⟩ := Option.ne_none_iff_exists'.mp hdigit
  by_cases hshort : (part 1).length < 6 ∨ 12 < (part 1).length
  · rw [if_pos hshort]
    exact hfields _ (uriFields_of_prefix hfilter ((len2part_eq_none_iff _).mpr hshort))
  rw [if_neg hshort]
  have hprefix : len2part (part 1).length = some (12 - (part 1).length) :=
    (len2part_eq_some_iff ..).mpr ⟨by omega, by omega, rfl⟩
  by_cases hcp : (part 1).all isDigit = false
  · rw [if_pos hcp]
    exact hfields _ (uriFields_of_prefix_nonDigit hfilter hprefix hcp)
  rw [if_neg hcp]
  intro row hrow
  split_ifs with hlen hf2
  · exact hfields _ (uriFields_of_field2_length hfilter hprefix hcp hrow hlen)
  · exact hfields _ (uriFields_of_field2_nonDigit hfilter hprefix hcp hrow hlen hf2)
  · intro hsch hserial
    refine hfields _ ((uriFields_eq_uriTag hfilter hprefix hcp hrow hlen hf2).trans ?_)
    rw [hsch, uriTag_sgtin96_of_serial_error (serialCheck_eq_error_of_not hserial)]

/-- Settles O57. -/
theorem uriRoundTrip : Obligations.UriRoundTrip := fun t s h =>
  ⟨_, exec_toUriInstr t s, fun s2 => exec_fromUriInstr_of_value (fromUri_toUri h) s2⟩

/-- Settles O51: each command's operand has the scheme it requires, and its parts are the value's fields. -/
theorem toUriCopiesTheFields : Obligations.ToUriCopiesTheFields := fun _ _ _ _ _ _ =>
  ⟨exec_toUriInstr (.sgtin96 ..) _, exec_toUriInstr (.sgtin198 ..) _, exec_toUriInstr (.sscc96 ..) _⟩

/-- Settles O52: the operand type check passes, and `toId` copies neither the filter nor the partition. -/
theorem toIdDropsFilterAndPartition : Obligations.ToIdDropsFilterAndPartition := fun _ _ _ _ _ _ => ⟨rfl, rfl, rfl⟩

end Sys2Proof.Machine

/-! # Proofs of the family 60_exceptions: how commands fail, and the codes of the causes

A step either is a command, whose ways to end are `EndsAs`, or ends in one operation of the model. The table of R331 is
read off `causeTable`, one row for each cause. -/

namespace Sys2Proof.Machine

/-! ## Every step answers -/

theorem exec_next (i : Instr) (s : State) : ∃ t, exec i s = .next t := by
  obtain ⟨t, ht, -⟩ := exec_ends i s
  exact ⟨t, ht⟩

/-- The engine answers every event with a next state (R94, R330, R371). -/
theorem stepEvent_next (ev : HostEvent) (s : State) : ∃ t, stepEvent ev s = .next t := by
  cases ev with
  | command c =>
    rcases hd : decode c with e | i
    · exact ⟨s.raise (decodeExc e), by simp only [stepEvent, hd]⟩
    · simpa only [stepEvent, hd] using exec_next i s
  | reset cut => exact ⟨s.assertReset, rfl⟩
  | read r => exact ⟨s.portRead r, rfl⟩

theorem step_next (s : State) : ∃ t, step s = .next t := by
  rcases hin : s.input with _ | ⟨ev, rest⟩
  · exact ⟨s, step_of_idle hin⟩
  · rw [step_of_event hin]
    exact stepEvent_next ev _

/-! ## A failing command and `BB` -/

/-- Of the ways to end in an exception, only a failing write phase touches `BB`, and it invalidates a valid one
(R186, R216). -/
theorem EndsAs.bb_eq_or_poisoned {i : Instr} {s t : State} (h : EndsAs i s t) (hfail : statusClass t.status ≠ 0#3) :
    t.bb = s.bb ∨ (mayPoison i = true ∧ s.bb.valid = true ∧ t.bb.valid = false) := by
  cases h with
  | fails | scratchFails => exact .inl rfl
  | poisons e hp hv => exact .inr ⟨hp, hv, rfl⟩
  | result | writes | creates | scratchResult | scratchCreates => simp at hfail

/-! ## Recorded information values -/

/-- `rec` saturates at 2^64 − 1 (R332). -/
theorem recInfo_toNat (x : Nat) : (recInfo x).toNat = if x < 2 ^ 64 then x else 2 ^ 64 - 1 := by
  unfold recInfo
  split_ifs with h
  · rw [BitVec.toNat_ofNat, Nat.mod_eq_of_lt h]
  · exact BitVec.toNat_allOnes

/-! ## The table of causes -/

/-- The causes in the order of R331's table. -/
def allCauses : List Cause :=
  [.hexChar, .length, .header, .unknownHeader, .partition, .fieldTooWide, .notDecimal, .badEscape, .uriKind, .uriScheme,
   .uriParts, .prefixLength, .filter, .serial, .shortText, .field2Length, .noBuffer, .bitCount, .negOffset, .outOfBounds,
   .valueOverflow, .capacity, .notMultipleOf7, .unknownScheme, .unassignedOp, .operandType]

theorem mem_allCauses (c : Cause) : c ∈ allCauses := by
  cases c <;> decide

/-- A cause's row of R331: the cause, its class, its CLASS code and its CAUSE code. -/
def causeRow (c : Cause) : Cause × ErrClass × BitVec 3 × Byte := (c, c.cls, c.cls.code, c.code)

/-- R331's table as the model's `Cause.cls`, `ErrClass.code` and `Cause.code` give it. -/
def causeTable : List (Cause × ErrClass × BitVec 3 × Byte) := allCauses.map causeRow

theorem exists_mem_causeTable (c : Cause) : ∃ x ∈ causeTable, x.1 = c :=
  ⟨causeRow c, List.mem_map_of_mem (mem_allCauses c), rfl⟩

theorem eq_causeRow_of_mem {x : Cause × ErrClass × BitVec 3 × Byte} (h : x ∈ causeTable) : x = causeRow x.1 := by
  obtain ⟨c, -, rfl⟩ := List.mem_map.mp h
  rfl

/-- The cause that a CLASS code and a CAUSE code name. -/
def Cause.ofCodes (cls : BitVec 3) (code : Byte) : Option Cause :=
  allCauses.find? fun c => c.cls.code == cls && c.code == code

/-- Looking up the codes of a cause finds that cause: no earlier row of the table has both. -/
theorem Cause.ofCodes_codes (c : Cause) : Cause.ofCodes c.cls.code c.code = some c := by
  cases c <;> rfl

theorem Cause.eq_of_codes {c d : Cause} (hcls : c.cls.code = d.cls.code) (hcode : c.code = d.code) : c = d := by
  have hlookup : some c = some d := by rw [← Cause.ofCodes_codes c, hcls, hcode, Cause.ofCodes_codes]
  exact Option.some.inj hlookup

/-- CLASS codes 5 to 7 are never written, and no error has a code 0 (R36, R331). -/
theorem Cause.codes_range (c : Cause) : 1 ≤ c.cls.code.toNat ∧ c.cls.code.toNat ≤ 4 ∧ c.code ≠ 0#8 := by
  cases c <;> decide

/-! ## The obligations -/

/-- Settles O5. -/
theorem everyStepAnswersNext : Obligations.EveryStepAnswersNext := ⟨exec_next, step_next⟩

/-- Settles O17. -/
theorem exceptionsKeepTheBuffer : Obligations.ExceptionsKeepTheBuffer :=
  fun _ _ _ h => (endsAs_of_exec h).bb_eq_or_poisoned

/-- Settles O6: STATUS by the laws of `statusWord`, ERRA and ERRB by `recInfo_toNat`. -/
theorem raiseWritesTheErrorRegisters : Obligations.RaiseWritesTheErrorRegisters :=
  fun e _ => ⟨by simp, by simp, by simp, by simp, by simp, recInfo_toNat e.a, recInfo_toNat e.b, rfl, rfl⟩

/-- Settles O8: the table written out in the statement is `causeTable`. -/
theorem causeCodesNameTheCause : Obligations.CauseCodesNameTheCause := by
  unfold Obligations.CauseCodesNameTheCause
  intro rows
  have hrows : rows = causeTable := rfl
  rw [hrows]
  refine ⟨rfl, exists_mem_causeTable, fun x hx => ?_, fun _ _ => Cause.eq_of_codes, Cause.codes_range⟩
  rw [eq_causeRow_of_mem hx]
  exact ⟨rfl, rfl, rfl, fun a b s => ⟨by simp [causeRow], by simp [causeRow]⟩⟩

end Sys2Proof.Machine
